-- ==== Sys2Proof/Word.lean ====
section
/-! DEFINITION. The words the SBFU works on: bytes, 32-bit registers, 32-bit data addresses
(00_scope.md R4, R5). -/

namespace Sys2Proof

/-- An unsigned byte of a buffer (00_scope.md R5). -/
abbrev Byte := BitVec 8

/-- A 32-bit register or command word (10_state.md R11). -/
abbrev Word := BitVec 32

/-- A data address, `ADDR_W = 32` bits wide, so that address arithmetic wraps (20_memory.md R32). -/
abbrev Addr := BitVec 32

end Sys2Proof
end

