-- ==== Sys2Proof/Config.lean ====
section
/-! DEFINITION. The implementation parameters of 00_scope.md R4 and the free values that stand for
what the spec calls "any value" (93_implementation_defined.md U2, U3, U4). -/

namespace Sys2Proof.Config

/-- `MAX_BPP`, the most bytes a MODE 2 unit can have (00_scope.md R4). -/
def maxBpp : Nat := 16

/-- `SHIFT_MAX_BYTE`, the largest legal N of the four byte shifts (00_scope.md R4). -/
def shiftMaxByte : Nat := 8

/-- `SHIFT_MAX_UNIT`, the largest legal N of the two unit shifts (00_scope.md R4). -/
def shiftMaxUnit : Nat := 32

/-- `UCONST_W`, the width of the multi-byte constant (00_scope.md R4). -/
def uconstW : Nat := 8 * maxBpp

/-- The register window's size in bytes (10_state.md R11). -/
def windowBytes : Nat := 0x40

/-- The parameters a model takes as arguments (00_scope.md R4; 93_implementation_defined.md U7, U18).
They stand in State, no step changes them, and a statement over every state covers every value. -/
structure Params where
  /-- `MULT_SAME_SOURCE`: `Mult` squares the Src1 byte when true (40_dual_source.md R75). -/
  multSameSource : Bool
  /-- `BASE`, where the platform puts the register window into data memory's own address map, and
  `none` where it keeps the two spaces apart (20_memory.md R30). DESIGN CHOICE, log 12; taken to be a
  multiple of 4, DESIGN CHOICE, log 22. -/
  window : Option Addr
  deriving DecidableEq, Repr

/-- The bytes that are "any value", one for each draw: nothing constrains them (log 3). -/
opaque freeByte : Nat → Byte

/-- Which of the two values a racing host read returns, one choice for each draw (log 5). -/
opaque freeChoice : Nat → Bool

end Sys2Proof.Config
end

