-- ==== Sys2Proof/Machine/State.lean ====
section
/-! DEFINITION. The state of one SBFU instance, its data memory and the host that drives it, as
plain data (10_state.md; 20_memory.md R30; 70_reset_and_hazards.md R160), and the state after reset
(70_reset_and_hazards.md R150). -/

namespace Sys2Proof.Machine

/-- The engine phase (10_state.md R20). -/
inductive Phase where
  /-- No command is in progress. -/
  | idle
  /-- A command was accepted and its next step decides its outcome. -/
  | validate
  /-- The command is executing elements. -/
  | run
  deriving DecidableEq, Repr

/-- What the elements of a running command do (10_state.md R22). -/
inductive Plan where
  /-- The command's own filter. -/
  | op
  /-- A copy shortcut of MODE 2 (60_exceptions.md R130). -/
  | copy
  deriving DecidableEq, Repr

/-- The failure codes of 60_exceptions.md R121. Codes 5 to 15 are never produced, so they have no
name here (93_implementation_defined.md U10; log 20). -/
inductive ECode where
  | none
  | invalidArg
  | outOfRange
  | notImplemented
  | illegalCmd
  deriving DecidableEq, Repr

/-- The stored fields of STATUS (10_state.md R13). BUSY is read from the phase. -/
structure Status where
  done : Bool
  fail : Bool
  noop : Bool
  ecode : ECode
  drop : Bool
  deriving DecidableEq, Repr

/-- The registers a command reads: once as the register file's own (10_state.md R11) and once as
the engine's shadow copies (10_state.md R21). -/
structure Operands where
  cmd : Word
  src1 : Word
  src2 : Word
  dst : Word
  len : Word
  param : Word
  uconst0 : Word
  uconst1 : Word
  uconst2 : Word
  uconst3 : Word
  deriving DecidableEq, Repr

/-- Data memory: the bytes that differ from what an unlisted address reads as, by rising address
(20_memory.md R30, R31). -/
abbrev Memory := List Host.Cell

/-- What a byte that nothing has written reads as: its "initial content" (20_memory.md R31), which
the spec leaves open. DESIGN CHOICE, log 1 (unsafe). -/
def unlisted : Byte := 0

/-- The canonical form: addresses strictly rising and below 2^32, and no listed byte equal to what
an unlisted address reads as. -/
abbrev Memory.wf (m : Memory) : Prop :=
  m.Pairwise (fun x y => x.1 < y.1) ∧ ∀ c ∈ m, c.1 < 2 ^ 32 ∧ c.2 ≠ unlisted

/-- The width of a host access to the register window (20_memory.md R36). -/
inductive Width where
  | byte
  | half
  | word
  deriving DecidableEq, Repr

/-- The host's moves on the SBFU and on data memory, all of 70_reset_and_hazards.md R160. A register
is named by its offset from BASE. -/
inductive HostMove where
  | writeReg (offset : BitVec 6) (width : Width) (value : Word)
  | readReg (offset : BitVec 6) (width : Width)
  | readByte (addr : Addr)
  | writeByte (addr : Addr) (value : Byte)
  | reset
  deriving DecidableEq, Repr

/-- One operation of a host program (30_encoding.md R65): a move, or the host's own control flow on
its temporary `t` and on the IRQ line. Targets are indexes into the program (log 8). -/
inductive HostOp where
  | move (m : HostMove)
  /-- `if t & mask == value goto target`. -/
  | branch (mask value : Word) (target : Nat)
  /-- `if IRQ == level goto target`. -/
  | branchIrq (level : Bool) (target : Nat)
  | jump (target : Nat)
  deriving DecidableEq, Repr

/-- Whose turn a step is (70_reset_and_hazards.md R161): the engine's, the host program's, or a
move the host makes from outside its program. -/
inductive Turn where
  | engine
  | program
  | host (m : HostMove)
  deriving DecidableEq, Repr

/-- Everything the spec gives the machine, and the model's own last three fields. -/
structure State where
  /-- CMD, SRC1, SRC2, DST, LEN, PARAM and UCONST0 to UCONST3 (10_state.md R12, R15 to R18). -/
  reg : Operands
  /-- STATUS less BUSY (10_state.md R13). -/
  status : Status
  /-- CTRL.IRQ_EN (10_state.md R14). -/
  irqEn : Bool
  /-- The engine phase (10_state.md R20). -/
  phase : Phase
  /-- The shadow registers (10_state.md R21). -/
  sh : Operands
  /-- What the running command's elements do (10_state.md R22). -/
  plan : Plan
  /-- The number of elements (10_state.md R22). -/
  count : Nat
  /-- The index of the next element (10_state.md R22). -/
  k : Nat
  /-- The scalar look-up table, 256 bytes (10_state.md R23). -/
  lut : List Byte
  /-- The constant-byte array, 16 bytes (10_state.md R24). -/
  cb : List Byte
  /-- Data memory (20_memory.md R30). -/
  mem : Memory
  /-- The implementation parameters (00_scope.md R4), which no step changes. -/
  params : Config.Params
  /-- The turns still to be taken, oldest first (70_reset_and_hazards.md R161; log 7). -/
  inputs : List Turn
  /-- The host's program (30_encoding.md R65; log 8). -/
  prog : List HostOp
  /-- The index of the host's next operation. -/
  hpc : Nat
  /-- The host temporary `t` (30_encoding.md R65). -/
  t : Word
  /-- The model's own: how many free values have been drawn (log 3). -/
  draws : Nat
  /-- The model's own: whether the host wrote a buffer of the command in progress (log 4). -/
  raced : Bool
  /-- The model's own: data memory as the command in progress found it (log 5). -/
  pre : Memory
  deriving DecidableEq, Repr

/-- Why a step stops the machine. The SBFU itself never traps (60_exceptions.md R120). -/
inductive Fault where
  /-- Raised by the meaning of a reserved command in phase RUN, for which no rule gives an element.
  Safe: no run reaches such a state, since a reserved command never leaves VALIDATE for RUN
  (60_exceptions.md R122). Log 16. -/
  | noElementRule
  deriving DecidableEq, Repr

/-- Why a step has no meaning. -/
inductive Refusal where
  /-- Raised by an arm of `exec` whose instruction has no meaning yet. Safe. -/
  | notModelled (mnemonic : String)
  /-- Raised by a host move: a register access that is narrower than 32 bits or misaligned, or a
  byte access to the window where it lies in data memory's map. Safe: the spec refuses the program
  (20_memory.md R36; 93_implementation_defined.md U5). Log 13. -/
  | subwordAccess
  /-- Raised by the engine's turn when a command about to run has a buffer over the register
  window. Safe: the spec refuses the program (93_implementation_defined.md U16). Log 14. -/
  | bufferOverWindow
  deriving DecidableEq, Repr

/-- Registers that all hold 0 (70_reset_and_hazards.md R150). -/
def Operands.zero : Operands := ⟨0, 0, 0, 0, 0, 0, 0, 0, 0, 0⟩

/-- STATUS with every field clear (70_reset_and_hazards.md R150). -/
def Status.clear : Status := ⟨false, false, false, .none, false⟩

/-- The machine right after reset (70_reset_and_hazards.md R150). The hidden state, which the rule
R152 leaves unspecified, is named in log 2; the host's fields in logs 7 and 8; the model's own in
logs 3, 4 and 5; the parameters in logs 11 and 12. -/
def State.reset : State where
  reg := Operands.zero
  status := Status.clear
  irqEn := false
  phase := .idle
  sh := Operands.zero
  plan := .op
  count := 0
  k := 0
  lut := List.replicate 256 0
  cb := List.replicate 16 0
  mem := []
  params := { multSameSource := false, window := none }
  inputs := []
  prog := []
  hpc := 0
  t := 0
  draws := 0
  raced := false
  pre := []

end Sys2Proof.Machine
end

