-- ==== Sys2Proof/Machine/Flags.lean ====
section
/-! DEFINITION. STATUS, CTRL and the interrupt output: the views software and the platform see of
them, and what a host write to STATUS does (10_state.md R13, R14, R26). -/

namespace Sys2Proof.Machine

/-- The 4-bit value of a failure code (60_exceptions.md R121). -/
def ECode.code : ECode → BitVec 4
  | .none => 0
  | .invalidArg => 1
  | .outOfRange => 2
  | .notImplemented => 3
  | .illegalCmd => 4

/-- STATUS.BUSY (10_state.md R13, R20). -/
def State.busy (s : State) : Bool := s.phase != .idle

/-- The word a read of STATUS returns (10_state.md R13). -/
def statusWord (s : State) : Word :=
  (0 : BitVec 23) ++ BitVec.ofBool s.status.drop ++ s.status.ecode.code ++
    BitVec.ofBool s.status.noop ++ BitVec.ofBool s.status.fail ++ BitVec.ofBool s.status.done ++
    BitVec.ofBool s.busy

/-- The word a read of CTRL returns (10_state.md R14). -/
def ctrlWord (s : State) : Word := (0 : BitVec 31) ++ BitVec.ofBool s.irqEn

/-- The interrupt output (10_state.md R26; 60_exceptions.md R133). -/
def State.irq (s : State) : Bool := s.irqEn && s.status.done

/-- A host write to STATUS: a written 1 clears DONE (bit 1) and DROP (bit 8) (10_state.md R13). -/
def Status.writeOneToClear (st : Status) (v : Word) : Status :=
  { st with done := st.done && !v.getLsbD 1, drop := st.drop && !v.getLsbD 8 }

/-- STATUS as the acceptance of a command leaves it (10_state.md R27). -/
def Status.accepted (st : Status) : Status :=
  { st with done := false, fail := false, noop := false, ecode := .none }

/-- STATUS as `fail(code)` leaves it (60_exceptions.md R121). -/
def Status.failed (st : Status) (code : ECode) : Status :=
  { st with fail := true, ecode := code, noop := false, done := true }

/-- STATUS as `succeed(noop)` leaves it (60_exceptions.md R131). -/
def Status.succeeded (st : Status) (noop : Bool) : Status :=
  { st with fail := false, ecode := .none, noop := noop, done := true }

end Sys2Proof.Machine
end

