-- ==== Sys2Proof/Syntax.lean ====
section
/-! DEFINITION. The instruction set: one constructor for each row of spec/opcode_table.json
(30_encoding.md R52). Every filter row carries both small fields of the command word, BPPM1 (bits
11:8) and SHAMT (bits 21:16); a filter that does not use one ignores it (30_encoding.md R58). -/

namespace Sys2Proof

/-- A command of the SBFU. -/
inductive Instr where
  /-- `Add` (40_dual_source.md R71). -/
  | add (bppm1 : BitVec 4) (shamt : BitVec 6)
  /-- `Mean` (40_dual_source.md R72). -/
  | mean (bppm1 : BitVec 4) (shamt : BitVec 6)
  /-- `Sub` (40_dual_source.md R73). -/
  | sub (bppm1 : BitVec 4) (shamt : BitVec 6)
  /-- `AbsDiff` (40_dual_source.md R74). -/
  | absDiff (bppm1 : BitVec 4) (shamt : BitVec 6)
  /-- `Mult` (40_dual_source.md R75). -/
  | mult (bppm1 : BitVec 4) (shamt : BitVec 6)
  /-- `MultUnbound` (40_dual_source.md R76). -/
  | multUnbound (bppm1 : BitVec 4) (shamt : BitVec 6)
  /-- `MultInv` (40_dual_source.md R77). -/
  | multInv (bppm1 : BitVec 4) (shamt : BitVec 6)
  /-- `MultDivby2` (40_dual_source.md R78). -/
  | multDivby2 (bppm1 : BitVec 4) (shamt : BitVec 6)
  /-- `MultDivby4` (40_dual_source.md R79). -/
  | multDivby4 (bppm1 : BitVec 4) (shamt : BitVec 6)
  /-- `BitAnd` (40_dual_source.md R80). -/
  | bitAnd (bppm1 : BitVec 4) (shamt : BitVec 6)
  /-- `BitOr` (40_dual_source.md R81). -/
  | bitOr (bppm1 : BitVec 4) (shamt : BitVec 6)
  /-- `Div` (40_dual_source.md R82). -/
  | div (bppm1 : BitVec 4) (shamt : BitVec 6)
  /-- `BitNegation` (41_scalar.md R91). -/
  | bitNegation (bppm1 : BitVec 4) (shamt : BitVec 6)
  /-- `AddByte` (41_scalar.md R92). -/
  | addByte (bppm1 : BitVec 4) (shamt : BitVec 6)
  /-- `AddByteToHalf` (41_scalar.md R93). -/
  | addByteToHalf (bppm1 : BitVec 4) (shamt : BitVec 6)
  /-- `SubByte` (41_scalar.md R94). -/
  | subByte (bppm1 : BitVec 4) (shamt : BitVec 6)
  /-- `MultByByte` (41_scalar.md R95). -/
  | multByByte (bppm1 : BitVec 4) (shamt : BitVec 6)
  /-- `ShiftRight` (41_scalar.md R96). -/
  | shiftRight (bppm1 : BitVec 4) (shamt : BitVec 6)
  /-- `ShiftRightAndMultByByte` (41_scalar.md R97). -/
  | shiftRightAndMultByByte (bppm1 : BitVec 4) (shamt : BitVec 6)
  /-- `ShiftLeft` (41_scalar.md R98). -/
  | shiftLeft (bppm1 : BitVec 4) (shamt : BitVec 6)
  /-- `ShiftLeftByte` (41_scalar.md R99). -/
  | shiftLeftByte (bppm1 : BitVec 4) (shamt : BitVec 6)
  /-- `BinarizeUsingThreshold` (41_scalar.md R100). -/
  | binarizeUsingThreshold (bppm1 : BitVec 4) (shamt : BitVec 6)
  /-- `ClipToRange` (41_scalar.md R101). -/
  | clipToRange (bppm1 : BitVec 4) (shamt : BitVec 6)
  /-- `NormalizeLinear` (41_scalar.md R102). -/
  | normalizeLinear (bppm1 : BitVec 4) (shamt : BitVec 6)
  /-- `AddUint` (42_unit.md R113). -/
  | addUint (bppm1 : BitVec 4) (shamt : BitVec 6)
  /-- `SubUint` (42_unit.md R114). -/
  | subUint (bppm1 : BitVec 4) (shamt : BitVec 6)
  /-- `ShiftLeftUint` (42_unit.md R115). -/
  | shiftLeftUint (bppm1 : BitVec 4) (shamt : BitVec 6)
  /-- `ShiftRightUint` (42_unit.md R116). -/
  | shiftRightUint (bppm1 : BitVec 4) (shamt : BitVec 6)
  /-- Reserved FUNC 12 to 15 of MODE 0; `func` is FUNC's low two bits (60_exceptions.md R123). -/
  | reservedMode0 (func : BitVec 2) (bppm1 : BitVec 4) (shamt : BitVec 6)
  /-- Reserved FUNC 12 to 15 of MODE 1; `func` is FUNC's low two bits (60_exceptions.md R123). -/
  | reservedMode1 (func : BitVec 2) (bppm1 : BitVec 4) (shamt : BitVec 6)
  /-- Reserved FUNC 4 to 7 of MODE 2; `func` is FUNC's low two bits (60_exceptions.md R123). -/
  | reservedMode2Low (func : BitVec 2) (bppm1 : BitVec 4) (shamt : BitVec 6)
  /-- Reserved FUNC 8 to 15 of MODE 2; `func` is FUNC's low three bits (60_exceptions.md R123). -/
  | reservedMode2High (func : BitVec 3) (bppm1 : BitVec 4) (shamt : BitVec 6)
  /-- Any MODE 3 word, the neighborhood family (60_exceptions.md R124). -/
  | neighborhood (func : BitVec 4) (bppm1 : BitVec 4) (shamt : BitVec 6)
  /-- Any word with a bit of RES0, RES1 or RES2 set, kept whole (30_encoding.md R59). -/
  | reservedBits (word : Word)
  deriving DecidableEq, Repr

end Sys2Proof
end

