-- ==== Sys2Proof/WellFormed.lean ====
section
/-! DEFINITION. Which terms of `Instr` stand for a command word. The fields' widths already say so
for every row but one: a word of the reserved-bits row has a reserved bit set (30_encoding.md R59). -/

namespace Sys2Proof

/-- The reserved bits of the command word: RES2 31:22, RES1 15:12, RES0 7:6 (30_encoding.md R50). -/
def reservedMask : Word := 0xFFC0F0C0

/-- Whether a term stands for a command word. -/
def Instr.wellFormed : Instr → Bool
  | .reservedBits w => w &&& reservedMask != 0
  | .add .. | .mean .. | .sub .. | .absDiff .. | .mult .. | .multUnbound .. | .multInv ..
  | .multDivby2 .. | .multDivby4 .. | .bitAnd .. | .bitOr .. | .div .. => true
  | .bitNegation .. | .addByte .. | .addByteToHalf .. | .subByte .. | .multByByte ..
  | .shiftRight .. | .shiftRightAndMultByByte .. | .shiftLeft .. | .shiftLeftByte ..
  | .binarizeUsingThreshold .. | .clipToRange .. | .normalizeLinear .. => true
  | .addUint .. | .subUint .. | .shiftLeftUint .. | .shiftRightUint .. => true
  | .reservedMode0 .. | .reservedMode1 .. | .reservedMode2Low .. | .reservedMode2High ..
  | .neighborhood .. => true

end Sys2Proof
end

