-- ==== Sys2Proof/Decode.lean ====
section
/-! DEFINITION. The decoder of 30_encoding.md R62, total on every 32-bit word, and the encoder of
30_encoding.md R50 and R52. A word that names no filter decodes to the constructor of its reserved
row, so the decoder never answers "nothing". -/

namespace Sys2Proof

/-! ## The fields of the command word (30_encoding.md R50) -/

/-- FUNC, bits 3:0. -/
def func (w : Word) : BitVec 4 := w.extractLsb' 0 4

/-- MODE, bits 5:4. -/
def mode (w : Word) : BitVec 2 := w.extractLsb' 4 2

/-- RES0, bits 7:6. -/
def res0 (w : Word) : BitVec 2 := w.extractLsb' 6 2

/-- BPPM1, bits 11:8. -/
def bppm1 (w : Word) : BitVec 4 := w.extractLsb' 8 4

/-- RES1, bits 15:12. -/
def res1 (w : Word) : BitVec 4 := w.extractLsb' 12 4

/-- SHAMT, bits 21:16. -/
def shamt (w : Word) : BitVec 6 := w.extractLsb' 16 6

/-- RES2, bits 31:22. -/
def res2 (w : Word) : BitVec 10 := w.extractLsb' 22 10

/-! ## Decoding -/

/-- The MODE 0 rows of 30_encoding.md R52 and R60. -/
def decodeMode0 (f b : BitVec 4) (n : BitVec 6) : Instr :=
  match f.toNat with
  | 0 => .add b n
  | 1 => .mean b n
  | 2 => .sub b n
  | 3 => .absDiff b n
  | 4 => .mult b n
  | 5 => .multUnbound b n
  | 6 => .multInv b n
  | 7 => .multDivby2 b n
  | 8 => .multDivby4 b n
  | 9 => .bitAnd b n
  | 10 => .bitOr b n
  | 11 => .div b n
  | _ => .reservedMode0 (f.extractLsb' 0 2) b n

/-- The MODE 1 rows of 30_encoding.md R52 and R60. -/
def decodeMode1 (f b : BitVec 4) (n : BitVec 6) : Instr :=
  match f.toNat with
  | 0 => .bitNegation b n
  | 1 => .addByte b n
  | 2 => .addByteToHalf b n
  | 3 => .subByte b n
  | 4 => .multByByte b n
  | 5 => .shiftRight b n
  | 6 => .shiftRightAndMultByByte b n
  | 7 => .shiftLeft b n
  | 8 => .shiftLeftByte b n
  | 9 => .binarizeUsingThreshold b n
  | 10 => .clipToRange b n
  | 11 => .normalizeLinear b n
  | _ => .reservedMode1 (f.extractLsb' 0 2) b n

/-- The MODE 2 rows of 30_encoding.md R52 and R60. -/
def decodeMode2 (f b : BitVec 4) (n : BitVec 6) : Instr :=
  match f.toNat with
  | 0 => .addUint b n
  | 1 => .subUint b n
  | 2 => .shiftLeftUint b n
  | 3 => .shiftRightUint b n
  | _ =>
    if f.getLsbD 3 then .reservedMode2High (f.extractLsb' 0 3) b n
    else .reservedMode2Low (f.extractLsb' 0 2) b n

/-- `decode` of 30_encoding.md R62: the reserved bits first, then MODE 3, then the opcode map. -/
def decode (w : Word) : Instr :=
  if res0 w ≠ 0 ∨ res1 w ≠ 0 ∨ res2 w ≠ 0 then .reservedBits w
  else
    match (mode w).toNat with
    | 0 => decodeMode0 (func w) (bppm1 w) (shamt w)
    | 1 => decodeMode1 (func w) (bppm1 w) (shamt w)
    | 2 => decodeMode2 (func w) (bppm1 w) (shamt w)
    | _ => .neighborhood (func w) (bppm1 w) (shamt w)

/-- The instruction read from a table row's bits. A command word is written to CMD as one 32-bit
value, so there is no byte order to lay out (20_memory.md R36), and no word is refused. -/
def decodeTableWord (nbits w : Nat) : Option Instr :=
  some (decode (BitVec.ofNat 32 (w % 2 ^ nbits)))

/-! ## Encoding -/

/-- A command word with its reserved bits clear, assembled from its fields (30_encoding.md R50). -/
def commandWord (m : BitVec 2) (f b : BitVec 4) (n : BitVec 6) : Word :=
  (0 : BitVec 10) ++ n ++ (0 : BitVec 4) ++ b ++ (0 : BitVec 2) ++ m ++ f

/-- The command word of an instruction (30_encoding.md R52). -/
def encode : Instr → Word
  | .add b n => commandWord 0 0 b n
  | .mean b n => commandWord 0 1 b n
  | .sub b n => commandWord 0 2 b n
  | .absDiff b n => commandWord 0 3 b n
  | .mult b n => commandWord 0 4 b n
  | .multUnbound b n => commandWord 0 5 b n
  | .multInv b n => commandWord 0 6 b n
  | .multDivby2 b n => commandWord 0 7 b n
  | .multDivby4 b n => commandWord 0 8 b n
  | .bitAnd b n => commandWord 0 9 b n
  | .bitOr b n => commandWord 0 10 b n
  | .div b n => commandWord 0 11 b n
  | .bitNegation b n => commandWord 1 0 b n
  | .addByte b n => commandWord 1 1 b n
  | .addByteToHalf b n => commandWord 1 2 b n
  | .subByte b n => commandWord 1 3 b n
  | .multByByte b n => commandWord 1 4 b n
  | .shiftRight b n => commandWord 1 5 b n
  | .shiftRightAndMultByByte b n => commandWord 1 6 b n
  | .shiftLeft b n => commandWord 1 7 b n
  | .shiftLeftByte b n => commandWord 1 8 b n
  | .binarizeUsingThreshold b n => commandWord 1 9 b n
  | .clipToRange b n => commandWord 1 10 b n
  | .normalizeLinear b n => commandWord 1 11 b n
  | .addUint b n => commandWord 2 0 b n
  | .subUint b n => commandWord 2 1 b n
  | .shiftLeftUint b n => commandWord 2 2 b n
  | .shiftRightUint b n => commandWord 2 3 b n
  | .reservedMode0 f b n => commandWord 0 ((3 : BitVec 2) ++ f) b n
  | .reservedMode1 f b n => commandWord 1 ((3 : BitVec 2) ++ f) b n
  | .reservedMode2Low f b n => commandWord 2 ((1 : BitVec 2) ++ f) b n
  | .reservedMode2High f b n => commandWord 2 ((1 : BitVec 1) ++ f) b n
  | .neighborhood f b n => commandWord 3 f b n
  | .reservedBits w => w

end Sys2Proof
end

