-- ==== Sys2Proof/Machine/Operands.lean ====
section
/-! DEFINITION. The arithmetic helpers of 00_scope.md R6 and the operand forms of 30_encoding.md
R53 to R57 and 20_memory.md R32 to R35. -/

namespace Sys2Proof.Machine

/-! ## Arithmetic (00_scope.md R6): exact on integers, narrowed at the end -/

/-- `clamp(v, lo, hi)`. -/
def clamp (v lo hi : Int) : Int := min hi (max lo v)

/-- `sat8(v)`: the nearest byte. -/
def sat8 (v : Int) : Byte := BitVec.ofInt 8 (clamp v 0 255)

/-- `u8(v)`: the low 8 bits. -/
def u8 (v : Nat) : Byte := BitVec.ofNat 8 v

/-! ## Fields of the command word and of the parameter registers -/

/-- `bpp = zext_4(BPPM1) + 1` (30_encoding.md R53). -/
def bpp (b : BitVec 4) : Nat := b.toNat + 1

/-- `N = zext_6(SHAMT)` (30_encoding.md R54). -/
def shiftN (n : BitVec 6) : Nat := n.toNat

/-- `P0`, PARAM bits 7:0 (30_encoding.md R55). -/
def p0 (r : Operands) : Byte := r.param.extractLsb' 0 8

/-- `P1`, PARAM bits 15:8 (30_encoding.md R55). -/
def p1 (r : Operands) : Byte := r.param.extractLsb' 8 8

/-- `P2`, PARAM bits 23:16 (30_encoding.md R55). -/
def p2 (r : Operands) : Byte := r.param.extractLsb' 16 8

/-- `P3`, PARAM bits 31:24 (30_encoding.md R55). -/
def p3 (r : Operands) : Byte := r.param.extractLsb' 24 8

/-- `UC`, the 128-bit constant (30_encoding.md R56). -/
def uc (r : Operands) : BitVec 128 := r.uconst3 ++ r.uconst2 ++ r.uconst1 ++ r.uconst0

/-- `Cu = UC mod 2^(8*bpp)`, the part of the constant a unit of `w` bytes uses (42_unit.md R111). -/
def cu (r : Operands) (w : Nat) : Nat := (uc r).toNat % 2 ^ (8 * w)

/-! ## Big-endian units (20_memory.md R35) -/

/-- Byte `j` of a `w`-byte value, byte 0 the most significant (42_unit.md R111, R115). -/
def unitByte (v w j : Nat) : Byte := BitVec.ofNat 8 (v >>> (8 * (w - 1 - j)))

/-- The `w` bytes of a value, most significant first. -/
def toUnit (v w : Nat) : List Byte := (List.range w).map (unitByte v w)

/-- The integer a unit holds, its first byte the most significant. -/
def ofUnit (u : List Byte) : Nat := u.foldl (fun v b => v * 256 + b.toNat) 0

/-! ## Buffers (20_memory.md R32, R41; 30_encoding.md R57) -/

/-- The address of byte `i` of the buffer at `base`, modulo 2^32 (20_memory.md R32). -/
def bufAddr (base : Addr) (i : Nat) : Addr := base + BitVec.ofNat 32 i

/-- The offset of address `a` in the buffer at `base`, modulo 2^32. -/
def bufOffset (base a : Addr) : Nat := (a - base).toNat

/-- Whether address `a` is one of the `len` bytes of the buffer at `base`. -/
def inBuffer (base : Addr) (len : Nat) (a : Addr) : Bool := bufOffset base a < len

/-! ## Families (30_encoding.md R51; 30_encoding.md R62) -/

/-- What `decode` tells apart before the filter itself. -/
inductive Family where
  | dual
  | scalar
  | unit
  | neighborhood
  | illegal
  deriving DecidableEq, Repr

/-- The family of a command (30_encoding.md R51, R62). -/
def family : Instr → Family
  | .add .. | .mean .. | .sub .. | .absDiff .. | .mult .. | .multUnbound .. | .multInv ..
  | .multDivby2 .. | .multDivby4 .. | .bitAnd .. | .bitOr .. | .div .. => .dual
  | .bitNegation .. | .addByte .. | .addByteToHalf .. | .subByte .. | .multByByte ..
  | .shiftRight .. | .shiftRightAndMultByByte .. | .shiftLeft .. | .shiftLeftByte ..
  | .binarizeUsingThreshold .. | .clipToRange .. | .normalizeLinear .. => .scalar
  | .addUint .. | .subUint .. | .shiftLeftUint .. | .shiftRightUint .. => .unit
  | .neighborhood .. => .neighborhood
  | .reservedMode0 .. | .reservedMode1 .. | .reservedMode2Low .. | .reservedMode2High ..
  | .reservedBits _ => .illegal

/-- The bytes of one unit of a MODE 2 command, and 1 for the commands whose element is a byte
(30_encoding.md R51, R53). -/
def unitBytes : Instr → Nat
  | .addUint b _ | .subUint b _ | .shiftLeftUint b _ | .shiftRightUint b _ => bpp b
  | .add .. | .mean .. | .sub .. | .absDiff .. | .mult .. | .multUnbound .. | .multInv ..
  | .multDivby2 .. | .multDivby4 .. | .bitAnd .. | .bitOr .. | .div .. => 1
  | .bitNegation .. | .addByte .. | .addByteToHalf .. | .subByte .. | .multByByte ..
  | .shiftRight .. | .shiftRightAndMultByByte .. | .shiftLeft .. | .shiftLeftByte ..
  | .binarizeUsingThreshold .. | .clipToRange .. | .normalizeLinear .. => 1
  | .reservedMode0 .. | .reservedMode1 .. | .reservedMode2Low .. | .reservedMode2High ..
  | .neighborhood .. | .reservedBits _ => 1

/-- The source buffers a command uses (30_encoding.md R51). -/
def sources (i : Instr) (r : Operands) : List Addr :=
  match family i with
  | .dual => [r.src1, r.src2]
  | .scalar | .unit => [r.src1]
  | .neighborhood | .illegal => []

/-- The buffers a command uses, the destination last (30_encoding.md R51). -/
def buffers (i : Instr) (r : Operands) : List Addr :=
  match family i with
  | .dual | .scalar | .unit => sources i r ++ [r.dst]
  | .neighborhood | .illegal => []

/-- Whether a command uses the multi-byte constant, and so fills `cb` in its validate step
(30_encoding.md R56; 10_state.md R24). -/
def usesConstant : Instr → Bool
  | .addUint .. | .subUint .. => true
  | .shiftLeftUint .. | .shiftRightUint .. => false
  | .add .. | .mean .. | .sub .. | .absDiff .. | .mult .. | .multUnbound .. | .multInv ..
  | .multDivby2 .. | .multDivby4 .. | .bitAnd .. | .bitOr .. | .div .. => false
  | .bitNegation .. | .addByte .. | .addByteToHalf .. | .subByte .. | .multByByte ..
  | .shiftRight .. | .shiftRightAndMultByByte .. | .shiftLeft .. | .shiftLeftByte ..
  | .binarizeUsingThreshold .. | .clipToRange .. | .normalizeLinear .. => false
  | .reservedMode0 .. | .reservedMode1 .. | .reservedMode2Low .. | .reservedMode2High ..
  | .neighborhood .. | .reservedBits _ => false

/-- How many bytes of PARAM a filter uses, from P0 on (30_encoding.md R55). -/
def paramBytes : Instr → Nat
  | .addByte .. | .addByteToHalf .. | .subByte .. | .multByByte .. | .shiftRightAndMultByByte ..
  | .binarizeUsingThreshold .. => 1
  | .clipToRange .. => 2
  | .normalizeLinear .. => 4
  | .add .. | .mean .. | .sub .. | .absDiff .. | .mult .. | .multUnbound .. | .multInv ..
  | .multDivby2 .. | .multDivby4 .. | .bitAnd .. | .bitOr .. | .div .. => 0
  | .bitNegation .. | .shiftRight .. | .shiftLeft .. | .shiftLeftByte .. => 0
  | .addUint .. | .subUint .. | .shiftLeftUint .. | .shiftRightUint .. => 0
  | .reservedMode0 .. | .reservedMode1 .. | .reservedMode2Low .. | .reservedMode2High ..
  | .neighborhood .. | .reservedBits _ => 0

/-! ## Validation (60_exceptions.md R122) -/

/-- What the validate step decides. -/
inductive Verdict where
  | fail (code : ECode)
  | succeed
  | run (plan : Plan) (count : Nat)
  deriving DecidableEq, Repr

/-- Whether the command is a shift whose N is beyond its range (60_exceptions.md R127). -/
def shiftOutOfRange : Instr → Bool
  | .shiftRight _ n | .shiftRightAndMultByByte _ n | .shiftLeft _ n | .shiftLeftByte _ n =>
    shiftN n > Config.shiftMaxByte
  | .shiftLeftUint _ n | .shiftRightUint _ n => shiftN n > Config.shiftMaxUnit
  | .add .. | .mean .. | .sub .. | .absDiff .. | .mult .. | .multUnbound .. | .multInv ..
  | .multDivby2 .. | .multDivby4 .. | .bitAnd .. | .bitOr .. | .div .. => false
  | .bitNegation .. | .addByte .. | .addByteToHalf .. | .subByte .. | .multByByte ..
  | .binarizeUsingThreshold .. | .clipToRange .. | .normalizeLinear .. => false
  | .addUint .. | .subUint .. => false
  | .reservedMode0 .. | .reservedMode1 .. | .reservedMode2Low .. | .reservedMode2High ..
  | .neighborhood .. | .reservedBits _ => false

/-- Whether the command is the degenerate `NormalizeLinear`, `Cmax == Cmin` (60_exceptions.md
R128). -/
def degenerate (i : Instr) (r : Operands) : Bool :=
  match i with
  | .normalizeLinear .. => p1 r == p0 r
  | .add .. | .mean .. | .sub .. | .absDiff .. | .mult .. | .multUnbound .. | .multInv ..
  | .multDivby2 .. | .multDivby4 .. | .bitAnd .. | .bitOr .. | .div .. => false
  | .bitNegation .. | .addByte .. | .addByteToHalf .. | .subByte .. | .multByByte ..
  | .shiftRight .. | .shiftRightAndMultByByte .. | .shiftLeft .. | .shiftLeftByte ..
  | .binarizeUsingThreshold .. | .clipToRange .. => false
  | .addUint .. | .subUint .. | .shiftLeftUint .. | .shiftRightUint .. => false
  | .reservedMode0 .. | .reservedMode1 .. | .reservedMode2Low .. | .reservedMode2High ..
  | .neighborhood .. | .reservedBits _ => false

/-- `CopyShortcut(op)` of MODE 2 (60_exceptions.md R130). -/
def copyShortcut (i : Instr) (r : Operands) : Bool :=
  match i with
  | .addUint b _ | .subUint b _ => cu r (bpp b) == 0
  | .shiftLeftUint _ n | .shiftRightUint _ n => shiftN n == 0
  | .add .. | .mean .. | .sub .. | .absDiff .. | .mult .. | .multUnbound .. | .multInv ..
  | .multDivby2 .. | .multDivby4 .. | .bitAnd .. | .bitOr .. | .div .. => false
  | .bitNegation .. | .addByte .. | .addByteToHalf .. | .subByte .. | .multByByte ..
  | .shiftRight .. | .shiftRightAndMultByByte .. | .shiftLeft .. | .shiftLeftByte ..
  | .binarizeUsingThreshold .. | .clipToRange .. | .normalizeLinear .. => false
  | .reservedMode0 .. | .reservedMode1 .. | .reservedMode2Low .. | .reservedMode2High ..
  | .neighborhood .. | .reservedBits _ => false

/-- Whether a buffer the command uses starts at the null address (20_memory.md R33; 60_exceptions.md
R125). -/
def nullBuffer (i : Instr) (r : Operands) : Bool :=
  r.src1 == 0 || r.dst == 0 || (family i == .dual && r.src2 == 0)

/-- `Validate` of 60_exceptions.md R122, test by test in its order. -/
def validate (i : Instr) (r : Operands) : Verdict :=
  if family i = .illegal then .fail .illegalCmd
  else if family i = .neighborhood then .fail .notImplemented
  else if nullBuffer i r then .fail .invalidArg
  else if r.len = 0 then .succeed
  else if shiftOutOfRange i then .fail .outOfRange
  else if degenerate i r then .succeed
  else if family i = .unit then
    if copyShortcut i r then .run .copy r.len.toNat
    else if r.len.toNat / unitBytes i = 0 then .succeed
    else .run .op (r.len.toNat / unitBytes i)
  else .run .op r.len.toNat

end Sys2Proof.Machine
end

