-- ==== Sys2Proof/Machine/Ops.lean ====
section
/-! DEFINITION. The named operations over data memory and the engine's state that the meanings
share: byte access (20_memory.md R31), free draws (93_implementation_defined.md U2 to U4),
acceptance (10_state.md R27), the two ways a command ends (60_exceptions.md R121, R131) and the
engine step around an element (10_state.md R29). -/

namespace Sys2Proof.Machine

/-! ## Data memory (20_memory.md R31) -/

/-- The byte at a key of the list. -/
def lookup : Memory → Nat → Byte
  | [], _ => unlisted
  | c :: m, a => if c.1 = a then c.2 else lookup m a

/-- Lists a byte at a key that is not listed, in its place by address. -/
def insertCell : Memory → Nat → Byte → Memory
  | [], a, v => [(a, v)]
  | c :: m, a, v => if a < c.1 then (a, v) :: c :: m else c :: insertCell m a v

/-- `MemRead(a, 1)`. -/
def Memory.read (m : Memory) (a : Addr) : Byte := lookup m a.toNat

/-- `MemWrite(a, 1, v)`, keeping the canonical form. -/
def Memory.write (m : Memory) (a : Addr) (v : Byte) : Memory :=
  let rest := m.filter fun c => c.1 ≠ a.toNat
  if v = unlisted then rest else insertCell rest a.toNat v

/-- Writes the bytes `bs` into the buffer at `base` from its offset `off` on, in rising order
(20_memory.md R32, R37). -/
def Memory.writeBytes (m : Memory) (base : Addr) (off : Nat) : List Byte → Memory
  | [] => m
  | b :: bs => Memory.writeBytes (m.write (bufAddr base off) b) base (off + 1) bs

/-- The `n` bytes of the buffer at `base` from its offset `off` on. -/
def Memory.readBytes (m : Memory) (base : Addr) (off n : Nat) : List Byte :=
  (List.range n).map fun j => m.read (bufAddr base (off + j))

/-! ## Writing destination bytes -/

/-- `n` bytes that are any value, from draw `d` on (93_implementation_defined.md U2 to U4). -/
def freshBytes (d n : Nat) : List Byte := (List.range n).map fun j => Config.freeByte (d + j)

/-- Writes `bs` to the destination buffer from offset `off` on (30_encoding.md R57). -/
def State.putBytes (s : State) (off : Nat) (bs : List Byte) : State :=
  { s with mem := s.mem.writeBytes s.sh.dst off bs }

/-- Makes `n` bytes of the destination buffer any value, from offset `off` on. -/
def State.putFree (s : State) (off n : Nat) : State :=
  { s with mem := s.mem.writeBytes s.sh.dst off (freshBytes s.draws n), draws := s.draws + n }

/-- Whether the elements before destination offset `off` have overwritten address `a`
(20_memory.md R37, R40). -/
def State.overwritten (s : State) (off : Nat) (a : Addr) : Bool := inBuffer s.sh.dst off a

/-- Whether an element that reads `reads` and writes from `off` on has unspecified destination
bytes: it reads a byte an earlier element overwrote (20_memory.md R40; 93_implementation_defined.md
U2), or the host wrote one of the command's buffers (20_memory.md R43; U3). -/
def State.unspecified (s : State) (off : Nat) (reads : List Addr) : Bool :=
  s.raced || reads.any (s.overwritten off)

/-- An element's writes: the bytes the filter gives, or any value where they are unspecified. -/
def State.putElement (s : State) (off : Nat) (reads : List Addr) (bs : List Byte) : State :=
  if s.unspecified off reads then s.putFree off bs.length else s.putBytes off bs

/-! ## The life of a command -/

/-- Acceptance of the command word `v` (10_state.md R27): CMD stores it, every operand is latched,
STATUS is cleared but for DROP, and the engine goes to VALIDATE. The model's own fields start anew
(logs 4, 5). -/
def State.accept (s : State) (v : Word) : State :=
  { s with
    reg := { s.reg with cmd := v }
    sh := { s.reg with cmd := v }
    status := s.status.accepted
    phase := .validate
    raced := false
    pre := s.mem }

/-- `fail(code)` (60_exceptions.md R121): what a problem with a command does instead of a trap. -/
def State.fail (s : State) (code : ECode) : State :=
  { s with status := s.status.failed code, phase := .idle }

/-- `succeed(noop)` (60_exceptions.md R131). -/
def State.succeed (s : State) (noop : Bool) : State :=
  { s with status := s.status.succeeded noop, phase := .idle }

/-- The validate step's move to RUN (10_state.md R29). -/
def State.startRun (s : State) (p : Plan) (n : Nat) : State :=
  { s with plan := p, count := n, k := 0, phase := .run }

/-- What follows an element (10_state.md R29): `k` goes up by 1, and the last element completes the
command. -/
def State.advance (s : State) : State :=
  if s.k + 1 = s.count then { s with k := s.k + 1 }.succeed false else { s with k := s.k + 1 }

/-- The validate step (10_state.md R29), with `build` filling the LUT or `cb` where the command
runs. -/
def State.settle (s : State) (v : Verdict) (build : State → State) : State :=
  match v with
  | .fail code => s.fail code
  | .succeed => s.succeed true
  | .run p n => (build s).startRun p n

/-- One engine step of the command `i` (10_state.md R29): nothing in IDLE, which has no step; the
validate step; or one element. -/
def command (i : Instr) (build element : State → State) (s : State) :
    Host.Outcome State Fault Refusal :=
  match s.phase with
  | .idle => .next s
  | .validate => .next (s.settle (validate i s.sh) build)
  | .run => .next (element s).advance

/-- The engine step of a command that never runs: it fails in the validate step (60_exceptions.md
R123, R124), and no rule gives it an element (log 16). -/
def reservedCommand (i : Instr) (s : State) : Host.Outcome State Fault Refusal :=
  match s.phase with
  | .idle => .next s
  | .validate => .next (s.settle (validate i s.sh) id)
  | .run => .fault .noElementRule

/-! ## MODE 0 (40_dual_source.md R70) -/

/-- `DualElement(f, i)`: reads both source bytes, then writes the destination byte. -/
def dualElement (f : Byte → Byte → Byte) (s : State) : State :=
  let a1 := bufAddr s.sh.src1 s.k
  let a2 := bufAddr s.sh.src2 s.k
  s.putElement s.k [a1, a2] [f (s.mem.read a1) (s.mem.read a2)]

/-- `DualElement` where the second operand is the Src1 byte and Src2 is not read
(40_dual_source.md R70, R75). -/
def sameSourceElement (f : Byte → Byte → Byte) (s : State) : State :=
  let a1 := bufAddr s.sh.src1 s.k
  s.putElement s.k [a1] [f (s.mem.read a1) (s.mem.read a1)]

/-! ## MODE 1 (41_scalar.md R90) -/

/-- The 256-entry table of a per-byte mapping (10_state.md R23). -/
def tabulate (f : Byte → Byte) : List Byte := (List.range 256).map fun v => f (BitVec.ofNat 8 v)

/-- Fills the LUT with a per-byte mapping (10_state.md R23). -/
def State.buildLut (s : State) (f : Byte → Byte) : State := { s with lut := tabulate f }

/-- The LUT entry of a source byte. -/
def State.lutAt (s : State) (b : Byte) : Byte := s.lut.getD b.toNat 0

/-- `ScalarElement(i)`: the destination byte is the LUT entry of the source byte. -/
def scalarElement (s : State) : State :=
  let a1 := bufAddr s.sh.src1 s.k
  s.putElement s.k [a1] [s.lutAt (s.mem.read a1)]

/-- One engine step of a MODE 1 command with the mapping `f`. -/
def scalarCommand (i : Instr) (f : Byte → Byte) (s : State) : Host.Outcome State Fault Refusal :=
  command i (fun s => s.buildLut f) scalarElement s

/-! ## MODE 2 (42_unit.md R110 to R112) -/

/-- The constant bytes of `v` in a unit of `w` bytes, the entries from `w` on as in `old`
(42_unit.md R111). -/
def constantBytes (v w : Nat) (old : List Byte) : List Byte :=
  (List.range Config.maxBpp).map fun j => if j < w then unitByte v w j else old.getD j 0

/-- Fills `cb[0..w-1]` from the constant (42_unit.md R111). -/
def State.buildCb (s : State) (w : Nat) : State :=
  { s with cb := constantBytes (cu s.sh w) w s.cb }

/-- `CopyElement(i)`: one byte, copied. -/
def copyElement (s : State) : State :=
  let a1 := bufAddr s.sh.src1 s.k
  s.putElement s.k [a1] [s.mem.read a1]

/-- `UnitElement(k)`: reads the `w` bytes of the unit, then writes the `w` bytes of `g`. -/
def unitElement (w : Nat) (g : List Byte → List Byte) (s : State) : State :=
  let reads := (List.range w).map fun j => bufAddr s.sh.src1 (s.k * w + j)
  s.putElement (s.k * w) reads (g (s.mem.readBytes s.sh.src1 (s.k * w) w))

/-- One `RUN` step of a MODE 2 command, by its plan. -/
def unitOrCopy (w : Nat) (g : List Byte → List Byte) (s : State) : State :=
  match s.plan with
  | .copy => copyElement s
  | .op => unitElement w g s

end Sys2Proof.Machine
end

