-- ==== Sys2Proof/Machine/DualSource.lean ====
section
/-! DEFINITION. The MODE 0 filters: each one's byte function (40_dual_source.md R71 to R82) and its
meaning, one engine step of its command. -/

namespace Sys2Proof.Machine

/-- One engine step of a MODE 0 command with the filter `f` (40_dual_source.md R70). -/
def dualCommand (i : Instr) (f : Byte → Byte → Byte) (s : State) :
    Host.Outcome State Fault Refusal :=
  command i id (dualElement f) s

/-- Saturating addition, `min(255, a + b)` (40_dual_source.md R71). -/
def addBytes (a b : Byte) : Byte := sat8 (a.toNat + b.toNat)

/-- `Add` (40_dual_source.md R71). -/
def execAdd (b : BitVec 4) (n : BitVec 6) (s : State) : Host.Outcome State Fault Refusal :=
  dualCommand (.add b n) addBytes s

/-- Rounded average, `(a + b + 1) div 2` (40_dual_source.md R72). -/
def meanBytes (a b : Byte) : Byte := u8 ((a.toNat + b.toNat + 1) / 2)

/-- `Mean` (40_dual_source.md R72). -/
def execMean (b : BitVec 4) (n : BitVec 6) (s : State) : Host.Outcome State Fault Refusal :=
  dualCommand (.mean b n) meanBytes s

/-- Saturating subtraction, `max(0, a - b)` (40_dual_source.md R73). -/
def subBytes (a b : Byte) : Byte := sat8 ((a.toNat : Int) - b.toNat)

/-- `Sub` (40_dual_source.md R73). -/
def execSub (b : BitVec 4) (n : BitVec 6) (s : State) : Host.Outcome State Fault Refusal :=
  dualCommand (.sub b n) subBytes s

/-- Absolute difference, `abs(a - b)` (40_dual_source.md R74). -/
def absDiffBytes (a b : Byte) : Byte := u8 ((a.toNat : Int) - b.toNat).natAbs

/-- `AbsDiff` (40_dual_source.md R74). -/
def execAbsDiff (b : BitVec 4) (n : BitVec 6) (s : State) : Host.Outcome State Fault Refusal :=
  dualCommand (.absDiff b n) absDiffBytes s

/-- Normalized product, `(a * b) div 255` (40_dual_source.md R75). -/
def multBytes (a b : Byte) : Byte := u8 (a.toNat * b.toNat / 255)

/-- `Mult` (40_dual_source.md R75): with `MULT_SAME_SOURCE` the second operand is the Src1 byte, and
Src2, though null-checked, is not read. -/
def execMult (b : BitVec 4) (n : BitVec 6) (s : State) : Host.Outcome State Fault Refusal :=
  if s.params.multSameSource then command (.mult b n) id (sameSourceElement multBytes) s
  else dualCommand (.mult b n) multBytes s

/-- Wrapping product, `u8(a * b)` (40_dual_source.md R76). -/
def multUnboundBytes (a b : Byte) : Byte := u8 (a.toNat * b.toNat)

/-- `MultUnbound` (40_dual_source.md R76). -/
def execMultUnbound (b : BitVec 4) (n : BitVec 6) (s : State) : Host.Outcome State Fault Refusal :=
  dualCommand (.multUnbound b n) multUnboundBytes s

/-- Inverted multiply, `(65025 - (255 - a) * (255 - b)) div 255` (40_dual_source.md R77). -/
def multInvBytes (a b : Byte) : Byte := u8 ((65025 - (255 - a.toNat) * (255 - b.toNat)) / 255)

/-- `MultInv` (40_dual_source.md R77). -/
def execMultInv (b : BitVec 4) (n : BitVec 6) (s : State) : Host.Outcome State Fault Refusal :=
  dualCommand (.multInv b n) multInvBytes s

/-- Normalized product halved, `min(255, (a * b) div 510)` (40_dual_source.md R78). -/
def multDivby2Bytes (a b : Byte) : Byte := u8 (min 255 (a.toNat * b.toNat / 510))

/-- `MultDivby2` (40_dual_source.md R78). -/
def execMultDivby2 (b : BitVec 4) (n : BitVec 6) (s : State) : Host.Outcome State Fault Refusal :=
  dualCommand (.multDivby2 b n) multDivby2Bytes s

/-- Normalized product quartered, `min(255, (a * b) div 1020)` (40_dual_source.md R79). -/
def multDivby4Bytes (a b : Byte) : Byte := u8 (min 255 (a.toNat * b.toNat / 1020))

/-- `MultDivby4` (40_dual_source.md R79). -/
def execMultDivby4 (b : BitVec 4) (n : BitVec 6) (s : State) : Host.Outcome State Fault Refusal :=
  dualCommand (.multDivby4 b n) multDivby4Bytes s

/-- Bitwise AND (40_dual_source.md R80). -/
def andBytes (a b : Byte) : Byte := a &&& b

/-- `BitAnd` (40_dual_source.md R80). -/
def execBitAnd (b : BitVec 4) (n : BitVec 6) (s : State) : Host.Outcome State Fault Refusal :=
  dualCommand (.bitAnd b n) andBytes s

/-- Bitwise OR (40_dual_source.md R81). -/
def orBytes (a b : Byte) : Byte := a ||| b

/-- `BitOr` (40_dual_source.md R81). -/
def execBitOr (b : BitVec 4) (n : BitVec 6) (s : State) : Host.Outcome State Fault Refusal :=
  dualCommand (.bitOr b n) orBytes s

/-- Normalized quotient, 0 for division by 0 and 255 for `a >= b` (40_dual_source.md R82). -/
def divBytes (a b : Byte) : Byte := if b = 0 then 0 else if b.toNat ≤ a.toNat then 255 else u8 (255 * a.toNat / b.toNat)

/-- `Div` (40_dual_source.md R82). -/
def execDiv (b : BitVec 4) (n : BitVec 6) (s : State) : Host.Outcome State Fault Refusal :=
  dualCommand (.div b n) divBytes s

end Sys2Proof.Machine
end

