-- ==== Sys2Proof/Machine/Reserved.lean ====
section
/-! DEFINITION. The reserved rows of the opcode table: commands that fail in the validate step
(30_encoding.md R59, R60; 60_exceptions.md R123, R124). -/

namespace Sys2Proof.Machine

/-- Reserved FUNC 12 to 15 of MODE 0: fails with ILLEGAL_CMD (60_exceptions.md R123). -/
def execReservedMode0 (f : BitVec 2) (b : BitVec 4) (n : BitVec 6) (s : State) :
    Host.Outcome State Fault Refusal :=
  reservedCommand (.reservedMode0 f b n) s

/-- Reserved FUNC 12 to 15 of MODE 1: fails with ILLEGAL_CMD (60_exceptions.md R123). -/
def execReservedMode1 (f : BitVec 2) (b : BitVec 4) (n : BitVec 6) (s : State) :
    Host.Outcome State Fault Refusal :=
  reservedCommand (.reservedMode1 f b n) s

/-- Reserved FUNC 4 to 7 of MODE 2: fails with ILLEGAL_CMD (60_exceptions.md R123). -/
def execReservedMode2Low (f : BitVec 2) (b : BitVec 4) (n : BitVec 6) (s : State) :
    Host.Outcome State Fault Refusal :=
  reservedCommand (.reservedMode2Low f b n) s

/-- Reserved FUNC 8 to 15 of MODE 2: fails with ILLEGAL_CMD (60_exceptions.md R123). -/
def execReservedMode2High (f : BitVec 3) (b : BitVec 4) (n : BitVec 6) (s : State) :
    Host.Outcome State Fault Refusal :=
  reservedCommand (.reservedMode2High f b n) s

/-- MODE 3, the neighborhood family: fails with NOT_IMPLEMENTED (60_exceptions.md R124). -/
def execNeighborhood (f : BitVec 4) (b : BitVec 4) (n : BitVec 6) (s : State) :
    Host.Outcome State Fault Refusal :=
  reservedCommand (.neighborhood f b n) s

/-- A word with a reserved bit set: fails with ILLEGAL_CMD (60_exceptions.md R123). -/
def execReservedBits (w : Word) (s : State) : Host.Outcome State Fault Refusal :=
  reservedCommand (.reservedBits w) s

end Sys2Proof.Machine
end

