-- ==== Sys2Proof/Machine/Scalar.lean ====
section
/-! DEFINITION. The MODE 1 filters: each one's per-byte mapping (41_scalar.md R91 to R102) and its
meaning, one engine step of its command. -/

namespace Sys2Proof.Machine

/-- Bitwise complement, `255 - s` (41_scalar.md R91). -/
def negationByte (s : Byte) : Byte := u8 (255 - s.toNat)

/-- `BitNegation` (41_scalar.md R91). -/
def execBitNegation (b : BitVec 4) (n : BitVec 6) (s : State) : Host.Outcome State Fault Refusal :=
  scalarCommand (.bitNegation b n) negationByte s

/-- Saturating addition of `C`, a copy at `C == 0` (41_scalar.md R92). -/
def addByteByte (c s : Byte) : Byte := if c = 0 then s else sat8 (s.toNat + c.toNat)

/-- `AddByte` (41_scalar.md R92). -/
def execAddByte (b : BitVec 4) (n : BitVec 6) (s : State) : Host.Outcome State Fault Refusal :=
  scalarCommand (.addByte b n) (addByteByte (p0 s.sh)) s

/-- Halving, then saturating addition of `C`; no copy shortcut (41_scalar.md R93). -/
def addByteToHalfByte (c s : Byte) : Byte := sat8 (s.toNat / 2 + c.toNat : Nat)

/-- `AddByteToHalf` (41_scalar.md R93). -/
def execAddByteToHalf (b : BitVec 4) (n : BitVec 6) (s : State) : Host.Outcome State Fault Refusal :=
  scalarCommand (.addByteToHalf b n) (addByteToHalfByte (p0 s.sh)) s

/-- Saturating subtraction of `C`, a copy at `C == 0` (41_scalar.md R94). -/
def subByteByte (c s : Byte) : Byte := if c = 0 then s else sat8 ((s.toNat : Int) - c.toNat)

/-- `SubByte` (41_scalar.md R94). -/
def execSubByte (b : BitVec 4) (n : BitVec 6) (s : State) : Host.Outcome State Fault Refusal :=
  scalarCommand (.subByte b n) (subByteByte (p0 s.sh)) s

/-- `MBB(C, s)`: the identity at `C == 1`, else `(s * C) div 255` (41_scalar.md R95). -/
def multByByteByte (c s : Byte) : Byte := if c = 1 then s else u8 (s.toNat * c.toNat / 255)

/-- `MultByByte` (41_scalar.md R95). -/
def execMultByByte (b : BitVec 4) (n : BitVec 6) (s : State) : Host.Outcome State Fault Refusal :=
  scalarCommand (.multByByte b n) (multByByteByte (p0 s.sh)) s

/-- Logical right shift of the unsigned byte, `s >> N` (41_scalar.md R96). -/
def shiftRightByte (n : Nat) (s : Byte) : Byte := u8 (s.toNat >>> n)

/-- `ShiftRight` (41_scalar.md R96). -/
def execShiftRight (b : BitVec 4) (n : BitVec 6) (s : State) : Host.Outcome State Fault Refusal :=
  scalarCommand (.shiftRight b n) (shiftRightByte (shiftN n)) s

/-- `MBB(C, s >> N)` (41_scalar.md R97). -/
def shiftRightMultByte (n : Nat) (c s : Byte) : Byte := multByByteByte c (shiftRightByte n s)

/-- `ShiftRightAndMultByByte` (41_scalar.md R97). -/
def execShiftRightAndMultByByte (b : BitVec 4) (n : BitVec 6) (s : State) : Host.Outcome State Fault Refusal :=
  scalarCommand (.shiftRightAndMultByByte b n) (shiftRightMultByte (shiftN n) (p0 s.sh)) s

/-- Saturating left shift, `min(255, s << N)` (41_scalar.md R98). -/
def shiftLeftSatByte (n : Nat) (s : Byte) : Byte := sat8 (s.toNat <<< n : Nat)

/-- `ShiftLeft` (41_scalar.md R98). -/
def execShiftLeft (b : BitVec 4) (n : BitVec 6) (s : State) : Host.Outcome State Fault Refusal :=
  scalarCommand (.shiftLeft b n) (shiftLeftSatByte (shiftN n)) s

/-- Wrapping left shift, `u8(s << N)` (41_scalar.md R99). -/
def shiftLeftWrapByte (n : Nat) (s : Byte) : Byte := u8 (s.toNat <<< n)

/-- `ShiftLeftByte` (41_scalar.md R99). -/
def execShiftLeftByte (b : BitVec 4) (n : BitVec 6) (s : State) : Host.Outcome State Fault Refusal :=
  scalarCommand (.shiftLeftByte b n) (shiftLeftWrapByte (shiftN n)) s

/-- Inclusive threshold, `s >= T ? 255 : 0` (41_scalar.md R100). -/
def binarizeByte (t s : Byte) : Byte := if t.toNat ≤ s.toNat then 255 else 0

/-- `BinarizeUsingThreshold` (41_scalar.md R100). -/
def execBinarizeUsingThreshold (b : BitVec 4) (n : BitVec 6) (s : State) : Host.Outcome State Fault Refusal :=
  scalarCommand (.binarizeUsingThreshold b n) (binarizeByte (p0 s.sh)) s

/-- Range clip, the lower bound tested first (41_scalar.md R101). -/
def clipByte (tmin tmax s : Byte) : Byte := if s.toNat < tmin.toNat then tmin else if tmax.toNat < s.toNat then tmax else s

/-- `ClipToRange` (41_scalar.md R101). -/
def execClipToRange (b : BitVec 4) (n : BitVec 6) (s : State) : Host.Outcome State Fault Refusal :=
  scalarCommand (.clipToRange b n) (clipByte (p0 s.sh) (p1 s.sh)) s

/-- Affine remap, `clamp(floor(q), 0, 255)`; `floor` of the exact quotient is floor division, and
`Nmin` is whole, so it stands outside (41_scalar.md R102). -/
def normalizeByte (cmin cmax nmin nmax s : Byte) : Byte :=
  sat8 ((nmin.toNat : Int) +
    (((nmax.toNat : Int) - nmin.toNat) * ((s.toNat : Int) - cmin.toNat)).fdiv
      ((cmax.toNat : Int) - cmin.toNat))

/-- `NormalizeLinear` (41_scalar.md R102). -/
def execNormalizeLinear (b : BitVec 4) (n : BitVec 6) (s : State) : Host.Outcome State Fault Refusal :=
  scalarCommand (.normalizeLinear b n)
    (normalizeByte (p0 s.sh) (p1 s.sh) (p2 s.sh) (p3 s.sh)) s

end Sys2Proof.Machine
end

