-- ==== Sys2Proof/Machine/Unit.lean ====
section
/-! DEFINITION. The MODE 2 filters: each one's function on the bytes of a unit (42_unit.md R113 to
R116) and its meaning, one engine step of its command. -/

namespace Sys2Proof.Machine

/-- Bytewise saturating addition of the constant bytes, no carry between bytes (42_unit.md R113). -/
def addUnit (cb : List Byte) (u : List Byte) : List Byte :=
  u.mapIdx fun j x => sat8 (x.toNat + (cb.getD j 0).toNat)

/-- `AddUint` (42_unit.md R113). -/
def execAddUint (b : BitVec 4) (n : BitVec 6) (s : State) : Host.Outcome State Fault Refusal :=
  command (.addUint b n) (fun s => s.buildCb (bpp b))
    (unitOrCopy (bpp b) (addUnit s.cb)) s

/-- Bytewise saturating subtraction of the constant bytes, no borrow between bytes (42_unit.md
R114). -/
def subUnit (cb : List Byte) (u : List Byte) : List Byte :=
  u.mapIdx fun j x => sat8 ((x.toNat : Int) - (cb.getD j 0).toNat)

/-- `SubUint` (42_unit.md R114). -/
def execSubUint (b : BitVec 4) (n : BitVec 6) (s : State) : Host.Outcome State Fault Refusal :=
  command (.subUint b n) (fun s => s.buildCb (bpp b))
    (unitOrCopy (bpp b) (subUnit s.cb)) s

/-- Left shift of the unit as one big-endian integer of `8 * w` bits, zeros entering (42_unit.md
R115). -/
def shiftLeftUnit (w n : Nat) (u : List Byte) : List Byte :=
  toUnit ((ofUnit u <<< n) % 2 ^ (8 * w)) w

/-- `ShiftLeftUint` (42_unit.md R115). -/
def execShiftLeftUint (b : BitVec 4) (n : BitVec 6) (s : State) :
    Host.Outcome State Fault Refusal :=
  command (.shiftLeftUint b n) id (unitOrCopy (bpp b) (shiftLeftUnit (bpp b) (shiftN n))) s

/-- Logical right shift of the unit as one big-endian integer (42_unit.md R116). -/
def shiftRightUnit (w n : Nat) (u : List Byte) : List Byte := toUnit (ofUnit u >>> n) w

/-- `ShiftRightUint` (42_unit.md R116). -/
def execShiftRightUint (b : BitVec 4) (n : BitVec 6) (s : State) :
    Host.Outcome State Fault Refusal :=
  command (.shiftRightUint b n) id (unitOrCopy (bpp b) (shiftRightUnit (bpp b) (shiftN n))) s

end Sys2Proof.Machine
end

