-- ==== Sys2Proof/Machine/Dispatch.lean ====
section
/-! DEFINITION. `exec`: one engine step of a command, by its instruction (10_state.md R29). -/

namespace Sys2Proof.Machine

def exec (i : Instr) (s : State) : Host.Outcome State Fault Refusal :=
  match i with
  | .add b n => Sys2Proof.Machine.execAdd b n s
  | .mean b n => Sys2Proof.Machine.execMean b n s
  | .sub b n => Sys2Proof.Machine.execSub b n s
  | .absDiff b n => Sys2Proof.Machine.execAbsDiff b n s
  | .mult b n => Sys2Proof.Machine.execMult b n s
  | .multUnbound b n => Sys2Proof.Machine.execMultUnbound b n s
  | .multInv b n => Sys2Proof.Machine.execMultInv b n s
  | .multDivby2 b n => Sys2Proof.Machine.execMultDivby2 b n s
  | .multDivby4 b n => Sys2Proof.Machine.execMultDivby4 b n s
  | .bitAnd b n => Sys2Proof.Machine.execBitAnd b n s
  | .bitOr b n => Sys2Proof.Machine.execBitOr b n s
  | .div b n => Sys2Proof.Machine.execDiv b n s
  | .bitNegation b n => Sys2Proof.Machine.execBitNegation b n s
  | .addByte b n => Sys2Proof.Machine.execAddByte b n s
  | .addByteToHalf b n => Sys2Proof.Machine.execAddByteToHalf b n s
  | .subByte b n => Sys2Proof.Machine.execSubByte b n s
  | .multByByte b n => Sys2Proof.Machine.execMultByByte b n s
  | .shiftRight b n => Sys2Proof.Machine.execShiftRight b n s
  | .shiftRightAndMultByByte b n => Sys2Proof.Machine.execShiftRightAndMultByByte b n s
  | .shiftLeft b n => Sys2Proof.Machine.execShiftLeft b n s
  | .shiftLeftByte b n => Sys2Proof.Machine.execShiftLeftByte b n s
  | .binarizeUsingThreshold b n => Sys2Proof.Machine.execBinarizeUsingThreshold b n s
  | .clipToRange b n => Sys2Proof.Machine.execClipToRange b n s
  | .normalizeLinear b n => Sys2Proof.Machine.execNormalizeLinear b n s
  | .addUint b n => Sys2Proof.Machine.execAddUint b n s
  | .subUint b n => Sys2Proof.Machine.execSubUint b n s
  | .shiftLeftUint b n => Sys2Proof.Machine.execShiftLeftUint b n s
  | .shiftRightUint b n => Sys2Proof.Machine.execShiftRightUint b n s
  | .reservedMode0 f b n => Sys2Proof.Machine.execReservedMode0 f b n s
  | .reservedMode1 f b n => Sys2Proof.Machine.execReservedMode1 f b n s
  | .reservedMode2Low f b n => Sys2Proof.Machine.execReservedMode2Low f b n s
  | .reservedMode2High f b n => Sys2Proof.Machine.execReservedMode2High f b n s
  | .neighborhood f b n => Sys2Proof.Machine.execNeighborhood f b n s
  | .reservedBits w => Sys2Proof.Machine.execReservedBits w s

end Sys2Proof.Machine
end

