-- ==== Sys2Proof/Machine/Registers.lean ====
section
/-! DEFINITION. Host accesses to the register window (10_state.md R11 to R19, R27): which accesses
have a meaning, what a read returns, what a write does. -/

namespace Sys2Proof.Machine

/-- Whether an access is 32 bits wide and aligned to 4 bytes (20_memory.md R36). Its offset alone is
tested: BASE is taken to be a multiple of 4, which 00_scope.md R4 does not say. DESIGN CHOICE, log 22
(unsafe for an unaligned `params.window`). -/
def wordAccess (offset : BitVec 6) (width : Width) : Bool :=
  width == .word && offset.toNat % 4 == 0

/-- What an aligned read of the register at `offset` returns (10_state.md R11 to R19). -/
def readRegister (s : State) (offset : BitVec 6) : Word :=
  match offset.toNat / 4 with
  | 0 => s.reg.cmd
  | 1 => statusWord s
  | 2 => ctrlWord s
  | 3 => s.reg.src1
  | 4 => s.reg.src2
  | 5 => s.reg.dst
  | 6 => s.reg.len
  | 7 => s.reg.param
  | 8 => s.reg.uconst0
  | 9 => s.reg.uconst1
  | 10 => s.reg.uconst2
  | 11 => s.reg.uconst3
  | _ => 0

/-- A host write to CMD (10_state.md R27): accepted in IDLE, otherwise dropped, which sets DROP and
changes nothing else (60_exceptions.md R132). -/
def writeCmd (s : State) (v : Word) : State :=
  match s.phase with
  | .idle => s.accept v
  | .validate | .run => { s with status := { s.status with drop := true } }

/-- An aligned write of `v` to the register at `offset` (10_state.md R12 to R19, R27). -/
def writeRegister (s : State) (offset : BitVec 6) (v : Word) : State :=
  match offset.toNat / 4 with
  | 0 => writeCmd s v
  | 1 => { s with status := s.status.writeOneToClear v }
  | 2 => { s with irqEn := v.getLsbD 0 }
  | 3 => { s with reg := { s.reg with src1 := v } }
  | 4 => { s with reg := { s.reg with src2 := v } }
  | 5 => { s with reg := { s.reg with dst := v } }
  | 6 => { s with reg := { s.reg with len := v } }
  | 7 => { s with reg := { s.reg with param := v } }
  | 8 => { s with reg := { s.reg with uconst0 := v } }
  | 9 => { s with reg := { s.reg with uconst1 := v } }
  | 10 => { s with reg := { s.reg with uconst2 := v } }
  | 11 => { s with reg := { s.reg with uconst3 := v } }
  | _ => s

end Sys2Proof.Machine
end

