-- ==== Sys2Proof/Machine/Moves.lean ====
section
/-! DEFINITION. What one step of the whole machine does: the engine's turn, a turn of the host's
program, or a host move (70_reset_and_hazards.md R160, R161), and reset (R150, R151). -/

namespace Sys2Proof.Machine

/-! ## The engine's turn -/

/-- The instruction the engine is to run: the one its shadow CMD holds (60_exceptions.md R122). -/
def State.current (s : State) : Instr := decode s.sh.cmd

/-- Whether the buffer at `base` has a byte in the register window at `b`. -/
def overlapsWindow (base : Addr) (len : Nat) (b : Addr) : Bool :=
  (List.range Config.windowBytes).any fun j => inBuffer base len (bufAddr b j)

/-- Whether the command in VALIDATE is about to run with a buffer over the register window, which
has no meaning (20_memory.md R30; 93_implementation_defined.md U16; log 14). A command that fails or
writes nothing accesses no memory, so its buffers do not matter (60_exceptions.md R129). -/
def State.windowConflict (s : State) : Bool :=
  match s.params.window, validate s.current s.sh with
  | some b, .run _ _ =>
    s.phase == .validate &&
      (buffers s.current s.sh).any fun base => overlapsWindow base s.sh.len.toNat b
  | _, _ => false

/-- The engine's turn (10_state.md R29): one step of the current command. -/
def engineTurn (s : State) : Host.Outcome State Fault Refusal :=
  if s.windowConflict then .refused .bufferOverWindow else exec s.current s

/-! ## Data memory accesses of the host -/

/-- Whether `a` is a byte of the register window, where it shares data memory's map. -/
def State.inWindow (s : State) (a : Addr) : Bool :=
  match s.params.window with
  | none => false
  | some b => inBuffer b Config.windowBytes a

/-- Whether `a` is in the destination range of the command in progress (20_memory.md R41, R43). -/
def State.inDestination (s : State) (a : Addr) : Bool :=
  s.busy && !(buffers s.current s.sh).isEmpty && inBuffer s.sh.dst s.sh.len.toNat a

/-- Whether `a` is in a source range or the destination range of the command in progress
(20_memory.md R43). -/
def State.inBuffers (s : State) (a : Addr) : Bool :=
  s.busy && (buffers s.current s.sh).any fun base => inBuffer base s.sh.len.toNat a

/-- The state after at most `n` further engine steps of the command in progress. -/
def runAhead : Nat → State → State
  | 0, s => s
  | n + 1, s =>
    match exec s.current s with
    | .next s' => runAhead n s'
    | .fault _ | .refused _ => s

/-- A host read of a byte (20_memory.md R43). In the destination range of the command in progress it
returns the byte's value before the command or the value the command writes there; which one is a
free choice (log 5). -/
def hostReadByte (s : State) (a : Addr) : State :=
  if s.inDestination a then
    let s' := { s with draws := s.draws + 1 }
    let old := s.pre.read a
    let new := (runAhead (s.sh.len.toNat + 1) s').mem.read a
    { s' with t := (if Config.freeChoice s.draws then old else new).setWidth 32 }
  else { s with t := (s.mem.read a).setWidth 32 }

/-- A host write of a byte (20_memory.md R43). In a buffer of the command in progress it makes the
whole destination range any value, now and as the remaining elements write it (log 4). -/
def hostWriteByte (s : State) (a : Addr) (v : Byte) : State :=
  let s' := { s with mem := s.mem.write a v }
  if s.inBuffers a then { s'.putFree 0 s.sh.len.toNat with raced := true } else s'

/-! ## Reset -/

/-- The reset input (70_reset_and_hazards.md R150, R151): registers and engine go to their reset
values; a command in progress is abandoned, and every byte of its destination range holds any value;
data memory, the parameters and the host are otherwise kept (log 6). -/
def resetMove (s : State) : State :=
  let s' := if s.busy then s.putFree 0 s.sh.len.toNat else s
  { State.reset with
    mem := s'.mem
    draws := s'.draws
    params := s.params
    inputs := s.inputs
    prog := s.prog
    hpc := s.hpc
    t := s.t }

/-! ## The host's moves and program -/

/-- A host move (70_reset_and_hazards.md R160). -/
def hostMove (m : HostMove) (s : State) : Host.Outcome State Fault Refusal :=
  match m with
  | .writeReg off width v =>
    if wordAccess off width then .next (writeRegister s off v) else .refused .subwordAccess
  | .readReg off width =>
    if wordAccess off width then .next { s with t := readRegister s off }
    else .refused .subwordAccess
  | .readByte a => if s.inWindow a then .refused .subwordAccess else .next (hostReadByte s a)
  | .writeByte a v =>
    if s.inWindow a then .refused .subwordAccess else .next (hostWriteByte s a v)
  | .reset => .next (resetMove s)

/-- One operation of the host's program, and nothing once the program has halted
(30_encoding.md R65; 70_reset_and_hazards.md R162). -/
def programTurn (s : State) : Host.Outcome State Fault Refusal :=
  match s.prog[s.hpc]? with
  | none => .next s
  | some (.move m) => hostMove m { s with hpc := s.hpc + 1 }
  | some (.branch mask value target) =>
    .next { s with hpc := if s.t &&& mask = value then target else s.hpc + 1 }
  | some (.branchIrq level target) =>
    .next { s with hpc := if s.irq = level then target else s.hpc + 1 }
  | some (.jump target) => .next { s with hpc := target }

/-- One turn. -/
def takeTurn (u : Turn) (s : State) : Host.Outcome State Fault Refusal :=
  match u with
  | .engine => engineTurn s
  | .program => programTurn s
  | .host m => hostMove m s

/-- The next move of the whole machine: the oldest turn of `inputs`, and with none left the engine
while a command is in progress and the host's program otherwise (70_reset_and_hazards.md R161;
log 7). -/
def nextMove (s : State) : Host.Outcome State Fault Refusal :=
  match s.inputs with
  | u :: rest => takeTurn u { s with inputs := rest }
  | [] => if s.busy then engineTurn s else programTurn s

/-- `s` with the command word `v` accepted and the engine's turn next (log 8). -/
def State.placeCommand (s : State) (v : Word) : State :=
  { s.accept v with inputs := .engine :: s.inputs }

end Sys2Proof.Machine
end

