-- ==== Sys2Proof/Machine/Step.lean ====
section
/-! DEFINITION. The step of the whole machine, and the placing of a command where the next step runs
it. -/

namespace Sys2Proof.Machine

/-- One step (10_state.md R29; 70_reset_and_hazards.md R160, R161). -/
def step (s : State) : Host.Outcome State Fault Refusal := nextMove s

/-- `s` with the command word `w` where the next step runs it: accepted, with the engine's turn
next. It stands for the host's write to CMD (log 8). -/
def State.withFetchWord (s : State) (nbits w : Nat) : State :=
  s.placeCommand (BitVec.ofNat 32 (w % 2 ^ nbits))

end Sys2Proof.Machine
end

