-- ==== Sys2Proof/Machine/Assembler.lean ====
section
/-! DEFINITION. The assembler of 30_encoding.md R63 to R65: the statements, and each one's expansion
to host operations, or none where it is an assembly error. -/

namespace Sys2Proof.Machine

/-- A statement of the assembler (30_encoding.md R63), its operands in the statement's order and its
immediates as written; a pseudo-instruction (30_encoding.md R64); or one host operation
(30_encoding.md R65). -/
inductive Statement where
  | add (d s1 s2 : Addr) (len : Word)
  | mean (d s1 s2 : Addr) (len : Word)
  | sub (d s1 s2 : Addr) (len : Word)
  | absDiff (d s1 s2 : Addr) (len : Word)
  | mult (d s1 s2 : Addr) (len : Word)
  | multUnbound (d s1 s2 : Addr) (len : Word)
  | multInv (d s1 s2 : Addr) (len : Word)
  | multDivby2 (d s1 s2 : Addr) (len : Word)
  | multDivby4 (d s1 s2 : Addr) (len : Word)
  | bitAnd (d s1 s2 : Addr) (len : Word)
  | bitOr (d s1 s2 : Addr) (len : Word)
  | div (d s1 s2 : Addr) (len : Word)
  | bitNegation (d s : Addr) (len : Word)
  | addByte (d s : Addr) (len : Word) (c : Nat)
  | addByteToHalf (d s : Addr) (len : Word) (c : Nat)
  | subByte (d s : Addr) (len : Word) (c : Nat)
  | multByByte (d s : Addr) (len : Word) (c : Nat)
  | shiftRight (d s : Addr) (len : Word) (n : Nat)
  | shiftLeft (d s : Addr) (len : Word) (n : Nat)
  | shiftLeftByte (d s : Addr) (len : Word) (n : Nat)
  | shiftRightAndMultByByte (d s : Addr) (len : Word) (n c : Nat)
  | binarizeUsingThreshold (d s : Addr) (len : Word) (t : Nat)
  | clipToRange (d s : Addr) (len : Word) (tmin tmax : Nat)
  | normalizeLinear (d s : Addr) (len : Word) (cmin cmax nmin nmax : Nat)
  | addUint (bpp : Nat) (d s : Addr) (len : Word) (c : Nat)
  | subUint (bpp : Nat) (d s : Addr) (len : Word) (c : Nat)
  | shiftLeftUint (bpp : Nat) (d s : Addr) (len : Word) (n : Nat)
  | shiftRightUint (bpp : Nat) (d s : Addr) (len : Word) (n : Nat)
  | copy (d s : Addr) (len : Word)
  | fill255 (d s : Addr) (len : Word)
  | wait
  | ack
  | host (op : HostOp)
  deriving DecidableEq, Repr

/-- `W REG, v`: an aligned 32-bit write (30_encoding.md R65). -/
def opWrite (offset : BitVec 6) (v : Word) : HostOp := .move (.writeReg offset .word v)

/-- `R REG -> t`: an aligned 32-bit read (30_encoding.md R65). -/
def opRead (offset : BitVec 6) : HostOp := .move (.readReg offset .word)

/-- An immediate in its field of `w` bits; one that does not fit is an assembly error
(30_encoding.md R63). -/
def fits (w v : Nat) : Option (BitVec w) := if v < 2 ^ w then some (BitVec.ofNat w v) else none

/-- BPPM1 of a unit width, which must be 1 to 16 (30_encoding.md R53, R63). -/
def bppField (bpp : Nat) : Option (BitVec 4) :=
  if 1 ≤ bpp ∧ bpp ≤ Config.maxBpp then some (BitVec.ofNat 4 (bpp - 1)) else none

/-- `P0 | P1<<8 | P2<<16 | P3<<24` of the first `used` bytes of `ps`, the unused bytes 0
(30_encoding.md R65). -/
def paramWord (used : Nat) (ps : List Byte) : Word :=
  let q := ps.take used
  q.getD 3 0 ++ q.getD 2 0 ++ q.getD 1 0 ++ q.getD 0 0

/-- The PARAM write of a MODE 1 filter that uses PARAM, and none for any other (30_encoding.md
R65). -/
def paramWrites (i : Instr) (ps : List Byte) : List HostOp :=
  if paramBytes i = 0 then [] else [opWrite 0x1C (paramWord (paramBytes i) ps)]

/-- The UCONST writes of AddUint and SubUint, low word first, and none for any other filter
(30_encoding.md R65). -/
def constantWrites (i : Instr) (c : BitVec 128) : List HostOp :=
  if usesConstant i then
    [opWrite 0x20 (c.extractLsb' 0 32), opWrite 0x24 (c.extractLsb' 32 32),
      opWrite 0x28 (c.extractLsb' 64 32), opWrite 0x2C (c.extractLsb' 96 32)]
  else []

/-- The register writes of the statement of filter `i` (30_encoding.md R65): those the filter uses,
and CMD last. `s2`, `ps` and `c` matter only to a filter that uses them. -/
def filterWrites (i : Instr) (d s1 s2 : Addr) (len : Word) (ps : List Byte) (c : BitVec 128) :
    List HostOp :=
  [opWrite 0x0C s1] ++ (if family i = .dual then [opWrite 0x10 s2] else []) ++
    [opWrite 0x14 d, opWrite 0x18 len] ++ paramWrites i ps ++ constantWrites i c ++
    [opWrite 0x00 (encode i)]

/-- The host operations of a statement that stands at index `here` of its program, and `none` for an
assembly error (30_encoding.md R63 to R65). -/
def Statement.assemble (here : Nat) : Statement → Option (List HostOp)
  | .add d s1 s2 len => some (filterWrites (.add 0 0) d s1 s2 len [] 0)
  | .mean d s1 s2 len => some (filterWrites (.mean 0 0) d s1 s2 len [] 0)
  | .sub d s1 s2 len => some (filterWrites (.sub 0 0) d s1 s2 len [] 0)
  | .absDiff d s1 s2 len => some (filterWrites (.absDiff 0 0) d s1 s2 len [] 0)
  | .mult d s1 s2 len => some (filterWrites (.mult 0 0) d s1 s2 len [] 0)
  | .multUnbound d s1 s2 len => some (filterWrites (.multUnbound 0 0) d s1 s2 len [] 0)
  | .multInv d s1 s2 len => some (filterWrites (.multInv 0 0) d s1 s2 len [] 0)
  | .multDivby2 d s1 s2 len => some (filterWrites (.multDivby2 0 0) d s1 s2 len [] 0)
  | .multDivby4 d s1 s2 len => some (filterWrites (.multDivby4 0 0) d s1 s2 len [] 0)
  | .bitAnd d s1 s2 len => some (filterWrites (.bitAnd 0 0) d s1 s2 len [] 0)
  | .bitOr d s1 s2 len => some (filterWrites (.bitOr 0 0) d s1 s2 len [] 0)
  | .div d s1 s2 len => some (filterWrites (.div 0 0) d s1 s2 len [] 0)
  | .bitNegation d s len => some (filterWrites (.bitNegation 0 0) d s 0 len [] 0)
  | .addByte d s len c => do
    let c ← fits 8 c
    return filterWrites (.addByte 0 0) d s 0 len [c] 0
  | .addByteToHalf d s len c => do
    let c ← fits 8 c
    return filterWrites (.addByteToHalf 0 0) d s 0 len [c] 0
  | .subByte d s len c => do
    let c ← fits 8 c
    return filterWrites (.subByte 0 0) d s 0 len [c] 0
  | .multByByte d s len c => do
    let c ← fits 8 c
    return filterWrites (.multByByte 0 0) d s 0 len [c] 0
  | .shiftRight d s len n => do
    let n ← fits 6 n
    return filterWrites (.shiftRight 0 n) d s 0 len [] 0
  | .shiftLeft d s len n => do
    let n ← fits 6 n
    return filterWrites (.shiftLeft 0 n) d s 0 len [] 0
  | .shiftLeftByte d s len n => do
    let n ← fits 6 n
    return filterWrites (.shiftLeftByte 0 n) d s 0 len [] 0
  | .shiftRightAndMultByByte d s len n c => do
    let n ← fits 6 n
    let c ← fits 8 c
    return filterWrites (.shiftRightAndMultByByte 0 n) d s 0 len [c] 0
  | .binarizeUsingThreshold d s len t => do
    let t ← fits 8 t
    return filterWrites (.binarizeUsingThreshold 0 0) d s 0 len [t] 0
  | .clipToRange d s len tmin tmax => do
    let tmin ← fits 8 tmin
    let tmax ← fits 8 tmax
    return filterWrites (.clipToRange 0 0) d s 0 len [tmin, tmax] 0
  | .normalizeLinear d s len cmin cmax nmin nmax => do
    let cmin ← fits 8 cmin
    let cmax ← fits 8 cmax
    let nmin ← fits 8 nmin
    let nmax ← fits 8 nmax
    return filterWrites (.normalizeLinear 0 0) d s 0 len [cmin, cmax, nmin, nmax] 0
  | .addUint bpp d s len c => do
    let b ← bppField bpp
    let c ← fits 128 c
    return filterWrites (.addUint b 0) d s 0 len [] c
  | .subUint bpp d s len c => do
    let b ← bppField bpp
    let c ← fits 128 c
    return filterWrites (.subUint b 0) d s 0 len [] c
  | .shiftLeftUint bpp d s len n => do
    let b ← bppField bpp
    let n ← fits 6 n
    return filterWrites (.shiftLeftUint b n) d s 0 len [] 0
  | .shiftRightUint bpp d s len n => do
    let b ← bppField bpp
    let n ← fits 6 n
    return filterWrites (.shiftRightUint b n) d s 0 len [] 0
  | .copy d s len => some (filterWrites (.addByte 0 0) d s 0 len [0] 0)
  | .fill255 d s len => some (filterWrites (.binarizeUsingThreshold 0 0) d s 0 len [0] 0)
  | .wait => some [opRead 0x04, .branch 1 1 here]
  | .ack => some [opWrite 0x04 0x00000102]
  | .host op => some [op]

/-- The host operations of a program whose first statement stands at index `here`. -/
def assembleFrom (here : Nat) : List Statement → Option (List HostOp)
  | [] => some []
  | st :: rest => do
    let ops ← st.assemble here
    let more ← assembleFrom (here + ops.length) rest
    return ops ++ more

/-- `MEM[a..b] = …`: data memory with the bytes `bs` from address `a` on (30_encoding.md R65). -/
def Memory.place (m : Memory) (a : Addr) (bs : List Byte) : Memory := m.writeBytes a 0 bs

/-- `s` with the host program `ops` about to start and the contents it starts from in data memory
(30_encoding.md R65; log 8). -/
def State.load (s : State) (ops : List HostOp) (contents : List (Addr × List Byte)) : State :=
  { s with prog := ops, hpc := 0, mem := contents.foldl (fun m c => m.place c.1 c.2) s.mem }

end Sys2Proof.Machine
end

