-- ==== Sys2Proof/Safety.lean ====
section
/-! DEFINITION. The terms in which claims are stated: what an element of each command reads, computes
and writes, the machine's invariant, and when a run has ended. -/

namespace Sys2Proof.Machine

/-! ## What a command computes -/

/-- Whether a command is a filter: in scope, neither reserved nor of the neighborhood family. -/
def isFilter (i : Instr) : Bool := family i == .dual || family i == .scalar || family i == .unit

/-- The byte function of a MODE 0 filter (40_dual_source.md R71 to R82), and 0 for any other
command. -/
def dualMap (p : Config.Params) (i : Instr) (a b : Byte) : Byte :=
  match i with
  | .mult .. => if p.multSameSource then multBytes a a else multBytes a b
  | .add .. => addBytes a b
  | .mean .. => meanBytes a b
  | .sub .. => subBytes a b
  | .absDiff .. => absDiffBytes a b
  | .multUnbound .. => multUnboundBytes a b
  | .multInv .. => multInvBytes a b
  | .multDivby2 .. => multDivby2Bytes a b
  | .multDivby4 .. => multDivby4Bytes a b
  | .bitAnd .. => andBytes a b
  | .bitOr .. => orBytes a b
  | .div .. => divBytes a b
  | .bitNegation .. | .addByte .. | .addByteToHalf .. | .subByte .. | .multByByte ..
  | .shiftRight .. | .shiftRightAndMultByByte .. | .shiftLeft .. | .shiftLeftByte ..
  | .binarizeUsingThreshold .. | .clipToRange .. | .normalizeLinear .. => 0
  | .addUint .. | .subUint .. | .shiftLeftUint .. | .shiftRightUint .. => 0
  | .reservedMode0 .. | .reservedMode1 .. | .reservedMode2Low .. | .reservedMode2High ..
  | .neighborhood .. | .reservedBits _ => 0

/-- The per-byte mapping of a MODE 1 filter (41_scalar.md R91 to R102), and the identity for any
other command. -/
def scalarMap (i : Instr) (r : Operands) : Byte → Byte :=
  match i with
  | .bitNegation _ _ => negationByte
  | .addByte _ _ => addByteByte (p0 r)
  | .addByteToHalf _ _ => addByteToHalfByte (p0 r)
  | .subByte _ _ => subByteByte (p0 r)
  | .multByByte _ _ => multByByteByte (p0 r)
  | .shiftRight _ n => shiftRightByte (shiftN n)
  | .shiftRightAndMultByByte _ n => shiftRightMultByte (shiftN n) (p0 r)
  | .shiftLeft _ n => shiftLeftSatByte (shiftN n)
  | .shiftLeftByte _ n => shiftLeftWrapByte (shiftN n)
  | .binarizeUsingThreshold _ _ => binarizeByte (p0 r)
  | .clipToRange _ _ => clipByte (p0 r) (p1 r)
  | .normalizeLinear _ _ => normalizeByte (p0 r) (p1 r) (p2 r) (p3 r)
  | .add .. | .mean .. | .sub .. | .absDiff .. | .mult .. | .multUnbound .. | .multInv ..
  | .multDivby2 .. | .multDivby4 .. | .bitAnd .. | .bitOr .. | .div .. => id
  | .addUint .. | .subUint .. | .shiftLeftUint .. | .shiftRightUint .. => id
  | .reservedMode0 .. | .reservedMode1 .. | .reservedMode2Low .. | .reservedMode2High ..
  | .neighborhood .. | .reservedBits _ => id

/-- The unit function of a MODE 2 filter (42_unit.md R113 to R116), given the constant bytes, and
the identity for any other command. -/
def unitMap (i : Instr) (cb : List Byte) : List Byte → List Byte :=
  match i with
  | .addUint _ _ => addUnit cb
  | .subUint _ _ => subUnit cb
  | .shiftLeftUint b n => shiftLeftUnit (bpp b) (shiftN n)
  | .shiftRightUint b n => shiftRightUnit (bpp b) (shiftN n)
  | .add .. | .mean .. | .sub .. | .absDiff .. | .mult .. | .multUnbound .. | .multInv ..
  | .multDivby2 .. | .multDivby4 .. | .bitAnd .. | .bitOr .. | .div .. => id
  | .bitNegation .. | .addByte .. | .addByteToHalf .. | .subByte .. | .multByByte ..
  | .shiftRight .. | .shiftRightAndMultByByte .. | .shiftLeft .. | .shiftLeftByte ..
  | .binarizeUsingThreshold .. | .clipToRange .. | .normalizeLinear .. => id
  | .reservedMode0 .. | .reservedMode1 .. | .reservedMode2Low .. | .reservedMode2High ..
  | .neighborhood .. | .reservedBits _ => id

/-! ## What an element touches -/

/-- The bytes one element writes: a unit under MODE 2's OP plan, otherwise one byte
(10_state.md R22). -/
def elementWidth (i : Instr) (p : Plan) : Nat :=
  match family i, p with
  | .unit, .op => unitBytes i
  | _, _ => 1

/-- The source buffers whose bytes an element reads: those of the family, but for `Mult` with
`MULT_SAME_SOURCE`, which does not read Src2 (40_dual_source.md R70). -/
def readBuffers (p : Config.Params) (i : Instr) (r : Operands) : List Addr :=
  match i with
  | .mult .. => if p.multSameSource then [r.src1] else [r.src1, r.src2]
  | i => sources i r

/-- Whether `a` is one of the `n` destination bytes from offset `off` on. -/
def inElement (s : State) (off n : Nat) (a : Addr) : Prop :=
  ∃ j < n, a = bufAddr s.sh.dst (off + j)

/-- Whether no byte that the `n`-byte element at offset `off` reads has been overwritten by an
earlier element (20_memory.md R40). -/
def readsClean (s : State) (i : Instr) (off n : Nat) : Prop :=
  ∀ base ∈ readBuffers s.params i s.sh, ∀ j < n, ¬ s.overwritten off (bufAddr base (off + j))

/-! ## The invariant -/

/-- What holds of every state a run reaches: memory is in canonical form; while a command is in
progress the last outcome is cleared (70_reset_and_hazards.md R159) and CMD holds its word
(10_state.md R12); STATUS holds one outcome (60_exceptions.md R131); and in RUN the engine executes
what validation decided, with its tables filled (10_state.md R22 to R24, R29). -/
structure Inv (s : State) : Prop where
  memory : s.mem.wf
  cleared : s.phase ≠ .idle → s.status.done = false ∧ s.status.fail = false ∧
    s.status.noop = false ∧ s.status.ecode = .none
  failCode : s.status.fail = true ↔ s.status.ecode ≠ .none
  noopSucceeds : s.status.noop = true → s.status.fail = false
  command : s.phase ≠ .idle → s.reg.cmd = s.sh.cmd
  validated : s.phase = .run → validate s.current s.sh = .run s.plan s.count
  index : s.phase = .run → s.k < s.count
  table : s.phase = .run → family s.current = .scalar →
    ∀ v, s.lutAt v = scalarMap s.current s.sh v
  constant : s.phase = .run → usesConstant s.current = true → ∀ j < unitBytes s.current,
    s.cb.getD j 0 = unitByte (cu s.sh (unitBytes s.current)) (unitBytes s.current) j

/-! ## Runs -/

/-- A run has ended (70_reset_and_hazards.md R162): no turn is waiting, the host's program has
halted, and no command is in progress. -/
def Halted (s : State) : Prop := s.inputs = [] ∧ s.prog.length ≤ s.hpc ∧ s.phase = .idle

end Sys2Proof.Machine
end

