-- ==== Sys2Proof/Certificates/Slice0/Obligations.lean ====
section
/-! DEFINITION. The statements about the model, each from the numbered rules of spec/ that its
docstring names. The structures of namespace Sys2Proof.Claims say once what a rule of each family
says, with the filter's own formula as an argument. -/

namespace Sys2Proof.Claims

open Sys2Proof.Machine

/-- The command word of opcode byte `op` with BPPM1 `b` and SHAMT `n` (30_encoding.md R52). -/
def wordOf (op : Nat) (b : BitVec 4) (n : BitVec 6) : Word :=
  BitVec.ofNat 32 (op + b.toNat * 2 ^ 8 + n.toNat * 2 ^ 16)

/-- Everything an element leaves, apart from memory (10_state.md R29; 60_exceptions.md R131): `k`
goes up by 1, the last element completes the command with a success, and nothing else changes. -/
structure ElementLeaves (s t : State) : Prop where
  last : s.k + 1 = s.count → t.phase = .idle ∧ t.status.done = true ∧ t.status.fail = false ∧
    t.status.noop = false ∧ t.status.ecode = .none
  more : s.k + 1 ≠ s.count → t.phase = .run ∧ t.status = s.status
  drop : t.status.drop = s.status.drop
  index : t.k = s.k + 1
  registers : t.reg = s.reg ∧ t.irqEn = s.irqEn
  engine : t.sh = s.sh ∧ t.plan = s.plan ∧ t.count = s.count ∧ t.lut = s.lut ∧ t.cb = s.cb
  host : t.params = s.params ∧ t.inputs = s.inputs ∧ t.prog = s.prog ∧ t.hpc = s.hpc ∧ t.t = s.t
  race : t.raced = s.raced ∧ t.pre = s.pre

/-- Every byte of memory is unchanged but the `n` destination bytes from offset `off` on. -/
def OnlyElement (s t : State) (off n : Nat) : Prop :=
  ∀ a, (∀ j < n, a ≠ bufAddr s.sh.dst (off + j)) → t.mem.read a = s.mem.read a

/-- What the validate step leaves where the command runs (10_state.md R29), apart from the LUT and
`cb`. -/
structure StartsRun (s t : State) (p : Plan) (n : Nat) : Prop where
  phase : t.phase = .run
  plan : t.plan = p
  count : t.count = n
  index : t.k = 0
  registers : t.reg = s.reg ∧ t.status = s.status ∧ t.irqEn = s.irqEn ∧ t.sh = s.sh
  memory : t.mem = s.mem
  host : t.params = s.params ∧ t.inputs = s.inputs ∧ t.prog = s.prog ∧ t.hpc = s.hpc ∧ t.t = s.t
  race : t.draws = s.draws ∧ t.raced = s.raced ∧ t.pre = s.pre

/-- A MODE 0 filter's rule (40_dual_source.md R70 and the filter's own): its command word; its
failures; where it runs; and each element, with `f` on the source bytes. -/
structure DualRule (mk : BitVec 4 → BitVec 6 → Instr) (op : Nat)
    (f : Config.Params → Nat → Nat → Nat) : Prop where
  encoding : ∀ b n, encode (mk b n) = wordOf op b n ∧ decode (wordOf op b n) = mk b n
  nullFails : ∀ b n s, s.phase = .validate → (s.sh.src1 = 0 ∨ s.sh.src2 = 0 ∨ s.sh.dst = 0) →
    exec (mk b n) s = .next (s.fail .invalidArg)
  zeroLength : ∀ b n s, s.phase = .validate → s.sh.src1 ≠ 0 → s.sh.src2 ≠ 0 → s.sh.dst ≠ 0 →
    s.sh.len = 0 → exec (mk b n) s = .next (s.succeed true)
  starts : ∀ b n s, s.phase = .validate → s.sh.src1 ≠ 0 → s.sh.src2 ≠ 0 → s.sh.dst ≠ 0 →
    s.sh.len ≠ 0 →
    ∃ t, exec (mk b n) s = .next t ∧ StartsRun s t .op s.sh.len.toNat
  element : ∀ b n s, s.phase = .run → s.raced = false → readsClean s (mk b n) s.k 1 →
    ∃ t, exec (mk b n) s = .next t ∧
      (t.mem.read (bufAddr s.sh.dst s.k)).toNat =
        f s.params (s.mem.read (bufAddr s.sh.src1 s.k)).toNat
          (s.mem.read (bufAddr s.sh.src2 s.k)).toNat ∧
      OnlyElement s t s.k 1 ∧ ElementLeaves s t

/-- A MODE 1 filter's rule (41_scalar.md R90 and the filter's own): `bad` are its out-of-range
shift amounts, `noMap` the parameters for which it has no mapping, and `f` its mapping. -/
structure ScalarRule (mk : BitVec 4 → BitVec 6 → Instr) (op : Nat) (bad : BitVec 6 → Prop)
    (noMap : Operands → Prop) (f : BitVec 6 → Operands → Nat → Nat) : Prop where
  encoding : ∀ b n, encode (mk b n) = wordOf op b n ∧ decode (wordOf op b n) = mk b n
  nullFails : ∀ b n s, s.phase = .validate → (s.sh.src1 = 0 ∨ s.sh.dst = 0) →
    exec (mk b n) s = .next (s.fail .invalidArg)
  zeroLength : ∀ b n s, s.phase = .validate → s.sh.src1 ≠ 0 → s.sh.dst ≠ 0 → s.sh.len = 0 →
    exec (mk b n) s = .next (s.succeed true)
  outOfRange : ∀ b n s, s.phase = .validate → s.sh.src1 ≠ 0 → s.sh.dst ≠ 0 → s.sh.len ≠ 0 →
    bad n → exec (mk b n) s = .next (s.fail .outOfRange)
  noMapping : ∀ b n s, s.phase = .validate → s.sh.src1 ≠ 0 → s.sh.dst ≠ 0 → s.sh.len ≠ 0 →
    ¬ bad n → noMap s.sh → exec (mk b n) s = .next (s.succeed true)
  starts : ∀ b n s, s.phase = .validate → s.sh.src1 ≠ 0 → s.sh.dst ≠ 0 → s.sh.len ≠ 0 →
    ¬ bad n → ¬ noMap s.sh →
    ∃ t, exec (mk b n) s = .next t ∧ StartsRun s t .op s.sh.len.toNat ∧ t.cb = s.cb ∧
      ∀ v, (t.lutAt v).toNat = f n s.sh v.toNat
  element : ∀ b n s, s.phase = .run → s.raced = false → readsClean s (mk b n) s.k 1 →
    (∀ v, (s.lutAt v).toNat = f n s.sh v.toNat) →
    ∃ t, exec (mk b n) s = .next t ∧
      (t.mem.read (bufAddr s.sh.dst s.k)).toNat =
        f n s.sh (s.mem.read (bufAddr s.sh.src1 s.k)).toNat ∧
      OnlyElement s t s.k 1 ∧ ElementLeaves s t

/-- Byte `j` of the constant of a `w`-byte unit, `cb[j]` (42_unit.md R111). -/
def constantByte (r : Operands) (w j : Nat) : Nat :=
  (r.uconst0.toNat + r.uconst1.toNat * 2 ^ 32 + r.uconst2.toNat * 2 ^ 64 +
    r.uconst3.toNat * 2 ^ 96) % 2 ^ (8 * w) / 2 ^ (8 * (w - 1 - j)) % 2 ^ 8

/-- The big-endian integer of `w` unit bytes (20_memory.md R35; 42_unit.md R115). -/
def unitValue (w : Nat) (u : Nat → Nat) : Nat :=
  ∑ j ∈ Finset.range w, u j * 2 ^ (8 * (w - 1 - j))

/-- A MODE 2 filter's rule (42_unit.md R110 to R112 and the filter's own): `bad` are its
out-of-range shift amounts, `copies` its copy shortcut, `constant` whether it combines with `cb`,
and `g` byte `j` of its result for the unit bytes `u`. -/
structure UnitRule (mk : BitVec 4 → BitVec 6 → Instr) (op : Nat) (bad : BitVec 6 → Prop)
    (copies : BitVec 4 → BitVec 6 → Operands → Prop) (constant : Prop)
    (g : Nat → BitVec 6 → Operands → (Nat → Nat) → Nat → Nat) : Prop where
  encoding : ∀ b n, encode (mk b n) = wordOf op b n ∧ decode (wordOf op b n) = mk b n
  nullFails : ∀ b n s, s.phase = .validate → (s.sh.src1 = 0 ∨ s.sh.dst = 0) →
    exec (mk b n) s = .next (s.fail .invalidArg)
  zeroLength : ∀ b n s, s.phase = .validate → s.sh.src1 ≠ 0 → s.sh.dst ≠ 0 → s.sh.len = 0 →
    exec (mk b n) s = .next (s.succeed true)
  outOfRange : ∀ b n s, s.phase = .validate → s.sh.src1 ≠ 0 → s.sh.dst ≠ 0 → s.sh.len ≠ 0 →
    bad n → exec (mk b n) s = .next (s.fail .outOfRange)
  shortBuffer : ∀ b n s, s.phase = .validate → s.sh.src1 ≠ 0 → s.sh.dst ≠ 0 → s.sh.len ≠ 0 →
    ¬ bad n → ¬ copies b n s.sh → s.sh.len.toNat < b.toNat + 1 →
    exec (mk b n) s = .next (s.succeed true)
  startsCopy : ∀ b n s, s.phase = .validate → s.sh.src1 ≠ 0 → s.sh.dst ≠ 0 → s.sh.len ≠ 0 →
    ¬ bad n → copies b n s.sh →
    ∃ t, exec (mk b n) s = .next t ∧ StartsRun s t .copy s.sh.len.toNat ∧ t.lut = s.lut
  startsUnits : ∀ b n s, s.phase = .validate → s.sh.src1 ≠ 0 → s.sh.dst ≠ 0 → s.sh.len ≠ 0 →
    ¬ bad n → ¬ copies b n s.sh → b.toNat + 1 ≤ s.sh.len.toNat →
    ∃ t, exec (mk b n) s = .next t ∧ StartsRun s t .op (s.sh.len.toNat / (b.toNat + 1)) ∧
      t.lut = s.lut ∧ (constant → ∀ j < b.toNat + 1,
        (t.cb.getD j 0).toNat = constantByte s.sh (b.toNat + 1) j)
  copyElement : ∀ b n s, s.phase = .run → s.plan = .copy → s.raced = false →
    readsClean s (mk b n) s.k 1 →
    ∃ t, exec (mk b n) s = .next t ∧
      t.mem.read (bufAddr s.sh.dst s.k) = s.mem.read (bufAddr s.sh.src1 s.k) ∧
      OnlyElement s t s.k 1 ∧ ElementLeaves s t
  unitElement : ∀ b n s, s.phase = .run → s.plan = .op → s.raced = false →
    readsClean s (mk b n) (s.k * (b.toNat + 1)) (b.toNat + 1) →
    (constant → ∀ j < b.toNat + 1,
      (s.cb.getD j 0).toNat = constantByte s.sh (b.toNat + 1) j) →
    ∃ t, exec (mk b n) s = .next t ∧
      (∀ j < b.toNat + 1,
        (t.mem.read (bufAddr s.sh.dst (s.k * (b.toNat + 1) + j))).toNat =
          g (b.toNat + 1) n s.sh
            (fun i => (s.mem.read (bufAddr s.sh.src1 (s.k * (b.toNat + 1) + i))).toNat) j) ∧
      OnlyElement s t (s.k * (b.toNat + 1)) (b.toNat + 1) ∧ ElementLeaves s t

/-- `MBB(C, s)` (41_scalar.md R95). -/
def mbb (c s : Nat) : Nat := if c = 1 then s else s * c / 255

/-- `clamp(floor(q), 0, 255)` of the exact rational `q` of 41_scalar.md R102. -/
def normalized (cmin cmax nmin nmax s : Nat) : Nat :=
  (max 0 (min 255 ⌊(nmin : ℚ) + ((nmax : ℚ) - nmin) * ((s : ℚ) - cmin) /
    ((cmax : ℚ) - cmin)⌋)).toNat

/-- PARAM byte `i` (30_encoding.md R55). -/
def param (r : Operands) (i : Nat) : Nat := r.param.toNat / 2 ^ (8 * i) % 2 ^ 8

/-- A filter without out-of-range shift amounts. -/
def never {α : Type} (_ : α) : Prop := False

/-- Where every element of the command reads only bytes that no earlier element overwrote: the
buffers are apart, or exactly the same (20_memory.md R39, R40). -/
def NoPartialOverlap (s : State) (count width : Nat) : Prop :=
  ∀ e < count, readsClean s s.current (e * width) width

/-- The command in VALIDATE is left alone until it completes: no turn but the engine's is waiting,
the host has not touched its buffers, and they do not lie over the register window. -/
def Undisturbed (s : State) : Prop :=
  s.phase = .validate ∧ s.inputs = [] ∧ s.raced = false ∧ s.windowConflict = false

/-- A command's success: idle, DONE, and no failure, with bytes written (60_exceptions.md R131). -/
def Succeeded (t : State) : Prop :=
  t.phase = .idle ∧ t.status.done = true ∧ t.status.fail = false ∧ t.status.noop = false ∧
    t.status.ecode = .none

/-- Two states agree on all but the engine's hidden state (10_state.md R21 to R24). -/
structure SameVisible (s u : State) : Prop where
  registers : s.reg = u.reg ∧ s.status = u.status ∧ s.irqEn = u.irqEn ∧ s.phase = u.phase
  memory : s.mem = u.mem
  host : s.params = u.params ∧ s.inputs = u.inputs ∧ s.prog = u.prog ∧ s.hpc = u.hpc ∧ s.t = u.t
  draws : s.draws = u.draws

/-- The two runs end alike: both in states that agree, or both stopped for the same reason. -/
def SameOutcome : Host.Outcome State Fault Refusal → Host.Outcome State Fault Refusal → Prop
  | .next s, .next u => SameVisible s u
  | .fault f, .fault g => f = g
  | .refused f, .refused g => f = g
  | _, _ => False

/-- `s` with other shadow registers. -/
def shadowed (r : Operands) (s : State) : State := { s with sh := r }

/-- The same step with other shadow registers behind it. -/
def withShadow (r : Operands) :
    Host.Outcome State Fault Refusal → Host.Outcome State Fault Refusal
  | .next s => .next (shadowed r s)
  | .fault f => .fault f
  | .refused f => .refused f

/-- Two operand sets that differ only in fields the command does not use (30_encoding.md R52, R58):
CMD itself, whose fields the instruction carries; SRC2 outside MODE 0; UCONST outside AddUint and
SubUint; and the PARAM bytes the filter does not name. -/
structure AgreeOnUsed (i : Instr) (r r' : Operands) : Prop where
  src1 : r.src1 = r'.src1
  dst : r.dst = r'.dst
  len : r.len = r'.len
  src2 : family i = .dual → r.src2 = r'.src2
  uconst : usesConstant i = true → r.uconst0 = r'.uconst0 ∧ r.uconst1 = r'.uconst1 ∧
    r.uconst2 = r'.uconst2 ∧ r.uconst3 = r'.uconst3
  param0 : (∃ b n, i ∈ [.addByte b n, .addByteToHalf b n, .subByte b n, .multByByte b n,
      .shiftRightAndMultByByte b n, .binarizeUsingThreshold b n, .clipToRange b n,
      .normalizeLinear b n]) → p0 r = p0 r'
  param1 : (∃ b n, i ∈ [.clipToRange b n, .normalizeLinear b n]) → p1 r = p1 r'
  param23 : (∃ b n, i = .normalizeLinear b n) → p2 r = p2 r' ∧ p3 r = p3 r'

/-- What a filter statement does (30_encoding.md R63, R65). Where its immediates fit, it assembles to `n`
host operations; run from IDLE in their place in the host's program, with no turn waiting, these take
one step each and leave the command accepted, the register file and the operands it latched being
`regs` of what the register file held, and all else but the program's index as acceptance leaves it.
Where an immediate does not fit, it is an assembly error. -/
def Issues (fit : Prop) (st : Statement) (n : Nat) (regs : Operands → Operands) : Prop :=
  (fit → ∀ (before after : List HostOp) (s : State),
    ∃ ops, st.assemble before.length = some ops ∧ ops.length = n ∧
      (s.phase = .idle → s.inputs = [] → s.prog = before ++ ops ++ after → s.hpc = before.length →
        ∃ t : State, core.run n s = .next t ∧ t.reg = regs s.reg ∧ t.sh = regs s.reg ∧
          t = { State.accept { s with reg := regs s.reg } (regs s.reg).cmd with
            hpc := before.length + n })) ∧
  (¬ fit → ∀ here, st.assemble here = none)

/-- The other bits of a word that decodes to the same filter: `i` and `i'` are one filter and agree
in BPPM1 if its MODE is 2 and in SHAMT if it is a shift (30_encoding.md R53, R54). -/
def SameButIgnored (i i' : Instr) : Prop :=
  ∃ b b' n n',
    (∃ mk ∈ ([.add, .mean, .sub, .absDiff, .mult, .multUnbound, .multInv, .multDivby2, .multDivby4,
        .bitAnd, .bitOr, .div, .bitNegation, .addByte, .addByteToHalf, .subByte, .multByByte,
        .binarizeUsingThreshold, .clipToRange, .normalizeLinear] :
        List (BitVec 4 → BitVec 6 → Instr)), i = mk b n ∧ i' = mk b' n') ∨
    (∃ mk ∈ ([.shiftRight, .shiftRightAndMultByByte, .shiftLeft, .shiftLeftByte] :
        List (BitVec 4 → BitVec 6 → Instr)), n = n' ∧ i = mk b n ∧ i' = mk b' n') ∨
    (∃ mk ∈ ([.addUint, .subUint] : List (BitVec 4 → BitVec 6 → Instr)),
        b = b' ∧ i = mk b n ∧ i' = mk b' n')

end Sys2Proof.Claims

open Sys2Proof Sys2Proof.Machine Sys2Proof.Claims

/-! ## Encoding -/

/-- For every well-formed instruction of every row, with every operand at every value its field
admits, decoding its command word gives it back (30_encoding.md R50, R52, R59, R60, R62). -/
def Obligations.DecodeInvertsEncode : Prop :=
  ∀ i : Instr, i.wellFormed = true → decode (encode i) = i

/-- Decoding is total: every 32-bit word decodes to a well-formed instruction, and encoding that
instruction gives the word back, so no bit of a word is dropped (30_encoding.md R61, R62). -/
def Obligations.EncodeInvertsDecode : Prop :=
  ∀ w : Word, (decode w).wellFormed = true ∧ encode (decode w) = w

/-- A word with a bit of RES0 (7:6), RES1 (15:12) or RES2 (31:22) set is illegal; otherwise MODE 3 is
the neighborhood family, FUNC 12 to 15 of MODE 0 and of MODE 1 and FUNC 4 to 15 of MODE 2 are
illegal, and every other word is a filter of its MODE's family (30_encoding.md R59, R60, R62). -/
def Obligations.DecodeSortsEveryWord : Prop :=
  ∀ w : Word, family (decode w) =
    if w.toNat / 2 ^ 6 % 2 ^ 2 ≠ 0 ∨ w.toNat / 2 ^ 12 % 2 ^ 4 ≠ 0 ∨ w.toNat / 2 ^ 22 ≠ 0
    then .illegal
    else if w.toNat / 2 ^ 4 % 2 ^ 2 = 3 then .neighborhood
    else if w.toNat / 2 ^ 4 % 2 ^ 2 = 0 then if w.toNat % 2 ^ 4 < 12 then .dual else .illegal
    else if w.toNat / 2 ^ 4 % 2 ^ 2 = 1 then if w.toNat % 2 ^ 4 < 12 then .scalar else .illegal
    else if w.toNat % 2 ^ 4 < 4 then .unit else .illegal

/-- Words written out bit by bit from 30_encoding.md R50 and R52 decode to the instructions they stand
for, one of each family at least. -/
def Obligations.SampleWordsDecode : Prop :=
  decode 0b00000000000000000000000000001011 = .div 0 0 ∧
  decode 0b00000000000000110000000000010111 = .shiftLeft 0 3 ∧
  decode 0b00000000000010000000001100100011 = .shiftRightUint 3 8 ∧
  decode 0b00000000001000000000111100100010 = .shiftLeftUint 15 32 ∧
  decode 0b00000000000000000000010100010001 = .addByte 5 0 ∧
  decode 0b00000000000000000000000000001100 = .reservedMode0 0 0 0 ∧
  decode 0b00000000000000000000111100111111 = .neighborhood 15 15 0 ∧
  decode 0b00000000000000000000000011111111 = .reservedBits 0xFF

/-! ## MODE 0 (40_dual_source.md) -/

/-- `Add` (40_dual_source.md R71): its command word, its failure on a null buffer, where it runs, and
the byte each element writes, with all else unchanged. -/
def Obligations.AddSaturates : Prop :=
  DualRule .add 0x00 fun _ a b => min 255 (a + b)

/-- `Mean` (40_dual_source.md R72): its command word, its failure on a null buffer, where it runs, and
the byte each element writes, with all else unchanged. -/
def Obligations.MeanRoundsUp : Prop :=
  DualRule .mean 0x01 fun _ a b => (a + b + 1) / 2

/-- `Sub` (40_dual_source.md R73): its command word, its failure on a null buffer, where it runs, and
the byte each element writes, with all else unchanged. -/
def Obligations.SubSaturatesAtZero : Prop :=
  DualRule .sub 0x02 fun _ a b => a - b

/-- `AbsDiff` (40_dual_source.md R74): its command word, its failure on a null buffer, where it runs, and
the byte each element writes, with all else unchanged. -/
def Obligations.AbsDiffIsTheDistance : Prop :=
  DualRule .absDiff 0x03 fun _ a b => max a b - min a b

/-- `Mult` (40_dual_source.md R75): its command word, its failure on a null buffer, where it runs, and
the byte each element writes, with all else unchanged. -/
def Obligations.MultIsTheNormalizedProduct : Prop :=
  DualRule .mult 0x04 fun p a b => a * (if p.multSameSource then a else b) / 255

/-- `MultUnbound` (40_dual_source.md R76): its command word, its failure on a null buffer, where it runs, and
the byte each element writes, with all else unchanged. -/
def Obligations.MultUnboundWraps : Prop :=
  DualRule .multUnbound 0x05 fun _ a b => a * b % 256

/-- `MultInv` (40_dual_source.md R77): its command word, its failure on a null buffer, where it runs, and
the byte each element writes, with all else unchanged. -/
def Obligations.MultInvScreens : Prop :=
  DualRule .multInv 0x06 fun _ a b => (65025 - (255 - a) * (255 - b)) / 255

/-- `MultDivby2` and `MultDivby4` (40_dual_source.md R78, R79): each one's command word, its failure on a
null buffer, where it runs, and the byte each element writes, with all else unchanged. -/
def Obligations.MultDivby2And4ScaleTheProduct : Prop :=
  DualRule .multDivby2 0x07 (fun _ a b => min 255 (a * b / 510)) ∧
  DualRule .multDivby4 0x08 (fun _ a b => min 255 (a * b / 1020))

/-- `BitAnd` and `BitOr` (40_dual_source.md R80, R81): each one's command word, its failure on a null
buffer, where it runs, and the byte each element writes, with all else unchanged. -/
def Obligations.BitAndAndBitOrOfBytes : Prop :=
  DualRule .bitAnd 0x09 (fun _ a b => a &&& b) ∧ DualRule .bitOr 0x0A (fun _ a b => a ||| b)

/-- `Div` (40_dual_source.md R82): its command word, its failure on a null buffer, where it runs, and
the byte each element writes, with all else unchanged. -/
def Obligations.DivByZeroGivesZero : Prop :=
  DualRule .div 0x0B fun _ a b => if b = 0 then 0 else if b ≤ a then 255 else 255 * a / b

/-! ## MODE 1 (41_scalar.md) -/

/-- `BitNegation` (41_scalar.md R91): its command word, its failures, the LUT it runs with, and the byte each
element writes, with all else unchanged. -/
def Obligations.BitNegationComplements : Prop :=
  ScalarRule .bitNegation 0x10 never never fun _ _ s => 255 - s

/-- `AddByte` (41_scalar.md R92): its command word, its failures, the LUT it runs with, and the byte each
element writes, with all else unchanged. -/
def Obligations.AddByteSaturates : Prop :=
  ScalarRule .addByte 0x11 never never fun _ r s => min 255 (s + param r 0)

/-- `AddByteToHalf` (41_scalar.md R93): its command word, its failures, the LUT it runs with, and the byte each
element writes, with all else unchanged. -/
def Obligations.AddByteToHalfHalvesFirst : Prop :=
  ScalarRule .addByteToHalf 0x12 never never fun _ r s => min 255 (s / 2 + param r 0)

/-- `SubByte` (41_scalar.md R94): its command word, its failures, the LUT it runs with, and the byte each
element writes, with all else unchanged. -/
def Obligations.SubByteSaturatesAtZero : Prop :=
  ScalarRule .subByte 0x13 never never fun _ r s => s - param r 0

/-- `MultByByte` (41_scalar.md R95): its command word, its failures, the LUT it runs with, and the byte each
element writes, with all else unchanged. -/
def Obligations.MultByByteWithIdentity : Prop :=
  ScalarRule .multByByte 0x14 never never fun _ r s => mbb (param r 0) s

/-- `ShiftRight` (41_scalar.md R96): its command word, its failures, the LUT it runs with, and the byte each
element writes, with all else unchanged. -/
def Obligations.ShiftRightIsLogical : Prop :=
  ScalarRule .shiftRight 0x15 (fun n => 8 < n.toNat) never fun n _ s => s / 2 ^ n.toNat

/-- `ShiftRightAndMultByByte` (41_scalar.md R97): its command word, its failures, the LUT it runs with, and the byte each
element writes, with all else unchanged. -/
def Obligations.ShiftRightThenMultiply : Prop :=
  ScalarRule .shiftRightAndMultByByte 0x16 (fun n => 8 < n.toNat) never
    fun n r s => mbb (param r 0) (s / 2 ^ n.toNat)

/-- `ShiftLeft` (41_scalar.md R98): its command word, its failures, the LUT it runs with, and the byte each
element writes, with all else unchanged. -/
def Obligations.ShiftLeftSaturates : Prop :=
  ScalarRule .shiftLeft 0x17 (fun n => 8 < n.toNat) never fun n _ s => min 255 (s * 2 ^ n.toNat)

/-- `ShiftLeftByte` (41_scalar.md R99): its command word, its failures, the LUT it runs with, and the byte each
element writes, with all else unchanged. -/
def Obligations.ShiftLeftByteWraps : Prop :=
  ScalarRule .shiftLeftByte 0x18 (fun n => 8 < n.toNat) never fun n _ s => s * 2 ^ n.toNat % 256

/-- `BinarizeUsingThreshold` (41_scalar.md R100): its command word, its failures, the LUT it runs with, and the byte each
element writes, with all else unchanged. -/
def Obligations.BinarizeIsInclusive : Prop :=
  ScalarRule .binarizeUsingThreshold 0x19 never never fun _ r s => if param r 0 ≤ s then 255 else 0

/-- `ClipToRange` (41_scalar.md R101): its command word, its failures, the LUT it runs with, and the byte each
element writes, with all else unchanged. -/
def Obligations.ClipToRangeTestsLowerFirst : Prop :=
  ScalarRule .clipToRange 0x1A never never fun _ r s =>
    if s < param r 0 then param r 0 else if param r 1 < s then param r 1 else s

/-- `NormalizeLinear` (41_scalar.md R102): its command word, its failures, the LUT it runs with, and the byte each
element writes, with all else unchanged. -/
def Obligations.NormalizeLinearIsTheFlooredRemap : Prop :=
  ScalarRule .normalizeLinear 0x1B never (fun r => param r 1 = param r 0) fun _ r s =>
    normalized (param r 0) (param r 1) (param r 2) (param r 3) s

/-! ## MODE 2 (42_unit.md) -/

/-- `AddUint` (42_unit.md R113): its command word, its failures, its copy shortcut, where it runs, and the
unit each element writes, with all else unchanged. -/
def Obligations.AddUintSaturatesEachByte : Prop :=
  UnitRule .addUint 0x20 never
    (fun b _ r => ∀ j < b.toNat + 1, constantByte r (b.toNat + 1) j = 0) True
    fun w _ r u j => min 255 (u j + constantByte r w j)

/-- `SubUint` (42_unit.md R114): its command word, its failures, its copy shortcut, where it runs, and the
unit each element writes, with all else unchanged. -/
def Obligations.SubUintSaturatesEachByte : Prop :=
  UnitRule .subUint 0x21 never
    (fun b _ r => ∀ j < b.toNat + 1, constantByte r (b.toNat + 1) j = 0) True
    fun w _ r u j => u j - constantByte r w j

/-- `ShiftLeftUint` (42_unit.md R115): its command word, its failures, its copy shortcut, where it runs, and the
unit each element writes, with all else unchanged. -/
def Obligations.ShiftLeftUintShiftsTheUnit : Prop :=
  UnitRule .shiftLeftUint 0x22 (fun n => 32 < n.toNat)
    (fun _ n _ => n.toNat = 0) False
    fun w n _ u j =>
    unitValue w u * 2 ^ n.toNat % 2 ^ (8 * w) / 2 ^ (8 * (w - 1 - j)) % 256

/-- `ShiftRightUint` (42_unit.md R116): its command word, its failures, its copy shortcut, where it runs, and the
unit each element writes, with all else unchanged. -/
def Obligations.ShiftRightUintShiftsTheUnit : Prop :=
  UnitRule .shiftRightUint 0x23 (fun n => 32 < n.toNat)
    (fun _ n _ => n.toNat = 0) False
    fun w n _ u j =>
    unitValue w u / 2 ^ n.toNat / 2 ^ (8 * (w - 1 - j)) % 256

/-! ## Failures and validation (60_exceptions.md) -/

/-- In the validate step a reserved FUNC and a word with a reserved bit set fail with ILLEGAL_CMD, and a
MODE 3 word with NOT_IMPLEMENTED, whatever LEN and the address registers hold, and nothing but
STATUS and the phase changes (60_exceptions.md R123, R124). -/
def Obligations.ReservedCommandsFail : Prop :=
  ∀ s : State, s.phase = .validate →
    (∀ f b n, exec (.reservedMode0 f b n) s = .next (s.fail .illegalCmd) ∧
      exec (.reservedMode1 f b n) s = .next (s.fail .illegalCmd) ∧
      exec (.reservedMode2Low f b n) s = .next (s.fail .illegalCmd)) ∧
    (∀ f b n, exec (.reservedMode2High f b n) s = .next (s.fail .illegalCmd)) ∧
    (∀ w, exec (.reservedBits w) s = .next (s.fail .illegalCmd)) ∧
    (∀ f b n, exec (.neighborhood f b n) s = .next (s.fail .notImplemented)) ∧
    (∀ i t, exec i s = .next t → t.status.ecode = .illegalCmd →
      s.status.ecode ≠ .illegalCmd → family i = .illegal)

/-- `Validate(sh)` (60_exceptions.md R122): decoding first, then MODE 3, then the null buffers, then
`LEN == 0`, then the shift ranges, then the degenerate `NormalizeLinear`, then MODE 2's copy shortcut
and short buffer, and otherwise the OP plan. The first test that applies decides. -/
def Obligations.ValidationOrder : Prop :=
  ∀ (i : Instr) (s : State), s.phase = .validate →
    let byteShift := ∃ b n, 8 < n.toNat ∧ i ∈ ([.shiftRight b n, .shiftRightAndMultByByte b n,
      .shiftLeft b n, .shiftLeftByte b n] : List Instr)
    let unitShift := ∃ b n, 32 < n.toNat ∧ i ∈ ([.shiftLeftUint b n, .shiftRightUint b n] : List Instr)
    let noMap := (∃ b n, i = .normalizeLinear b n) ∧ param s.sh 1 = param s.sh 0
    let copies := (∃ b n, i ∈ ([.addUint b n, .subUint b n] : List Instr) ∧
        ∀ j < b.toNat + 1, constantByte s.sh (b.toNat + 1) j = 0) ∨
      (∃ b, i ∈ ([.shiftLeftUint b 0, .shiftRightUint b 0] : List Instr))
    let null := s.sh.src1 = 0 ∨ s.sh.dst = 0 ∨ (family i = .dual ∧ s.sh.src2 = 0)
    (family i = .illegal → exec i s = .next (s.fail .illegalCmd)) ∧
    (family i = .neighborhood → exec i s = .next (s.fail .notImplemented)) ∧
    (isFilter i = true → null → exec i s = .next (s.fail .invalidArg)) ∧
    (isFilter i = true → ¬ null → s.sh.len = 0 → exec i s = .next (s.succeed true)) ∧
    (isFilter i = true → ¬ null → s.sh.len ≠ 0 → byteShift ∨ unitShift →
      exec i s = .next (s.fail .outOfRange)) ∧
    (isFilter i = true → ¬ null → s.sh.len ≠ 0 → noMap → exec i s = .next (s.succeed true)) ∧
    (family i = .unit → ¬ null → s.sh.len ≠ 0 → ¬ unitShift → copies →
      ∃ t, exec i s = .next t ∧ StartsRun s t .copy s.sh.len.toNat) ∧
    (family i = .unit → ¬ null → s.sh.len ≠ 0 → ¬ unitShift → ¬ copies →
      s.sh.len.toNat < unitBytes i → exec i s = .next (s.succeed true)) ∧
    (family i = .unit → ¬ null → s.sh.len ≠ 0 → ¬ unitShift → ¬ copies →
      unitBytes i ≤ s.sh.len.toNat →
      ∃ t, exec i s = .next t ∧ StartsRun s t .op (s.sh.len.toNat / unitBytes i)) ∧
    (family i = .dual ∨ family i = .scalar → ¬ null → s.sh.len ≠ 0 → ¬ byteShift → ¬ noMap →
      ∃ t, exec i s = .next t ∧ StartsRun s t .op s.sh.len.toNat)

/-- The copy shortcuts of MODE 1 (60_exceptions.md R130): at these parameter values the validate step
fills the LUT with the identity and the plan stays OP. -/
def Obligations.CopyShortcutsCopy : Prop :=
  ∀ (b : BitVec 4) (n : BitVec 6) (s : State), s.phase = .validate → s.sh.src1 ≠ 0 → s.sh.dst ≠ 0 →
    s.sh.len ≠ 0 →
    let identity (i : Instr) : Prop := ∃ t, exec i s = .next t ∧
      StartsRun s t .op s.sh.len.toNat ∧ ∀ v, t.lutAt v = v
    (param s.sh 0 = 0 → identity (.addByte b n) ∧ identity (.subByte b n)) ∧
    (param s.sh 0 = 1 → identity (.multByByte b n) ∧ identity (.shiftRightAndMultByByte b 0)) ∧
    identity (.shiftRight b 0) ∧ identity (.shiftLeft b 0) ∧ identity (.shiftLeftByte b 0)

/-- `fail(code)` and `succeed(noop)` (60_exceptions.md R121, R131): for each of the six outcomes STATUS reads
DONE, FAIL, NOOP and ECODE as the rules say and BUSY 0, with DROP as it stood; and nothing but STATUS
and the phase changes: every register, CTRL, the shadow registers, the engine's other state, memory
and the host are unchanged. -/
def Obligations.CompletionReportsTheOutcome : Prop :=
  ∀ s : State,
    (∀ code, s.fail code = { s with status := (s.fail code).status, phase := .idle }) ∧
    (∀ noop, s.succeed noop = { s with status := (s.succeed noop).status, phase := .idle }) ∧
    let drop : Word := if s.status.drop then 0x100 else 0
    statusWord (s.fail .invalidArg) = 0x16 + drop ∧
    statusWord (s.fail .outOfRange) = 0x26 + drop ∧
    statusWord (s.fail .notImplemented) = 0x36 + drop ∧
    statusWord (s.fail .illegalCmd) = 0x46 + drop ∧
    statusWord (s.succeed true) = 0x0A + drop ∧ statusWord (s.succeed false) = 0x02 + drop

/-! ## Frames -/

/-- Where `exec` answers a next state, for any command in any state: no register, no shadow register, no
CTRL bit, DROP, no parameter and nothing of the host changes, and memory changes only in RUN and only
in the destination bytes of the element (20_memory.md R41; 60_exceptions.md R129). -/
def Obligations.ExecFrame : Prop :=
  ∀ (i : Instr) (s t : State), exec i s = .next t →
    t.reg = s.reg ∧ t.sh = s.sh ∧ t.irqEn = s.irqEn ∧ t.status.drop = s.status.drop ∧
    t.params = s.params ∧ t.inputs = s.inputs ∧ t.prog = s.prog ∧ t.hpc = s.hpc ∧ t.t = s.t ∧
    t.raced = s.raced ∧ t.pre = s.pre ∧
    ∀ a, ¬ (s.phase = .run ∧
        inElement s (s.k * elementWidth i s.plan) (elementWidth i s.plan) a) →
      t.mem.read a = s.mem.read a

/-- From a state that meets the invariant, an engine step of the command in progress writes only bytes
`DST + i` with `i < LEN`, and under MODE 2's OP plan only bytes of whole units; outside RUN it writes
nothing (20_memory.md R41; 42_unit.md R110). -/
def Obligations.WritesStayInTheDestination : Prop :=
  ∀ s t : State, Inv s → exec s.current s = .next t →
    (∀ a, ¬ inBuffer s.sh.dst s.sh.len.toNat a → t.mem.read a = s.mem.read a) ∧
    (family s.current = .unit → s.plan = .op → ∀ j,
      s.sh.len.toNat / unitBytes s.current * unitBytes s.current ≤ j → j < s.sh.len.toNat →
      t.mem.read (bufAddr s.sh.dst j) = s.mem.read (bufAddr s.sh.dst j)) ∧
    (s.phase ≠ .run → t.mem = s.mem)

/-- Whatever bytes an element reads and whether or not the host has raced, a filter in RUN answers a next
state with all of the element's other effects: only its own destination bytes may change, `k` goes up
and the last element completes the command (20_memory.md R40, R43). -/
def Obligations.ElementRunsWhateverItReads : Prop :=
  ∀ (i : Instr) (s : State), isFilter i = true → s.phase = .run →
    ∃ t, exec i s = .next t ∧ ElementLeaves s t ∧
      OnlyElement s t (s.k * elementWidth i s.plan) (elementWidth i s.plan)

/-- Two command words that differ only in fields the filter ignores take the same step, and so do two
states whose shadow registers differ only in fields the filter ignores (30_encoding.md R58). -/
def Obligations.IgnoredFieldsHaveNoEffect : Prop :=
  (∀ (i i' : Instr) (s : State), SameButIgnored i i' → exec i s = exec i' s) ∧
  (∀ (i : Instr) (s : State) (r : Operands), AgreeOnUsed i s.sh r →
    exec i (shadowed r s) = withShadow r (exec i s))

/-! ## The register window (10_state.md) -/

/-- A host write of `v` to CMD (10_state.md R27): in IDLE the word and every operand are latched, DONE,
FAIL, NOOP and ECODE are cleared and the engine goes to VALIDATE; otherwise DROP is set and nothing
else changes. A write to any other register changes only that register, at any phase. -/
def Obligations.CmdWriteIsAcceptedOrDropped : Prop :=
  ∀ (s : State) (v : Word),
    (s.phase = .idle → ∃ t, hostMove (.writeReg 0x00 .word v) s = .next t ∧
      t.reg = { s.reg with cmd := v } ∧ t.sh = { s.reg with cmd := v } ∧ t.phase = .validate ∧
      t.status = { done := false, fail := false, noop := false, ecode := .none,
                   drop := s.status.drop } ∧
      t.mem = s.mem ∧ t.irqEn = s.irqEn ∧ t.plan = s.plan ∧ t.count = s.count ∧ t.k = s.k ∧
      t.lut = s.lut ∧ t.cb = s.cb ∧ t.params = s.params ∧ t.inputs = s.inputs ∧
      t.prog = s.prog ∧ t.hpc = s.hpc ∧ t.t = s.t ∧ t.draws = s.draws) ∧
    (s.phase ≠ .idle → hostMove (.writeReg 0x00 .word v) s =
      .next { s with status := { s.status with drop := true } }) ∧
    (∀ off x : BitVec 6, off.toNat % 4 = 0 → off ≠ 0x00 → x.toNat % 4 = 0 → x ≠ off →
      ∃ t, hostMove (.writeReg off .word v) s = .next t ∧ readRegister t x = readRegister s x ∧
        t.sh = s.sh ∧ t.phase = s.phase ∧ t.mem = s.mem)

/-- A host write to SRC1, SRC2, DST, LEN, PARAM, UCONST0 to UCONST3 or CTRL in any phase: the register
reads back its new value at once, a CTRL write takes effect on IRQ at once, no other register changes,
and the engine and memory are unchanged; the next command accepted latches what the registers hold (70_reset_and_hazards.md R156). -/
def Obligations.OperandWritesTakeEffectAtOnce : Prop :=
  ∀ (s : State) (v : Word),
    (∀ off ∈ ([0x0C, 0x10, 0x14, 0x18, 0x1C, 0x20, 0x24, 0x28, 0x2C] : List (BitVec 6)),
      ∃ r, hostMove (.writeReg off .word v) s = .next { s with reg := r } ∧ r.cmd = s.reg.cmd ∧
        ∀ x : BitVec 6, x.toNat % 4 = 0 →
          readRegister { s with reg := r } x = if x = off then v else readRegister s x) ∧
    (∀ r w, (State.accept { s with reg := r } w).sh = { r with cmd := w }) ∧
    (∃ t, hostMove (.writeReg 0x08 .word v) s = .next t ∧ t = { s with irqEn := t.irqEn } ∧
      ctrlWord t = v &&& 1 ∧ t.irq = (v.getLsbD 0 && s.status.done))

/-- STATUS (10_state.md R13): each field reads at its bits, the reserved bits read as zero, a read changes
nothing but the host's `t`, and a write affects only DONE and DROP, and only where the written bit is
1. -/
def Obligations.StatusReadsItsFieldsAndClearsByOne : Prop :=
  ∀ (s : State),
    (hostMove (.readReg 0x04 .word) s = .next { s with t := statusWord s } ∧
      (statusWord s).getLsbD 0 = (s.phase != .idle) ∧ (statusWord s).getLsbD 1 = s.status.done ∧
      (statusWord s).getLsbD 2 = s.status.fail ∧ (statusWord s).getLsbD 3 = s.status.noop ∧
      (statusWord s).extractLsb' 4 4 = s.status.ecode.code ∧
      (statusWord s).getLsbD 8 = s.status.drop ∧ (statusWord s).extractLsb' 9 23 = 0) ∧
    ∀ v : Word, hostMove (.writeReg 0x04 .word v) s = .next { s with status :=
      { s.status with
        done := if v.getLsbD 1 then false else s.status.done
        drop := if v.getLsbD 8 then false else s.status.drop } }

/-- Offsets 0x30 to 0x3C read as zero and ignore writes, CTRL's reserved bits read as zero and CMD reads
back all 32 bits (10_state.md R12, R19); an access narrower than 32 bits or misaligned has no meaning
(20_memory.md R36). -/
def Obligations.RegisterWindowEdges : Prop :=
  ∀ (s : State) (v : Word),
    (∀ off ∈ ([0x30, 0x34, 0x38, 0x3C] : List (BitVec 6)),
      hostMove (.writeReg off .word v) s = .next s ∧
      hostMove (.readReg off .word) s = .next { s with t := 0 }) ∧
    (ctrlWord s).extractLsb' 1 31 = 0 ∧ readRegister s 0x00 = s.reg.cmd ∧
    (∀ off width, (width ≠ .word ∨ off.toNat % 4 ≠ 0) →
      hostMove (.writeReg off width v) s = .refused .subwordAccess ∧
      hostMove (.readReg off width) s = .refused .subwordAccess)

/-- The interrupt (60_exceptions.md R133): completion raises IRQ exactly where IRQ_EN is 1; enabling it
while DONE is 1 raises it at once; writing 1 to DONE, accepting a command and reset lower it; a
dropped CMD write does not raise it. -/
def Obligations.InterruptFollowsDoneAndEnable : Prop :=
  ∀ s : State,
    (∀ i t, s.phase ≠ .idle → exec i s = .next t → t.phase = .idle → t.irq = s.irqEn) ∧
    (∀ t, hostMove (.writeReg 0x08 .word 1) s = .next t → t.irq = s.status.done) ∧
    (∀ t, hostMove (.writeReg 0x04 .word 2) s = .next t → t.irq = false) ∧
    (∀ v t, s.phase = .idle → hostMove (.writeReg 0x00 .word v) s = .next t → t.irq = false) ∧
    (∀ v t, s.phase ≠ .idle → hostMove (.writeReg 0x00 .word v) s = .next t → t.irq = s.irq) ∧
    (∀ t, hostMove .reset s = .next t → t.irq = false)

/-! ## The host and data memory -/

/-- Host accesses to data memory (20_memory.md R31, R43). Outside the destination of a command in progress a
read returns the byte; inside, either the byte in `pre` or the one the command's remaining steps write
there, which is how the model reads R43's value before and value after (log 5, DEDUCED). A write
stores the byte, and nothing but memory changes; during a command, a write into one of its buffers also
makes every byte of the destination range a free value, and marks the command raced, which is how the
model reads R43's unspecified bytes (log 4, DEDUCED). `pre` is memory as it stood when the command was
accepted, unraced, and stays so through every host move while the command is in progress, as through
the engine's steps (ExecFrame). -/
def Obligations.HostByteAccesses : Prop :=
  (∀ (s : State) (a : Addr) (v : Byte), s.inWindow a = false →
    (∃ w, ∃ d, hostMove (.readByte a) s = .next { s with t := w.setWidth 32, draws := d } ∧
      (s.inDestination a = false → w = s.mem.read a ∧ d = s.draws) ∧
      (s.inDestination a = true → w = s.pre.read a ∨
        w = (runAhead (s.sh.len.toNat + 1) { s with draws := s.draws + 1 }).mem.read a)) ∧
    (∃ t, hostMove (.writeByte a v) s = .next t ∧
      t = { s with mem := t.mem, draws := t.draws, raced := s.raced || s.inBuffers a } ∧
      (∀ x, (s.inBuffers a = true → inBuffer s.sh.dst s.sh.len.toNat x = false) →
        t.mem.read x = if x = a then v else s.mem.read x) ∧
      (s.inBuffers a = false → t.draws = s.draws) ∧
      (s.inBuffers a = true → ∀ i < s.sh.len.toNat,
        t.mem.read (bufAddr s.sh.dst i) = Config.freeByte (s.draws + i)))) ∧
  (∀ (s : State) (w : Word), s.phase = .idle →
    ∃ t, hostMove (.writeReg 0x00 .word w) s = .next t ∧ t.pre = s.mem ∧ t.raced = false) ∧
  (∀ (s t : State) (m : HostMove), s.phase ≠ .idle → hostMove m s = .next t → t.phase ≠ .idle →
    t.pre = s.pre)

/-- Element addresses (20_memory.md R32): byte `i` of the buffer at `base` is at `(base + i) mod 2^32`, and
the null test applies only to the start addresses, so a buffer may wrap through address 0. -/
def Obligations.BufferAddressesWrap : Prop :=
  (∀ (base : Addr) (i : Nat), (bufAddr base i).toNat = (base.toNat + i) % 2 ^ 32) ∧
  ∀ (i : Instr) (r : Operands), nullBuffer i r = true ↔
    r.src1 = 0 ∨ r.dst = 0 ∨ (family i = .dual ∧ r.src2 = 0)

/-- A unit is the big-endian integer of its bytes, the byte at the lowest address the most significant,
and unpacking inverts packing (20_memory.md R35). -/
def Obligations.UnitsAreBigEndian : Prop :=
  (∀ u : List Byte, ofUnit u = unitValue u.length fun j => (u.getD j 0).toNat) ∧
  (∀ u : List Byte, toUnit (ofUnit u) u.length = u) ∧
  (∀ v w : Nat, ofUnit (toUnit v w) = v % 2 ^ (8 * w))

/-- The integer forms the model computes are the floors of the source's unit-interval formulas in exact
rational arithmetic (00_scope.md R6; 40_dual_source.md R75, R77 to R79, R82). -/
def Obligations.IntegerFormsEqualTheExactFormulas : Prop :=
  ∀ a b : Byte, let x : ℚ := a.toNat / 255; let y : ℚ := b.toNat / 255;
    ((multBytes a b).toNat : ℤ) = ⌊x * y * 255⌋ ∧
    ((multInvBytes a b).toNat : ℤ) = ⌊(1 - (1 - x) * (1 - y)) * 255⌋ ∧
    ((multDivby2Bytes a b).toNat : ℤ) = ⌊min 1 (x * y / 2) * 255⌋ ∧
    ((multDivby4Bytes a b).toNat : ℤ) = ⌊min 1 (x * y / 4) * 255⌋ ∧
    (b ≠ 0 → ((divBytes a b).toNat : ℤ) = ⌊min 1 (x / y) * 255⌋)

/-! ## The machine's step -/

/-- On the engine's turn, a step is `exec` of the instruction the shadow CMD decodes to, with the turn
taken off `inputs` and nothing else around it (10_state.md R29; 70_reset_and_hazards.md R161). The
other clauses are the model's DESIGN CHOICES, no rule of the spec: with no turn waiting it is the
engine's while a command is in progress (log 7); a placed word is run by the very next step (log 8);
and a halted machine stays as it is (log 9). -/
def Obligations.StepRunsTheDecodedInstruction : Prop :=
  ∀ s : State,
    (∀ rest, s.inputs = .engine :: rest → s.windowConflict = false →
      step s = exec (decode s.sh.cmd) { s with inputs := rest }) ∧
    (s.inputs = [] → s.phase ≠ .idle → s.windowConflict = false →
      step s = exec (decode s.sh.cmd) s) ∧
    (∀ w, s.params.window = none →
      step (s.withFetchWord 32 w) =
        exec (decode (BitVec.ofNat 32 w)) (s.accept (BitVec.ofNat 32 w))) ∧
    (Halted s → step s = .next s)

/-- The reset input (70_reset_and_hazards.md R150, R151): every register and STATUS field holds 0, the
phase is IDLE and IRQ is low; data memory is unchanged but for the destination range of a command in
progress. That reset is one move (log 6) and that it keeps `inputs`, `prog`, `hpc` and the parameters
(logs 6, 8) are the model's DESIGN CHOICES, no rule of the spec. -/
def Obligations.ResetAbandonsTheCommand : Prop :=
  ∀ s : State, ∃ t, hostMove .reset s = .next t ∧ t.reg = ⟨0, 0, 0, 0, 0, 0, 0, 0, 0, 0⟩ ∧
    t.status = ⟨false, false, false, .none, false⟩ ∧ t.irqEn = false ∧ t.phase = .idle ∧
    t.irq = false ∧ t.params = s.params ∧ t.inputs = s.inputs ∧ t.prog = s.prog ∧ t.hpc = s.hpc ∧
    (s.phase = .idle → t.mem = s.mem) ∧
    ∀ a, inBuffer s.sh.dst s.sh.len.toNat a = false → t.mem.read a = s.mem.read a

/-- The state after reset holds what 70_reset_and_hazards.md R150 states: every register reads 0, the
phase is IDLE and IRQ is low. -/
def Obligations.ResetStateHoldsTheSpecValues : Prop :=
  (∀ off : BitVec 6, readRegister State.reset off = 0) ∧ State.reset.phase = .idle ∧
    State.reset.irq = false

/-- The state after reset meets the machine's invariant. -/
def Obligations.ResetMeetsTheInvariant : Prop :=
  Inv State.reset

/-- From every state that meets the invariant, whatever turn is next, a step that answers a next state
answers one that meets it: memory stays canonical, STATUS never mixes two commands, and in RUN the
engine executes exactly what validation decided, with its tables filled (10_state.md R22 to R25, R29;
60_exceptions.md R131; 70_reset_and_hazards.md R159). -/
def Obligations.StepKeepsTheInvariant : Prop :=
  ∀ s t : State, Inv s → step s = .next t → Inv t

/-- The SBFU raises no fault: a step from a state that meets the invariant is never a fault, and a step on
the engine's turn stops at all only over a register window conflict (60_exceptions.md R120;
70_reset_and_hazards.md R161). -/
def Obligations.InvariantStatesNeverFault : Prop :=
  ∀ s : State, Inv s → (∀ f, step s ≠ .fault f) ∧
    (s.inputs = [] → s.phase ≠ .idle → s.windowConflict = false → ∃ t, step s = .next t)

/-- MULT_SAME_SOURCE and BASE are constant along every run (00_scope.md R4). -/
def Obligations.StepKeepsTheParameters : Prop :=
  ∀ s t : State, step s = .next t → t.params = s.params

/-! ## Whole commands -/

/-- Every command left to the engine, legal or not, completes after exactly `1 + count` steps, where
`count` is 0 for a failure or a no-op success, and is in progress until then (70_reset_and_hazards.md
R161). -/
def Obligations.CommandTakesOnePlusCountSteps : Prop :=
  ∀ s : State, s.phase = .validate → s.inputs = [] → s.windowConflict = false →
    let count := match validate s.current s.sh with
      | .run _ n => n
      | .fail _ | .succeed => 0
    (∃ t : State, core.run (1 + count) s = .next t ∧ t.phase = .idle ∧ t.status.done = true) ∧
    ∀ m ≤ count, ∃ u : State, core.run m s = .next u ∧ u.phase ≠ .idle ∧ u.status.done = s.status.done

/-- A MODE 0 command with valid buffers and no partial overlap, left to the engine, succeeds after
`1 + LEN` steps with every destination byte the filter of the two source bytes as they stood before
the command, in place or not, and no other byte changed (40_dual_source.md R70; 20_memory.md R39). -/
def Obligations.DualCommandWritesEveryByte : Prop :=
  ∀ s : State, Undisturbed s → family s.current = .dual → s.sh.src1 ≠ 0 → s.sh.src2 ≠ 0 →
    s.sh.dst ≠ 0 → s.sh.len ≠ 0 → NoPartialOverlap s s.sh.len.toNat 1 →
    ∃ t : State, core.run (1 + s.sh.len.toNat) s = .next t ∧ Succeeded t ∧
      (∀ i < s.sh.len.toNat, t.mem.read (bufAddr s.sh.dst i) =
        dualMap s.params s.current (s.mem.read (bufAddr s.sh.src1 i))
          (s.mem.read (bufAddr s.sh.src2 i))) ∧
      ∀ a, inBuffer s.sh.dst s.sh.len.toNat a = false → t.mem.read a = s.mem.read a

/-- A MODE 1 command that validation lets run, with no partial overlap, left to the engine, succeeds after
`1 + LEN` steps with every destination byte the filter of the source byte as it stood before the
command: the LUT cannot be told from direct computation (41_scalar.md R90; 10_state.md R23). -/
def Obligations.ScalarCommandMapsEveryByte : Prop :=
  ∀ s : State, Undisturbed s → family s.current = .scalar →
    validate s.current s.sh = .run .op s.sh.len.toNat → NoPartialOverlap s s.sh.len.toNat 1 →
    ∃ t : State, core.run (1 + s.sh.len.toNat) s = .next t ∧ Succeeded t ∧
      (∀ i < s.sh.len.toNat, t.mem.read (bufAddr s.sh.dst i) =
        scalarMap s.current s.sh (s.mem.read (bufAddr s.sh.src1 i))) ∧
      ∀ a, inBuffer s.sh.dst s.sh.len.toNat a = false → t.mem.read a = s.mem.read a

/-- A MODE 2 command left to the engine, with no partial overlap: under the COPY plan every one of the
`LEN` bytes is copied; under the OP plan every whole unit is the filter of the source unit as it stood
before the command, and the trailing partial unit and every other byte keep their old contents
(42_unit.md R110, R112). -/
def Obligations.UnitCommandMapsEveryUnit : Prop :=
  ∀ (s : State) (p : Plan) (n : Nat), Undisturbed s → family s.current = .unit →
    validate s.current s.sh = .run p n → NoPartialOverlap s n (elementWidth s.current p) →
    ∃ t : State, core.run (1 + n) s = .next t ∧ Succeeded t ∧
      (p = .copy → ∀ i < s.sh.len.toNat,
        t.mem.read (bufAddr s.sh.dst i) = s.mem.read (bufAddr s.sh.src1 i)) ∧
      (p = .op → ∀ k < s.sh.len.toNat / unitBytes s.current,
        t.mem.readBytes s.sh.dst (k * unitBytes s.current) (unitBytes s.current) =
          unitMap s.current
            (constantBytes (cu s.sh (unitBytes s.current)) (unitBytes s.current) s.cb)
            (s.mem.readBytes s.sh.src1 (k * unitBytes s.current) (unitBytes s.current))) ∧
      ∀ a, inBuffer s.sh.dst (n * elementWidth s.current p) a = false →
        t.mem.read a = s.mem.read a

/-- Two idle machines that agree on everything but the engine's hidden state (and the model's own race
fields) run alike for any number of steps, whatever the host does (10_state.md R25;
70_reset_and_hazards.md R152). -/
def Obligations.HiddenStateIsNeverObserved : Prop :=
  ∀ (s u : State), s.phase = .idle → SameVisible s u → ∀ n,
    SameOutcome (core.run n s) (core.run n u)

/-- Every filter statement of 30_encoding.md R63, `Copy` and `Fill255`: run from IDLE as part of a host
program it takes exactly the writes of 30_encoding.md R65, SRC2 for MODE 0 only, PARAM where the filter
uses it with its unused bytes 0, UCONST0 to UCONST3 low word first for AddUint and SubUint, and CMD
last, so that the command is accepted with them latched, and leaves every other register and data
memory as they were; an immediate that does not fit its field is an assembly error. That the host's
program has the turn while no turn is waiting and no command is in progress (log 7), and `prog` and
`hpc` themselves (log 8), are the model's DESIGN CHOICES. -/
def Obligations.FilterStatementIssuesItsCommand : Prop :=
  (∀ d s1 s2 len, ∀ x ∈ ([(.add, 0x00), (.mean, 0x01), (.sub, 0x02), (.absDiff, 0x03),
      (.mult, 0x04), (.multUnbound, 0x05), (.multInv, 0x06), (.multDivby2, 0x07),
      (.multDivby4, 0x08), (.bitAnd, 0x09), (.bitOr, 0x0A), (.div, 0x0B)] :
      List ((Addr → Addr → Addr → Word → Statement) × Nat)),
    Issues True (x.1 d s1 s2 len) 5 fun r => { r with
      src1 := s1, src2 := s2, dst := d, len := len, cmd := wordOf x.2 0 0 }) ∧
  (∀ d s len, Issues True (.bitNegation d s len) 4 fun r => { r with
    src1 := s, dst := d, len := len, cmd := wordOf 0x10 0 0 }) ∧
  (∀ d s len c, ∀ x ∈ ([(.addByte, 0x11), (.addByteToHalf, 0x12), (.subByte, 0x13),
      (.multByByte, 0x14), (.binarizeUsingThreshold, 0x19)] :
      List ((Addr → Addr → Word → Nat → Statement) × Nat)),
    Issues (c < 2 ^ 8) (x.1 d s len c) 5 fun r => { r with
      src1 := s, dst := d, len := len, param := BitVec.ofNat 32 c, cmd := wordOf x.2 0 0 }) ∧
  (∀ d s len n, ∀ x ∈ ([(.shiftRight, 0x15), (.shiftLeft, 0x17), (.shiftLeftByte, 0x18)] :
      List ((Addr → Addr → Word → Nat → Statement) × Nat)),
    Issues (n < 2 ^ 6) (x.1 d s len n) 4 fun r => { r with
      src1 := s, dst := d, len := len, cmd := wordOf x.2 0 (BitVec.ofNat 6 n) }) ∧
  (∀ d s len n c, Issues (n < 2 ^ 6 ∧ c < 2 ^ 8) (.shiftRightAndMultByByte d s len n c) 5
    fun r => { r with src1 := s, dst := d, len := len, param := BitVec.ofNat 32 c,
                      cmd := wordOf 0x16 0 (BitVec.ofNat 6 n) }) ∧
  (∀ d s len a b, Issues (a < 2 ^ 8 ∧ b < 2 ^ 8) (.clipToRange d s len a b) 5 fun r => { r with
    src1 := s, dst := d, len := len, param := BitVec.ofNat 32 (a + b * 2 ^ 8),
    cmd := wordOf 0x1A 0 0 }) ∧
  (∀ d s len a b u v, Issues (a < 2 ^ 8 ∧ b < 2 ^ 8 ∧ u < 2 ^ 8 ∧ v < 2 ^ 8)
    (.normalizeLinear d s len a b u v) 5 fun r => { r with
      src1 := s, dst := d, len := len,
      param := BitVec.ofNat 32 (a + b * 2 ^ 8 + u * 2 ^ 16 + v * 2 ^ 24),
      cmd := wordOf 0x1B 0 0 }) ∧
  (∀ w d s len c, ∀ x ∈ ([(.addUint, 0x20), (.subUint, 0x21)] :
      List ((Nat → Addr → Addr → Word → Nat → Statement) × Nat)),
    Issues (1 ≤ w ∧ w ≤ 16 ∧ c < 2 ^ 128) (x.1 w d s len c) 8 fun r => { r with
      src1 := s, dst := d, len := len, uconst0 := BitVec.ofNat 32 c,
      uconst1 := BitVec.ofNat 32 (c / 2 ^ 32), uconst2 := BitVec.ofNat 32 (c / 2 ^ 64),
      uconst3 := BitVec.ofNat 32 (c / 2 ^ 96), cmd := wordOf x.2 (BitVec.ofNat 4 (w - 1)) 0 }) ∧
  (∀ w d s len n, ∀ x ∈ ([(.shiftLeftUint, 0x22), (.shiftRightUint, 0x23)] :
      List ((Nat → Addr → Addr → Word → Nat → Statement) × Nat)),
    Issues (1 ≤ w ∧ w ≤ 16 ∧ n < 2 ^ 6) (x.1 w d s len n) 4 fun r => { r with
      src1 := s, dst := d, len := len,
      cmd := wordOf x.2 (BitVec.ofNat 4 (w - 1)) (BitVec.ofNat 6 n) }) ∧
  (∀ d s len, Issues True (.copy d s len) 5 fun r => { r with
    src1 := s, dst := d, len := len, param := 0, cmd := wordOf 0x11 0 0 }) ∧
  (∀ d s len, Issues True (.fill255 d s len) 5 fun r => { r with
    src1 := s, dst := d, len := len, param := 0, cmd := wordOf 0x19 0 0 })
end

