-- ==== Sys2Proof/Laws/Memory.lean ====
section
/-! SUPPORT. Data memory: a read after a write, and the canonical form that every write keeps. -/

namespace Sys2Proof.Machine

theorem lookup_insertCell (m : Memory) (a : Nat) (v : Byte) (b : Nat)
    (h : ∀ c ∈ m, c.1 ≠ a) :
    lookup (insertCell m a v) b = if a = b then v else lookup m b := by
  induction m with
  | nil => simp [insertCell, lookup]
  | cons c m ih =>
    have hc : c.1 ≠ a := h c (by simp)
    have ih := ih fun d hd => h d (by simp [hd])
    unfold insertCell
    split
    · simp [lookup]
    · simp only [lookup, ih]
      by_cases h1 : c.1 = b <;> by_cases h2 : a = b <;> simp_all

theorem lookup_filter_ne (m : Memory) (a b : Nat) :
    lookup (m.filter fun c => c.1 ≠ a) b = if a = b then unlisted else lookup m b := by
  induction m with
  | nil => simp [lookup]
  | cons c m ih =>
    by_cases hc : c.1 = a
    · rw [List.filter_cons_of_neg (by simp [hc]), ih]
      by_cases h : a = b <;> simp [lookup, h]
      intro h'
      exact absurd (hc.symm.trans h') h
    · rw [List.filter_cons_of_pos (by simp [hc])]
      simp only [lookup, ih]
      by_cases h1 : c.1 = b <;> by_cases h2 : a = b <;> simp_all

/-- `MemRead` after `MemWrite` (20_memory.md R31). -/
theorem read_write (m : Memory) (a b : Addr) (v : Byte) :
    (m.write a v).read b = if a = b then v else m.read b := by
  have hab : (a.toNat = b.toNat) = (a = b) := by simp [BitVec.toNat_inj]
  unfold Memory.write Memory.read
  by_cases hv : v = unlisted
  · simp only [hv, if_true, lookup_filter_ne, hab]
  · simp only [hv, if_false]
    rw [lookup_insertCell _ _ _ _ (by simp), lookup_filter_ne]
    by_cases h : a = b <;> simp [h, hab]

@[simp] theorem read_write_self (m : Memory) (a : Addr) (v : Byte) :
    (m.write a v).read a = v := by simp [read_write]

theorem read_write_other (m : Memory) {a b : Addr} (v : Byte) (h : a ≠ b) :
    (m.write a v).read b = m.read b := by simp [read_write, h]

/-! ## The canonical form -/

theorem mem_insertCell {m : Memory} {a : Nat} {v : Byte} {c : Host.Cell} :
    c ∈ insertCell m a v ↔ c = (a, v) ∨ c ∈ m := by
  induction m with
  | nil => simp [insertCell]
  | cons d m ih =>
    unfold insertCell
    split
    · simp
    · simp only [List.mem_cons, ih]
      tauto

theorem insertCell_rising {m : Memory} {a : Nat} {v : Byte}
    (hm : m.Pairwise fun x y => x.1 < y.1) (h : ∀ c ∈ m, c.1 ≠ a) :
    (insertCell m a v).Pairwise fun x y => x.1 < y.1 := by
  induction m with
  | nil => simp [insertCell]
  | cons d m ih =>
    have hd : d.1 ≠ a := h d (by simp)
    rw [List.pairwise_cons] at hm
    unfold insertCell
    split
    · rename_i hlt
      refine List.pairwise_cons.mpr ⟨?_, List.pairwise_cons.mpr hm⟩
      intro c hc
      rcases List.mem_cons.mp hc with rfl | hc
      · exact hlt
      · exact Nat.lt_trans hlt (hm.1 c hc)
    · rename_i hge
      refine List.pairwise_cons.mpr ⟨?_, ih hm.2 fun c hc => h c (by simp [hc])⟩
      intro c hc
      rcases mem_insertCell.mp hc with rfl | hc
      · simp only; omega
      · exact hm.1 c hc

/-- Every write keeps the canonical form. -/
theorem write_wf {m : Memory} (hm : m.wf) (a : Addr) (v : Byte) : (m.write a v).wf := by
  have hrest : (m.filter fun c => c.1 ≠ a.toNat).Pairwise fun x y => x.1 < y.1 :=
    hm.1.sublist List.filter_sublist
  unfold Memory.write
  by_cases hv : v = unlisted
  · simp only [hv, if_true]
    exact ⟨hrest, fun c hc => hm.2 c (List.mem_of_mem_filter hc)⟩
  · simp only [hv, if_false]
    refine ⟨insertCell_rising hrest (by simp), fun c hc => ?_⟩
    rcases mem_insertCell.mp hc with rfl | hc
    · exact ⟨a.isLt, hv⟩
    · exact hm.2 c (List.mem_of_mem_filter hc)

theorem writeBytes_wf {m : Memory} (hm : m.wf) (base : Addr) (off : Nat) (bs : List Byte) :
    (m.writeBytes base off bs).wf := by
  induction bs generalizing m off with
  | nil => exact hm
  | cons b bs ih => exact ih (write_wf hm _ _) (off + 1)

theorem nil_wf : Memory.wf [] := ⟨List.Pairwise.nil, by simp⟩

/-! ## Buffers -/

theorem bufAddr_bufOffset (base a : Addr) : bufAddr base (bufOffset base a) = a := by
  unfold bufAddr bufOffset
  rw [BitVec.ofNat_toNat, BitVec.setWidth_eq, BitVec.add_comm, BitVec.sub_add_cancel]

theorem bufOffset_bufAddr_mod (base : Addr) (i : Nat) :
    bufOffset base (bufAddr base i) = i % 2 ^ 32 := by
  unfold bufAddr bufOffset
  rw [BitVec.add_comm, BitVec.add_sub_cancel, BitVec.toNat_ofNat]

theorem bufOffset_bufAddr (base : Addr) {i : Nat} (h : i < 2 ^ 32) :
    bufOffset base (bufAddr base i) = i := by
  rw [bufOffset_bufAddr_mod, Nat.mod_eq_of_lt h]

theorem bufOffset_lt (base a : Addr) : bufOffset base a < 2 ^ 32 := (a - base).isLt

theorem bufAddr_add (base : Addr) (i j : Nat) :
    bufAddr (bufAddr base i) j = bufAddr base (i + j) := by
  unfold bufAddr
  rw [BitVec.ofNat_add, BitVec.add_assoc]

theorem bufAddr_inj {base : Addr} {i j : Nat} (hi : i < 2 ^ 32) (hj : j < 2 ^ 32) :
    bufAddr base i = bufAddr base j ↔ i = j := by
  constructor
  · intro h
    rw [← bufOffset_bufAddr base hi, h, bufOffset_bufAddr base hj]
  · rintro rfl; rfl

theorem bufAddr_eq_iff {base a : Addr} {i : Nat} (hi : i < 2 ^ 32) :
    bufAddr base i = a ↔ bufOffset base a = i := by
  constructor
  · rintro rfl; exact bufOffset_bufAddr base hi
  · rintro rfl; exact bufAddr_bufOffset base a

theorem bufOffset_succ (base a : Addr) :
    bufOffset (bufAddr base 1) a =
      if bufOffset base a = 0 then 2 ^ 32 - 1 else bufOffset base a - 1 := by
  have h : bufOffset (bufAddr base 1) a = (bufOffset base a + (2 ^ 32 - 1)) % 2 ^ 32 := by
    unfold bufOffset bufAddr
    rw [show a - (base + BitVec.ofNat 32 1) = (a - base) - BitVec.ofNat 32 1 by bv_omega]
    rw [BitVec.toNat_sub]
    simp; omega
  have := bufOffset_lt base a
  rw [h]
  split <;> omega

/-- A read after a buffer write: the written byte inside it, the old byte outside (20_memory.md
R41). -/
theorem read_writeBytes (m : Memory) (base : Addr) (off : Nat) (bs : List Byte) (a : Addr)
    (h : bs.length ≤ 2 ^ 32) :
    (m.writeBytes base off bs).read a =
      if bufOffset (bufAddr base off) a < bs.length
      then bs.getD (bufOffset (bufAddr base off) a) 0 else m.read a := by
  induction bs generalizing m off with
  | nil => rfl
  | cons b bs ih =>
    rw [List.length_cons] at h
    have h0 : bufAddr base off = a ↔ bufOffset (bufAddr base off) a = 0 := by
      rw [← bufAddr_eq_iff (by norm_num), bufAddr_add, Nat.add_zero]
    rw [Memory.writeBytes, ih _ _ (by omega), read_write, ← bufAddr_add, bufOffset_succ,
      List.length_cons]
    by_cases hz : bufOffset (bufAddr base off) a = 0
    · rw [if_pos hz, if_neg (by omega), if_pos (h0.mpr hz), if_pos (by omega), hz]
      rfl
    · have hs : bufOffset (bufAddr base off) a =
          (bufOffset (bufAddr base off) a - 1) + 1 := by omega
      rw [if_neg hz, if_neg (mt h0.mp hz)]
      by_cases hl : bufOffset (bufAddr base off) a - 1 < bs.length
      · rw [if_pos hl, if_pos (by omega), hs]
        rfl
      · rw [if_neg hl, if_neg (by omega)]

/-- A buffer write changes nothing outside the bytes it writes. -/
theorem read_writeBytes_outside (m : Memory) (base : Addr) (off : Nat) (bs : List Byte) (a : Addr)
    (h : bs.length ≤ 2 ^ 32) (ha : ∀ j < bs.length, a ≠ bufAddr base (off + j)) :
    (m.writeBytes base off bs).read a = m.read a := by
  rw [read_writeBytes _ _ _ _ _ h, if_neg]
  intro hlt
  exact ha _ hlt (by rw [← bufAddr_add, bufAddr_bufOffset])

/-- A buffer write, read back by offset. -/
theorem read_writeBytes_inside (m : Memory) (base : Addr) (off : Nat) (bs : List Byte) {j : Nat}
    (h : bs.length ≤ 2 ^ 32) (hj : j < bs.length) :
    (m.writeBytes base off bs).read (bufAddr base (off + j)) = bs.getD j 0 := by
  rw [read_writeBytes _ _ _ _ _ h, ← bufAddr_add, bufOffset_bufAddr _ (by omega), if_pos hj]

@[simp] theorem length_freshBytes (d n : Nat) : (freshBytes d n).length = n := by
  simp [freshBytes]

@[simp] theorem length_toUnit (v w : Nat) : (toUnit v w).length = w := by simp [toUnit]

@[simp] theorem length_readBytes (m : Memory) (base : Addr) (off n : Nat) :
    (m.readBytes base off n).length = n := by simp [Memory.readBytes]

theorem getD_readBytes (m : Memory) (base : Addr) (off n : Nat) {j : Nat} (h : j < n) :
    (m.readBytes base off n).getD j 0 = m.read (bufAddr base (off + j)) := by
  simp [Memory.readBytes, List.getD, h]

end Sys2Proof.Machine
end

