-- ==== Sys2Proof/Laws/Run.lean ====
section
/-! SUPPORT. Runs of many steps, one step taken off at either end. -/

namespace Sys2Proof.Machine

theorem run_zero (s : State) : core.run 0 s = .next s := rfl

/-- A run whose first step answers a next state goes on from it. -/
theorem run_succ {s t : State} (n : Nat) (h : step s = .next t) :
    core.run (n + 1) s = core.run n t := by
  have h' : core.step s = .next t := h
  simp only [Host.Core.run, h']

/-- A run that reached a next state takes one more step from it. -/
theorem run_snoc {s u : State} (n : Nat) (h : core.run n s = .next u) :
    core.run (n + 1) s = step u := by
  induction n generalizing s with
  | zero =>
    cases h
    show core.run 1 u = core.step u
    simp only [Host.Core.run]
    cases core.step u <;> rfl
  | succ n ih =>
    cases hs : step s with
    | next s' => rw [run_succ _ hs] at h ⊢; exact ih h
    | fault r =>
      have hs' : core.step s = .fault r := hs
      simp [Host.Core.run, hs'] at h
    | refused r =>
      have hs' : core.step s = .refused r := hs
      simp [Host.Core.run, hs'] at h

end Sys2Proof.Machine
end

