-- ==== Sys2Proof/Laws/Assembler.lean ====
section
/-! SUPPORT. What the assembler answers, and what the host operations of a filter statement do when
the host's program runs them (30_encoding.md R63 to R65). -/

namespace Sys2Proof.Machine

/-! ## Immediates -/

theorem fits_of_lt {w v : Nat} (h : v < 2 ^ w) : fits w v = some (BitVec.ofNat w v) := if_pos h

theorem fits_of_not_lt {w v : Nat} (h : ¬ v < 2 ^ w) : fits w v = none := if_neg h

theorem bppField_of_le {n : Nat} (h : 1 ≤ n ∧ n ≤ 16) :
    bppField n = some (BitVec.ofNat 4 (n - 1)) := if_pos h

theorem bppField_of_not_le {n : Nat} (h : ¬ (1 ≤ n ∧ n ≤ 16)) : bppField n = none := if_neg h

/-! ## Pseudo-instructions (30_encoding.md R64) -/

theorem assemble_copy (here : Nat) (d s : Addr) (len : Word) :
    (Statement.copy d s len).assemble here = (Statement.addByte d s len 0).assemble here := rfl

theorem assemble_fill255 (here : Nat) (d s : Addr) (len : Word) :
    (Statement.fill255 d s len).assemble here =
      (Statement.binarizeUsingThreshold d s len 0).assemble here := rfl

/-! ## Loading a program (30_encoding.md R65) -/

theorem place_wf {m : Memory} (hm : m.wf) (a : Addr) (bs : List Byte) : (m.place a bs).wf :=
  writeBytes_wf hm a 0 bs

/-- Loading keeps memory in canonical form. -/
theorem load_mem_wf {s : State} (hs : s.mem.wf) (ops : List HostOp)
    (contents : List (Addr × List Byte)) : (s.load ops contents).mem.wf := by
  show (contents.foldl (fun m c => m.place c.1 c.2) s.mem).wf
  generalize s.mem = m at hs
  induction contents generalizing m with
  | nil => exact hs
  | cons c cs ih => exact ih _ (place_wf hs c.1 c.2)

/-! ## Each register's write (10_state.md R15 to R18) -/

@[simp] theorem writeRegister_src1 (s : State) (v : Word) :
    writeRegister s 0x0C v = { s with reg := { s.reg with src1 := v } } := rfl

@[simp] theorem writeRegister_src2 (s : State) (v : Word) :
    writeRegister s 0x10 v = { s with reg := { s.reg with src2 := v } } := rfl

@[simp] theorem writeRegister_dst (s : State) (v : Word) :
    writeRegister s 0x14 v = { s with reg := { s.reg with dst := v } } := rfl

@[simp] theorem writeRegister_len (s : State) (v : Word) :
    writeRegister s 0x18 v = { s with reg := { s.reg with len := v } } := rfl

@[simp] theorem writeRegister_param (s : State) (v : Word) :
    writeRegister s 0x1C v = { s with reg := { s.reg with param := v } } := rfl

@[simp] theorem writeRegister_uconst0 (s : State) (v : Word) :
    writeRegister s 0x20 v = { s with reg := { s.reg with uconst0 := v } } := rfl

@[simp] theorem writeRegister_uconst1 (s : State) (v : Word) :
    writeRegister s 0x24 v = { s with reg := { s.reg with uconst1 := v } } := rfl

@[simp] theorem writeRegister_uconst2 (s : State) (v : Word) :
    writeRegister s 0x28 v = { s with reg := { s.reg with uconst2 := v } } := rfl

@[simp] theorem writeRegister_uconst3 (s : State) (v : Word) :
    writeRegister s 0x2C v = { s with reg := { s.reg with uconst3 := v } } := rfl

/-! ## Running a statement -/

/-- A register write does not look at the program's index. -/
theorem writeRegister_hpc (s : State) (h : Nat) (off : BitVec 6) (v : Word) :
    writeRegister { s with hpc := h } off v = { writeRegister s off v with hpc := h } := by
  have hc : writeCmd { s with hpc := h } v = { writeCmd s v with hpc := h } := by
    unfold writeCmd
    cases s.phase <;> rfl
  unfold writeRegister
  split <;> first | exact hc | rfl

/-- Nor do several. -/
theorem foldl_writeRegister_hpc (ws : List (BitVec 6 × Word)) (s : State) (h : Nat) :
    ws.foldl (fun s x => writeRegister s x.1 x.2) { s with hpc := h } =
      { ws.foldl (fun s x => writeRegister s x.1 x.2) s with hpc := h } := by
  induction ws generalizing s with
  | nil => rfl
  | cons x ws ih => rw [List.foldl_cons, writeRegister_hpc, ih, List.foldl_cons]

/-- A write to a register other than CMD leaves the host and the phase as they are. -/
theorem writeRegister_host (s : State) {off : BitVec 6} (v : Word) (h : off.toNat / 4 ≠ 0) :
    (writeRegister s off v).phase = s.phase ∧ (writeRegister s off v).inputs = s.inputs ∧
      (writeRegister s off v).prog = s.prog ∧ (writeRegister s off v).hpc = s.hpc := by
  unfold writeRegister
  split <;> first | exact absurd ‹_› h | exact ⟨rfl, rfl, rfl, rfl⟩

/-- The host's program makes an aligned write where no turn is waiting and no command is in
progress. -/
theorem step_opWrite {s : State} {off : BitVec 6} {v : Word} (hp : s.phase = .idle)
    (hi : s.inputs = []) (ha : off.toNat % 4 = 0) (ho : s.prog[s.hpc]? = some (opWrite off v)) :
    step s = .next { writeRegister s off v with hpc := s.hpc + 1 } := by
  have h : step s = hostMove (.writeReg off .word v) { s with hpc := s.hpc + 1 } := by
    simp only [step, nextMove, hi, State.busy, hp, programTurn, ho, opWrite]
    rfl
  have hw : wordAccess off .word = true := by simp [wordAccess, ha]
  rw [h, hostMove, if_pos hw, writeRegister_hpc]

/-- A program that writes registers other than CMD and then CMD, run from IDLE, leaves the command
accepted with what it wrote. -/
theorem run_writes (ws : List (BitVec 6 × Word)) (v : Word) (rest : List HostOp) {s : State}
    (hp : s.phase = .idle) (hi : s.inputs = [])
    (hw : ∀ x ∈ ws, x.1.toNat % 4 = 0 ∧ x.1.toNat / 4 ≠ 0)
    (ho : s.prog.drop s.hpc = ws.map (fun x => opWrite x.1 x.2) ++ opWrite 0x00 v :: rest) :
    core.run (ws.length + 1) s = .next
      { (ws.foldl (fun s x => writeRegister s x.1 x.2) s).accept v with
        hpc := s.hpc + ws.length + 1 } := by
  induction ws generalizing s with
  | nil =>
    have hop : s.prog[s.hpc]? = some (opWrite 0x00 v) := by
      rw [← List.head?_drop, ho]; rfl
    rw [List.length_nil, run_succ 0 (step_opWrite hp hi rfl hop), run_zero]
    simp [writeRegister, writeCmd, hp]
  | cons x ws ih =>
    obtain ⟨ha, hc⟩ := hw x List.mem_cons_self
    have hop : s.prog[s.hpc]? = some (opWrite x.1 x.2) := by
      rw [← List.head?_drop, ho]; rfl
    obtain ⟨h1, h2, h3, h4⟩ := writeRegister_host s x.2 hc
    have hd : s.prog.drop (s.hpc + 1) =
        ws.map (fun x => opWrite x.1 x.2) ++ opWrite 0x00 v :: rest := by
      rw [← List.drop_drop, ho]; rfl
    rw [List.length_cons, run_succ _ (step_opWrite hp hi ha hop),
      ih (s := { writeRegister s x.1 x.2 with hpc := s.hpc + 1 }) (h1.trans hp) (h2.trans hi)
        (fun y hy => hw y (List.mem_cons_of_mem x hy)) (by
          show (writeRegister s x.1 x.2).prog.drop (s.hpc + 1) = _
          rw [h3]; exact hd)]
    rw [foldl_writeRegister_hpc, List.foldl_cons]
    have hl : s.hpc + 1 + ws.length + 1 = s.hpc + (ws.length + 1) + 1 := by omega
    rw [show ({ writeRegister s x.1 x.2 with hpc := s.hpc + 1 } : State).hpc = s.hpc + 1 from rfl, hl]
    rfl

end Sys2Proof.Machine
end

