-- ==== Sys2Proof/Laws/Encoding.lean ====
section
/-! SUPPORT. The command word as a number and its fields: what encoding puts where and decoding
takes out (30_encoding.md R50, R62). -/

namespace Sys2Proof

theorem toNat_append_eq {v w : Nat} (x : BitVec v) (y : BitVec w) :
    (x ++ y).toNat = x.toNat * 2 ^ w + y.toNat := by
  rw [BitVec.toNat_append, ← Nat.shiftLeft_add_eq_or_of_lt y.isLt, Nat.shiftLeft_eq]

/-- A command word as a number (30_encoding.md R50). -/
theorem toNat_commandWord (m : BitVec 2) (f b : BitVec 4) (n : BitVec 6) :
    (commandWord m f b n).toNat =
      f.toNat + m.toNat * 2 ^ 4 + b.toNat * 2 ^ 8 + n.toNat * 2 ^ 16 := by
  unfold commandWord
  simp only [toNat_append_eq, BitVec.ofNat_eq_ofNat, BitVec.toNat_ofNat, Nat.zero_mod]
  omega

/-- The fields of a command word, its reserved fields clear (30_encoding.md R50). -/
theorem fields_commandWord (m : BitVec 2) (f b : BitVec 4) (n : BitVec 6) :
    func (commandWord m f b n) = f ∧ mode (commandWord m f b n) = m ∧
    bppm1 (commandWord m f b n) = b ∧ shamt (commandWord m f b n) = n ∧
    res0 (commandWord m f b n) = 0 ∧ res1 (commandWord m f b n) = 0 ∧
    res2 (commandWord m f b n) = 0 := by
  have h := toNat_commandWord m f b n
  have := f.isLt; have := m.isLt; have := b.isLt; have := n.isLt
  refine ⟨?_, ?_, ?_, ?_, ?_, ?_, ?_⟩ <;> apply BitVec.eq_of_toNat_eq <;>
    simp only [func, mode, bppm1, shamt, res0, res1, res2, BitVec.extractLsb'_toNat, h,
      Nat.shiftRight_eq_div_pow, BitVec.ofNat_eq_ofNat, BitVec.toNat_ofNat, Nat.zero_mod] <;> omega

/-- Decoding a word with its reserved bits clear goes by MODE (30_encoding.md R62). -/
theorem decode_commandWord (m : BitVec 2) (f b : BitVec 4) (n : BitVec 6) :
    decode (commandWord m f b n) =
      match m.toNat with
      | 0 => decodeMode0 f b n
      | 1 => decodeMode1 f b n
      | 2 => decodeMode2 f b n
      | _ => .neighborhood f b n := by
  obtain ⟨h1, h2, h3, h4, h5, h6, h7⟩ := fields_commandWord m f b n
  unfold decode
  rw [h1, h2, h3, h4, h5, h6, h7]
  exact (if_neg (by simp)).trans rfl

end Sys2Proof
end

