-- ==== Sys2Proof/Laws/State.lean ====
section
/-! SUPPORT. What each shared operation does to each field of State, and what one element leaves. -/

namespace Sys2Proof.Machine

variable (s : State)

/-! ### putBytes: Writing destination bytes changes memory alone. -/

@[simp] theorem putBytes_reg (off : Nat) (bs : List Byte) : (s.putBytes off bs).reg = s.reg := rfl
@[simp] theorem putBytes_status (off : Nat) (bs : List Byte) :
    (s.putBytes off bs).status = s.status := rfl
@[simp] theorem putBytes_irqEn (off : Nat) (bs : List Byte) :
    (s.putBytes off bs).irqEn = s.irqEn := rfl
@[simp] theorem putBytes_phase (off : Nat) (bs : List Byte) :
    (s.putBytes off bs).phase = s.phase := rfl
@[simp] theorem putBytes_sh (off : Nat) (bs : List Byte) : (s.putBytes off bs).sh = s.sh := rfl
@[simp] theorem putBytes_plan (off : Nat) (bs : List Byte) :
    (s.putBytes off bs).plan = s.plan := rfl
@[simp] theorem putBytes_count (off : Nat) (bs : List Byte) :
    (s.putBytes off bs).count = s.count := rfl
@[simp] theorem putBytes_k (off : Nat) (bs : List Byte) : (s.putBytes off bs).k = s.k := rfl
@[simp] theorem putBytes_lut (off : Nat) (bs : List Byte) : (s.putBytes off bs).lut = s.lut := rfl
@[simp] theorem putBytes_cb (off : Nat) (bs : List Byte) : (s.putBytes off bs).cb = s.cb := rfl
@[simp] theorem putBytes_mem (off : Nat) (bs : List Byte) :
    (s.putBytes off bs).mem = s.mem.writeBytes s.sh.dst off bs := rfl
@[simp] theorem putBytes_params (off : Nat) (bs : List Byte) :
    (s.putBytes off bs).params = s.params := rfl
@[simp] theorem putBytes_inputs (off : Nat) (bs : List Byte) :
    (s.putBytes off bs).inputs = s.inputs := rfl
@[simp] theorem putBytes_prog (off : Nat) (bs : List Byte) :
    (s.putBytes off bs).prog = s.prog := rfl
@[simp] theorem putBytes_hpc (off : Nat) (bs : List Byte) : (s.putBytes off bs).hpc = s.hpc := rfl
@[simp] theorem putBytes_t (off : Nat) (bs : List Byte) : (s.putBytes off bs).t = s.t := rfl
@[simp] theorem putBytes_draws (off : Nat) (bs : List Byte) :
    (s.putBytes off bs).draws = s.draws := rfl
@[simp] theorem putBytes_raced (off : Nat) (bs : List Byte) :
    (s.putBytes off bs).raced = s.raced := rfl
@[simp] theorem putBytes_pre (off : Nat) (bs : List Byte) : (s.putBytes off bs).pre = s.pre := rfl

/-! ### putFree: Drawing destination bytes changes memory and the count of draws. -/

@[simp] theorem putFree_reg (off n : Nat) : (s.putFree off n).reg = s.reg := rfl
@[simp] theorem putFree_status (off n : Nat) : (s.putFree off n).status = s.status := rfl
@[simp] theorem putFree_irqEn (off n : Nat) : (s.putFree off n).irqEn = s.irqEn := rfl
@[simp] theorem putFree_phase (off n : Nat) : (s.putFree off n).phase = s.phase := rfl
@[simp] theorem putFree_sh (off n : Nat) : (s.putFree off n).sh = s.sh := rfl
@[simp] theorem putFree_plan (off n : Nat) : (s.putFree off n).plan = s.plan := rfl
@[simp] theorem putFree_count (off n : Nat) : (s.putFree off n).count = s.count := rfl
@[simp] theorem putFree_k (off n : Nat) : (s.putFree off n).k = s.k := rfl
@[simp] theorem putFree_lut (off n : Nat) : (s.putFree off n).lut = s.lut := rfl
@[simp] theorem putFree_cb (off n : Nat) : (s.putFree off n).cb = s.cb := rfl
@[simp] theorem putFree_mem (off n : Nat) :
    (s.putFree off n).mem = s.mem.writeBytes s.sh.dst off (freshBytes s.draws n) := rfl
@[simp] theorem putFree_params (off n : Nat) : (s.putFree off n).params = s.params := rfl
@[simp] theorem putFree_inputs (off n : Nat) : (s.putFree off n).inputs = s.inputs := rfl
@[simp] theorem putFree_prog (off n : Nat) : (s.putFree off n).prog = s.prog := rfl
@[simp] theorem putFree_hpc (off n : Nat) : (s.putFree off n).hpc = s.hpc := rfl
@[simp] theorem putFree_t (off n : Nat) : (s.putFree off n).t = s.t := rfl
@[simp] theorem putFree_draws (off n : Nat) : (s.putFree off n).draws = s.draws + n := rfl
@[simp] theorem putFree_raced (off n : Nat) : (s.putFree off n).raced = s.raced := rfl
@[simp] theorem putFree_pre (off n : Nat) : (s.putFree off n).pre = s.pre := rfl

/-! ### putElement: An element's writes change memory and, where they are unspecified, the count of draws. -/

@[simp] theorem putElement_reg (off : Nat) (reads : List Addr) (bs : List Byte) :
    (s.putElement off reads bs).reg = s.reg := by unfold State.putElement; split <;> rfl
@[simp] theorem putElement_status (off : Nat) (reads : List Addr) (bs : List Byte) :
    (s.putElement off reads bs).status = s.status := by unfold State.putElement; split <;> rfl
@[simp] theorem putElement_irqEn (off : Nat) (reads : List Addr) (bs : List Byte) :
    (s.putElement off reads bs).irqEn = s.irqEn := by unfold State.putElement; split <;> rfl
@[simp] theorem putElement_phase (off : Nat) (reads : List Addr) (bs : List Byte) :
    (s.putElement off reads bs).phase = s.phase := by unfold State.putElement; split <;> rfl
@[simp] theorem putElement_sh (off : Nat) (reads : List Addr) (bs : List Byte) :
    (s.putElement off reads bs).sh = s.sh := by unfold State.putElement; split <;> rfl
@[simp] theorem putElement_plan (off : Nat) (reads : List Addr) (bs : List Byte) :
    (s.putElement off reads bs).plan = s.plan := by unfold State.putElement; split <;> rfl
@[simp] theorem putElement_count (off : Nat) (reads : List Addr) (bs : List Byte) :
    (s.putElement off reads bs).count = s.count := by unfold State.putElement; split <;> rfl
@[simp] theorem putElement_k (off : Nat) (reads : List Addr) (bs : List Byte) :
    (s.putElement off reads bs).k = s.k := by unfold State.putElement; split <;> rfl
@[simp] theorem putElement_lut (off : Nat) (reads : List Addr) (bs : List Byte) :
    (s.putElement off reads bs).lut = s.lut := by unfold State.putElement; split <;> rfl
@[simp] theorem putElement_cb (off : Nat) (reads : List Addr) (bs : List Byte) :
    (s.putElement off reads bs).cb = s.cb := by unfold State.putElement; split <;> rfl
@[simp] theorem putElement_params (off : Nat) (reads : List Addr) (bs : List Byte) :
    (s.putElement off reads bs).params = s.params := by unfold State.putElement; split <;> rfl
@[simp] theorem putElement_inputs (off : Nat) (reads : List Addr) (bs : List Byte) :
    (s.putElement off reads bs).inputs = s.inputs := by unfold State.putElement; split <;> rfl
@[simp] theorem putElement_prog (off : Nat) (reads : List Addr) (bs : List Byte) :
    (s.putElement off reads bs).prog = s.prog := by unfold State.putElement; split <;> rfl
@[simp] theorem putElement_hpc (off : Nat) (reads : List Addr) (bs : List Byte) :
    (s.putElement off reads bs).hpc = s.hpc := by unfold State.putElement; split <;> rfl
@[simp] theorem putElement_t (off : Nat) (reads : List Addr) (bs : List Byte) :
    (s.putElement off reads bs).t = s.t := by unfold State.putElement; split <;> rfl
@[simp] theorem putElement_raced (off : Nat) (reads : List Addr) (bs : List Byte) :
    (s.putElement off reads bs).raced = s.raced := by unfold State.putElement; split <;> rfl
@[simp] theorem putElement_pre (off : Nat) (reads : List Addr) (bs : List Byte) :
    (s.putElement off reads bs).pre = s.pre := by unfold State.putElement; split <;> rfl

/-! ### accept: Acceptance (10_state.md R27). -/

@[simp] theorem accept_reg (v : Word) : (s.accept v).reg = { s.reg with cmd := v } := rfl
@[simp] theorem accept_status (v : Word) : (s.accept v).status = s.status.accepted := rfl
@[simp] theorem accept_irqEn (v : Word) : (s.accept v).irqEn = s.irqEn := rfl
@[simp] theorem accept_phase (v : Word) : (s.accept v).phase = .validate := rfl
@[simp] theorem accept_sh (v : Word) : (s.accept v).sh = { s.reg with cmd := v } := rfl
@[simp] theorem accept_plan (v : Word) : (s.accept v).plan = s.plan := rfl
@[simp] theorem accept_count (v : Word) : (s.accept v).count = s.count := rfl
@[simp] theorem accept_k (v : Word) : (s.accept v).k = s.k := rfl
@[simp] theorem accept_lut (v : Word) : (s.accept v).lut = s.lut := rfl
@[simp] theorem accept_cb (v : Word) : (s.accept v).cb = s.cb := rfl
@[simp] theorem accept_mem (v : Word) : (s.accept v).mem = s.mem := rfl
@[simp] theorem accept_params (v : Word) : (s.accept v).params = s.params := rfl
@[simp] theorem accept_inputs (v : Word) : (s.accept v).inputs = s.inputs := rfl
@[simp] theorem accept_prog (v : Word) : (s.accept v).prog = s.prog := rfl
@[simp] theorem accept_hpc (v : Word) : (s.accept v).hpc = s.hpc := rfl
@[simp] theorem accept_t (v : Word) : (s.accept v).t = s.t := rfl
@[simp] theorem accept_draws (v : Word) : (s.accept v).draws = s.draws := rfl
@[simp] theorem accept_raced (v : Word) : (s.accept v).raced = false := rfl
@[simp] theorem accept_pre (v : Word) : (s.accept v).pre = s.mem := rfl

/-! ### fail: `fail(code)` (60_exceptions.md R121). -/

@[simp] theorem fail_reg (code : ECode) : (s.fail code).reg = s.reg := rfl
@[simp] theorem fail_status (code : ECode) : (s.fail code).status = s.status.failed code := rfl
@[simp] theorem fail_irqEn (code : ECode) : (s.fail code).irqEn = s.irqEn := rfl
@[simp] theorem fail_phase (code : ECode) : (s.fail code).phase = .idle := rfl
@[simp] theorem fail_sh (code : ECode) : (s.fail code).sh = s.sh := rfl
@[simp] theorem fail_plan (code : ECode) : (s.fail code).plan = s.plan := rfl
@[simp] theorem fail_count (code : ECode) : (s.fail code).count = s.count := rfl
@[simp] theorem fail_k (code : ECode) : (s.fail code).k = s.k := rfl
@[simp] theorem fail_lut (code : ECode) : (s.fail code).lut = s.lut := rfl
@[simp] theorem fail_cb (code : ECode) : (s.fail code).cb = s.cb := rfl
@[simp] theorem fail_mem (code : ECode) : (s.fail code).mem = s.mem := rfl
@[simp] theorem fail_params (code : ECode) : (s.fail code).params = s.params := rfl
@[simp] theorem fail_inputs (code : ECode) : (s.fail code).inputs = s.inputs := rfl
@[simp] theorem fail_prog (code : ECode) : (s.fail code).prog = s.prog := rfl
@[simp] theorem fail_hpc (code : ECode) : (s.fail code).hpc = s.hpc := rfl
@[simp] theorem fail_t (code : ECode) : (s.fail code).t = s.t := rfl
@[simp] theorem fail_draws (code : ECode) : (s.fail code).draws = s.draws := rfl
@[simp] theorem fail_raced (code : ECode) : (s.fail code).raced = s.raced := rfl
@[simp] theorem fail_pre (code : ECode) : (s.fail code).pre = s.pre := rfl

/-! ### succeed: `succeed(noop)` (60_exceptions.md R131). -/

@[simp] theorem succeed_reg (noop : Bool) : (s.succeed noop).reg = s.reg := rfl
@[simp] theorem succeed_status (noop : Bool) :
    (s.succeed noop).status = s.status.succeeded noop := rfl
@[simp] theorem succeed_irqEn (noop : Bool) : (s.succeed noop).irqEn = s.irqEn := rfl
@[simp] theorem succeed_phase (noop : Bool) : (s.succeed noop).phase = .idle := rfl
@[simp] theorem succeed_sh (noop : Bool) : (s.succeed noop).sh = s.sh := rfl
@[simp] theorem succeed_plan (noop : Bool) : (s.succeed noop).plan = s.plan := rfl
@[simp] theorem succeed_count (noop : Bool) : (s.succeed noop).count = s.count := rfl
@[simp] theorem succeed_k (noop : Bool) : (s.succeed noop).k = s.k := rfl
@[simp] theorem succeed_lut (noop : Bool) : (s.succeed noop).lut = s.lut := rfl
@[simp] theorem succeed_cb (noop : Bool) : (s.succeed noop).cb = s.cb := rfl
@[simp] theorem succeed_mem (noop : Bool) : (s.succeed noop).mem = s.mem := rfl
@[simp] theorem succeed_params (noop : Bool) : (s.succeed noop).params = s.params := rfl
@[simp] theorem succeed_inputs (noop : Bool) : (s.succeed noop).inputs = s.inputs := rfl
@[simp] theorem succeed_prog (noop : Bool) : (s.succeed noop).prog = s.prog := rfl
@[simp] theorem succeed_hpc (noop : Bool) : (s.succeed noop).hpc = s.hpc := rfl
@[simp] theorem succeed_t (noop : Bool) : (s.succeed noop).t = s.t := rfl
@[simp] theorem succeed_draws (noop : Bool) : (s.succeed noop).draws = s.draws := rfl
@[simp] theorem succeed_raced (noop : Bool) : (s.succeed noop).raced = s.raced := rfl
@[simp] theorem succeed_pre (noop : Bool) : (s.succeed noop).pre = s.pre := rfl

/-! ### startRun: The move to RUN (10_state.md R29). -/

@[simp] theorem startRun_reg (p : Plan) (n : Nat) : (s.startRun p n).reg = s.reg := rfl
@[simp] theorem startRun_status (p : Plan) (n : Nat) : (s.startRun p n).status = s.status := rfl
@[simp] theorem startRun_irqEn (p : Plan) (n : Nat) : (s.startRun p n).irqEn = s.irqEn := rfl
@[simp] theorem startRun_phase (p : Plan) (n : Nat) : (s.startRun p n).phase = .run := rfl
@[simp] theorem startRun_sh (p : Plan) (n : Nat) : (s.startRun p n).sh = s.sh := rfl
@[simp] theorem startRun_plan (p : Plan) (n : Nat) : (s.startRun p n).plan = p := rfl
@[simp] theorem startRun_count (p : Plan) (n : Nat) : (s.startRun p n).count = n := rfl
@[simp] theorem startRun_k (p : Plan) (n : Nat) : (s.startRun p n).k = 0 := rfl
@[simp] theorem startRun_lut (p : Plan) (n : Nat) : (s.startRun p n).lut = s.lut := rfl
@[simp] theorem startRun_cb (p : Plan) (n : Nat) : (s.startRun p n).cb = s.cb := rfl
@[simp] theorem startRun_mem (p : Plan) (n : Nat) : (s.startRun p n).mem = s.mem := rfl
@[simp] theorem startRun_params (p : Plan) (n : Nat) : (s.startRun p n).params = s.params := rfl
@[simp] theorem startRun_inputs (p : Plan) (n : Nat) : (s.startRun p n).inputs = s.inputs := rfl
@[simp] theorem startRun_prog (p : Plan) (n : Nat) : (s.startRun p n).prog = s.prog := rfl
@[simp] theorem startRun_hpc (p : Plan) (n : Nat) : (s.startRun p n).hpc = s.hpc := rfl
@[simp] theorem startRun_t (p : Plan) (n : Nat) : (s.startRun p n).t = s.t := rfl
@[simp] theorem startRun_draws (p : Plan) (n : Nat) : (s.startRun p n).draws = s.draws := rfl
@[simp] theorem startRun_raced (p : Plan) (n : Nat) : (s.startRun p n).raced = s.raced := rfl
@[simp] theorem startRun_pre (p : Plan) (n : Nat) : (s.startRun p n).pre = s.pre := rfl

/-! ### advance: What follows an element (10_state.md R29). -/

@[simp] theorem advance_reg : (s.advance).reg = s.reg := by unfold State.advance; split <;> rfl
@[simp] theorem advance_irqEn :
    (s.advance).irqEn = s.irqEn := by unfold State.advance; split <;> rfl
@[simp] theorem advance_sh : (s.advance).sh = s.sh := by unfold State.advance; split <;> rfl
@[simp] theorem advance_plan : (s.advance).plan = s.plan := by unfold State.advance; split <;> rfl
@[simp] theorem advance_count :
    (s.advance).count = s.count := by unfold State.advance; split <;> rfl
@[simp] theorem advance_k : (s.advance).k = s.k + 1 := by unfold State.advance; split <;> rfl
@[simp] theorem advance_lut : (s.advance).lut = s.lut := by unfold State.advance; split <;> rfl
@[simp] theorem advance_cb : (s.advance).cb = s.cb := by unfold State.advance; split <;> rfl
@[simp] theorem advance_mem : (s.advance).mem = s.mem := by unfold State.advance; split <;> rfl
@[simp] theorem advance_params :
    (s.advance).params = s.params := by unfold State.advance; split <;> rfl
@[simp] theorem advance_inputs :
    (s.advance).inputs = s.inputs := by unfold State.advance; split <;> rfl
@[simp] theorem advance_prog : (s.advance).prog = s.prog := by unfold State.advance; split <;> rfl
@[simp] theorem advance_hpc : (s.advance).hpc = s.hpc := by unfold State.advance; split <;> rfl
@[simp] theorem advance_t : (s.advance).t = s.t := by unfold State.advance; split <;> rfl
@[simp] theorem advance_draws :
    (s.advance).draws = s.draws := by unfold State.advance; split <;> rfl
@[simp] theorem advance_raced :
    (s.advance).raced = s.raced := by unfold State.advance; split <;> rfl
@[simp] theorem advance_pre : (s.advance).pre = s.pre := by unfold State.advance; split <;> rfl

/-! ### buildLut: Filling the LUT (10_state.md R23). -/

@[simp] theorem buildLut_reg (f : Byte → Byte) : (s.buildLut f).reg = s.reg := rfl
@[simp] theorem buildLut_status (f : Byte → Byte) : (s.buildLut f).status = s.status := rfl
@[simp] theorem buildLut_irqEn (f : Byte → Byte) : (s.buildLut f).irqEn = s.irqEn := rfl
@[simp] theorem buildLut_phase (f : Byte → Byte) : (s.buildLut f).phase = s.phase := rfl
@[simp] theorem buildLut_sh (f : Byte → Byte) : (s.buildLut f).sh = s.sh := rfl
@[simp] theorem buildLut_plan (f : Byte → Byte) : (s.buildLut f).plan = s.plan := rfl
@[simp] theorem buildLut_count (f : Byte → Byte) : (s.buildLut f).count = s.count := rfl
@[simp] theorem buildLut_k (f : Byte → Byte) : (s.buildLut f).k = s.k := rfl
@[simp] theorem buildLut_lut (f : Byte → Byte) : (s.buildLut f).lut = tabulate f := rfl
@[simp] theorem buildLut_cb (f : Byte → Byte) : (s.buildLut f).cb = s.cb := rfl
@[simp] theorem buildLut_mem (f : Byte → Byte) : (s.buildLut f).mem = s.mem := rfl
@[simp] theorem buildLut_params (f : Byte → Byte) : (s.buildLut f).params = s.params := rfl
@[simp] theorem buildLut_inputs (f : Byte → Byte) : (s.buildLut f).inputs = s.inputs := rfl
@[simp] theorem buildLut_prog (f : Byte → Byte) : (s.buildLut f).prog = s.prog := rfl
@[simp] theorem buildLut_hpc (f : Byte → Byte) : (s.buildLut f).hpc = s.hpc := rfl
@[simp] theorem buildLut_t (f : Byte → Byte) : (s.buildLut f).t = s.t := rfl
@[simp] theorem buildLut_draws (f : Byte → Byte) : (s.buildLut f).draws = s.draws := rfl
@[simp] theorem buildLut_raced (f : Byte → Byte) : (s.buildLut f).raced = s.raced := rfl
@[simp] theorem buildLut_pre (f : Byte → Byte) : (s.buildLut f).pre = s.pre := rfl

/-! ### buildCb: Filling the constant bytes (10_state.md R24). -/

@[simp] theorem buildCb_reg (w : Nat) : (s.buildCb w).reg = s.reg := rfl
@[simp] theorem buildCb_status (w : Nat) : (s.buildCb w).status = s.status := rfl
@[simp] theorem buildCb_irqEn (w : Nat) : (s.buildCb w).irqEn = s.irqEn := rfl
@[simp] theorem buildCb_phase (w : Nat) : (s.buildCb w).phase = s.phase := rfl
@[simp] theorem buildCb_sh (w : Nat) : (s.buildCb w).sh = s.sh := rfl
@[simp] theorem buildCb_plan (w : Nat) : (s.buildCb w).plan = s.plan := rfl
@[simp] theorem buildCb_count (w : Nat) : (s.buildCb w).count = s.count := rfl
@[simp] theorem buildCb_k (w : Nat) : (s.buildCb w).k = s.k := rfl
@[simp] theorem buildCb_lut (w : Nat) : (s.buildCb w).lut = s.lut := rfl
@[simp] theorem buildCb_cb (w : Nat) : (s.buildCb w).cb = constantBytes (cu s.sh w) w s.cb := rfl
@[simp] theorem buildCb_mem (w : Nat) : (s.buildCb w).mem = s.mem := rfl
@[simp] theorem buildCb_params (w : Nat) : (s.buildCb w).params = s.params := rfl
@[simp] theorem buildCb_inputs (w : Nat) : (s.buildCb w).inputs = s.inputs := rfl
@[simp] theorem buildCb_prog (w : Nat) : (s.buildCb w).prog = s.prog := rfl
@[simp] theorem buildCb_hpc (w : Nat) : (s.buildCb w).hpc = s.hpc := rfl
@[simp] theorem buildCb_t (w : Nat) : (s.buildCb w).t = s.t := rfl
@[simp] theorem buildCb_draws (w : Nat) : (s.buildCb w).draws = s.draws := rfl
@[simp] theorem buildCb_raced (w : Nat) : (s.buildCb w).raced = s.raced := rfl
@[simp] theorem buildCb_pre (w : Nat) : (s.buildCb w).pre = s.pre := rfl

theorem getD_constantBytes (v w : Nat) (old : List Byte) {j : Nat} (h : j < w) (hw : w ≤ 16) :
    (constantBytes v w old).getD j 0 = unitByte v w j := by
  simp [constantBytes, Config.maxBpp, List.getD, h, show j < 16 by omega]

theorem buildLut_lutAt (f : Byte → Byte) (v : Byte) : (s.buildLut f).lutAt v = f v := by
  have h : (List.range 256)[v.toNat]? = some v.toNat := List.getElem?_range v.isLt
  simp [tabulate, State.lutAt, List.getD, h]

@[simp] theorem startRun_lutAt (p : Plan) (n : Nat) (v : Byte) :
    (s.startRun p n).lutAt v = s.lutAt v := rfl

/-- The last element completes the command (10_state.md R29; 60_exceptions.md R131). -/
theorem advance_last (h : s.k + 1 = s.count) :
    s.advance = { s with k := s.k + 1 }.succeed false := by simp [State.advance, h]

/-- An element that is not the last leaves the command running (10_state.md R29). -/
theorem advance_more (h : s.k + 1 ≠ s.count) : s.advance = { s with k := s.k + 1 } := by
  simp [State.advance, h]

/-- The specified case of an element's writes. -/
theorem putElement_specified {off : Nat} {reads : List Addr} (bs : List Byte)
    (h : s.unspecified off reads = false) : s.putElement off reads bs = s.putBytes off bs := by
  simp [State.putElement, h]

/-- What an element's writes can be: the filter's bytes or as many free ones. -/
theorem putElement_mem (off : Nat) (reads : List Addr) (bs : List Byte) :
    ∃ bs' : List Byte, bs'.length = bs.length ∧
      (s.putElement off reads bs).mem = s.mem.writeBytes s.sh.dst off bs' := by
  unfold State.putElement
  split
  · exact ⟨freshBytes s.draws bs.length, by simp [freshBytes], rfl⟩
  · exact ⟨bs, rfl, rfl⟩

end Sys2Proof.Machine
end

