-- ==== Sys2Proof/Laws/Exec.lean ====
section
/-! SUPPORT. Everything one engine step of a command can do, phase by phase: the lemmas to cite
instead of unfolding `exec`. -/

namespace Sys2Proof.Machine

/-- What the validate step fills for a command that runs (10_state.md R29). -/
def buildFor (i : Instr) (s : State) : State :=
  match family i with
  | .scalar => s.buildLut (scalarMap i s.sh)
  | .unit => if usesConstant i then s.buildCb (unitBytes i) else s
  | .dual | .neighborhood | .illegal => s

/-- The engine has no step in IDLE (10_state.md R20). -/
theorem exec_idle (i : Instr) {s : State} (h : s.phase = .idle) : exec i s = .next s := by
  cases i <;>
    simp [exec, execAdd, execMean, execSub, execAbsDiff, execMult, execMultUnbound, execMultInv,
      execMultDivby2, execMultDivby4, execBitAnd, execBitOr, execDiv, execBitNegation, execAddByte,
      execAddByteToHalf, execSubByte, execMultByByte, execShiftRight, execShiftRightAndMultByByte,
      execShiftLeft, execShiftLeftByte, execBinarizeUsingThreshold, execClipToRange,
      execNormalizeLinear, execAddUint, execSubUint, execShiftLeftUint, execShiftRightUint,
      execReservedMode0, execReservedMode1, execReservedMode2Low, execReservedMode2High,
      execNeighborhood, execReservedBits, dualCommand, scalarCommand, command, reservedCommand, h]

theorem settle_of_fail {s : State} {v : Verdict} (b b' : State → State)
    (h : ∀ p n, v ≠ .run p n) : s.settle v b = s.settle v b' := by
  cases v with
  | fail c => rfl
  | succeed => rfl
  | run p n => exact absurd rfl (h p n)

/-- The validate step of any command (10_state.md R29; 60_exceptions.md R122). -/
theorem exec_validate (i : Instr) {s : State} (h : s.phase = .validate) :
    exec i s = .next (s.settle (validate i s.sh) (buildFor i)) := by
  have key : ∀ b : State → State, b s = buildFor i s →
      s.settle (validate i s.sh) b = s.settle (validate i s.sh) (buildFor i) := by
    intro b hb
    unfold State.settle
    split <;> simp [hb]
  cases i
  case mult => simp only [exec, execMult, dualCommand, command, h]; split <;> rfl
  all_goals
    simp only [exec, execAdd, execMean, execSub, execAbsDiff, execMultUnbound, execMultInv,
      execMultDivby2, execMultDivby4, execBitAnd, execBitOr, execDiv, execBitNegation, execAddByte,
      execAddByteToHalf, execSubByte, execMultByByte, execShiftRight, execShiftRightAndMultByByte,
      execShiftLeft, execShiftLeftByte, execBinarizeUsingThreshold, execClipToRange,
      execNormalizeLinear, execAddUint, execSubUint, execShiftLeftUint, execShiftRightUint,
      execReservedMode0, execReservedMode1, execReservedMode2Low, execReservedMode2High,
      execNeighborhood, execReservedBits, dualCommand, scalarCommand, command, reservedCommand, h]
    exact congrArg _ (key _ rfl)

/-- An element of a MODE 0 command (40_dual_source.md R70). -/
theorem exec_run_dual {i : Instr} {s : State} (hi : family i = .dual) (h : s.phase = .run) :
    exec i s = .next (s.putElement s.k
      ((readBuffers s.params i s.sh).map fun base => bufAddr base s.k)
      [dualMap s.params i (s.mem.read (bufAddr s.sh.src1 s.k))
        (s.mem.read (bufAddr s.sh.src2 s.k))]).advance := by
  cases i
  case mult =>
    simp only [exec, execMult, dualCommand, command, h, readBuffers, dualMap]
    split <;> simp [dualElement, sameSourceElement, *]
  all_goals first
    | (simp only [exec, execAdd, execMean, execSub, execAbsDiff, execMultUnbound, execMultInv,
        execMultDivby2, execMultDivby4, execBitAnd, execBitOr, execDiv, dualCommand, command, h]
       rfl)
    | simp [family] at hi

/-- An element of a MODE 1 command (41_scalar.md R90). -/
theorem exec_run_scalar {i : Instr} {s : State} (hi : family i = .scalar) (h : s.phase = .run) :
    exec i s = .next (s.putElement s.k [bufAddr s.sh.src1 s.k]
      [s.lutAt (s.mem.read (bufAddr s.sh.src1 s.k))]).advance := by
  cases i <;> first
    | (simp only [exec, execBitNegation, execAddByte, execAddByteToHalf, execSubByte,
        execMultByByte, execShiftRight, execShiftRightAndMultByByte, execShiftLeft,
        execShiftLeftByte, execBinarizeUsingThreshold, execClipToRange, execNormalizeLinear,
        scalarCommand, command, h]
       rfl)
    | simp [family] at hi

/-- An element of a MODE 2 command under the COPY plan (42_unit.md R112). -/
theorem exec_run_copy {i : Instr} {s : State} (hi : family i = .unit) (h : s.phase = .run)
    (hp : s.plan = .copy) :
    exec i s = .next (s.putElement s.k [bufAddr s.sh.src1 s.k]
      [s.mem.read (bufAddr s.sh.src1 s.k)]).advance := by
  cases i <;> first
    | (simp only [exec, execAddUint, execSubUint, execShiftLeftUint, execShiftRightUint, command,
        h, unitOrCopy, hp]
       rfl)
    | simp [family] at hi

/-- An element of a MODE 2 command under the OP plan (42_unit.md R112). -/
theorem exec_run_unit {i : Instr} {s : State} (hi : family i = .unit) (h : s.phase = .run)
    (hp : s.plan = .op) :
    exec i s = .next (s.putElement (s.k * unitBytes i)
      ((List.range (unitBytes i)).map fun j => bufAddr s.sh.src1 (s.k * unitBytes i + j))
      (unitMap i s.cb (s.mem.readBytes s.sh.src1 (s.k * unitBytes i) (unitBytes i)))).advance := by
  cases i <;> first
    | (simp only [exec, execAddUint, execSubUint, execShiftLeftUint, execShiftRightUint, command,
        h, unitOrCopy, hp]
       rfl)
    | simp [family] at hi

/-- A reserved command has no element (log 16). -/
theorem exec_run_reserved {i : Instr} {s : State} (hi : isFilter i = false)
    (h : s.phase = .run) : exec i s = .fault .noElementRule := by
  cases i <;> first
    | (simp [exec, execReservedMode0, execReservedMode1, execReservedMode2Low,
        execReservedMode2High, execNeighborhood, execReservedBits, reservedCommand, h]; done)
    | simp [isFilter, family] at hi

theorem isFilter_cases {i : Instr} (h : isFilter i = true) :
    family i = .dual ∨ family i = .scalar ∨ family i = .unit := by
  simpa [isFilter, or_assoc] using h

theorem unitBytes_pos (i : Instr) : 0 < unitBytes i := by
  cases i <;> simp [unitBytes, bpp]

theorem unitBytes_le (i : Instr) : unitBytes i ≤ 16 := by
  cases i <;> simp only [unitBytes, bpp] <;> omega

theorem elementWidth_le (i : Instr) (p : Plan) : elementWidth i p ≤ 16 := by
  unfold elementWidth
  split
  · exact unitBytes_le i
  · omega

theorem elementWidth_pos (i : Instr) (p : Plan) : 0 < elementWidth i p := by
  unfold elementWidth
  split
  · exact unitBytes_pos i
  · omega

theorem length_unitMap {i : Instr} {cb u : List Byte} (h : u.length = unitBytes i) :
    (unitMap i cb u).length = unitBytes i := by
  cases i <;> simp_all [unitMap, addUnit, subUnit, shiftLeftUnit, shiftRightUnit, unitBytes]

/-- What any filter does in RUN: one element, of the width its plan gives, then the advance
(10_state.md R29). -/
theorem exec_run {i : Instr} {s : State} (hi : isFilter i = true) (h : s.phase = .run) :
    ∃ reads bs, bs.length = elementWidth i s.plan ∧
      exec i s =
        .next (s.putElement (s.k * elementWidth i s.plan) reads bs).advance := by
  rcases isFilter_cases hi with hf | hf | hf
  · have e : elementWidth i s.plan = 1 := by simp [elementWidth, hf]
    exact ⟨_, [_], e.symm, by rw [e, Nat.mul_one]; exact exec_run_dual hf h⟩
  · have e : elementWidth i s.plan = 1 := by simp [elementWidth, hf]
    exact ⟨_, [_], e.symm, by rw [e, Nat.mul_one]; exact exec_run_scalar hf h⟩
  · cases hp : s.plan with
    | copy =>
      have e : elementWidth i .copy = 1 := by simp [elementWidth, hf]
      exact ⟨_, [_], e.symm, by rw [e, Nat.mul_one]; exact exec_run_copy hf h hp⟩
    | op =>
      have e : elementWidth i .op = unitBytes i := by simp [elementWidth, hf]
      refine ⟨_, unitMap i s.cb _, ?_, by rw [e]; exact exec_run_unit hf h hp⟩
      rw [e, length_unitMap (by simp)]

/-- Everything one engine step can be, for any command and any state. -/
theorem exec_cases (i : Instr) (s : State) :
    (s.phase = .idle ∧ exec i s = .next s) ∨
    (s.phase = .validate ∧ exec i s = .next (s.settle (validate i s.sh) (buildFor i))) ∨
    (s.phase = .run ∧ isFilter i = true ∧ ∃ reads bs, bs.length = elementWidth i s.plan ∧
      exec i s = .next (s.putElement (s.k * elementWidth i s.plan) reads bs).advance) ∨
    (s.phase = .run ∧ isFilter i = false ∧ exec i s = .fault .noElementRule) := by
  cases h : s.phase with
  | idle => exact .inl ⟨rfl, exec_idle i h⟩
  | validate => exact .inr (.inl ⟨rfl, exec_validate i h⟩)
  | run =>
    cases hi : isFilter i with
    | true => exact .inr (.inr (.inl ⟨rfl, rfl, exec_run hi h⟩))
    | false => exact .inr (.inr (.inr ⟨rfl, rfl, exec_run_reserved hi h⟩))

end Sys2Proof.Machine
end

