-- ==== Sys2Proof/Laws/Validate.lean ====
section
/-! SUPPORT. What the validate step decides, family by family (60_exceptions.md R122): the lemmas to
cite instead of unfolding `validate`. -/

namespace Sys2Proof.Machine

theorem validate_dual {i : Instr} (r : Operands) (h : family i = .dual) :
    validate i r =
      if r.src1 = 0 ∨ r.dst = 0 ∨ r.src2 = 0 then .fail .invalidArg
      else if r.len = 0 then .succeed
      else .run .op r.len.toNat := by
  have h1 : shiftOutOfRange i = false := by cases i <;> first | rfl | simp [family] at h
  have h2 : degenerate i r = false := by cases i <;> first | rfl | simp [family] at h
  simp [validate, h, h1, h2, nullBuffer, or_assoc]

theorem validate_scalar {i : Instr} (r : Operands) (h : family i = .scalar) :
    validate i r =
      if r.src1 = 0 ∨ r.dst = 0 then .fail .invalidArg
      else if r.len = 0 then .succeed
      else if shiftOutOfRange i = true then .fail .outOfRange
      else if degenerate i r = true then .succeed
      else .run .op r.len.toNat := by
  simp [validate, h, nullBuffer]

theorem validate_unit {i : Instr} (r : Operands) (h : family i = .unit) :
    validate i r =
      if r.src1 = 0 ∨ r.dst = 0 then .fail .invalidArg
      else if r.len = 0 then .succeed
      else if shiftOutOfRange i = true then .fail .outOfRange
      else if copyShortcut i r = true then .run .copy r.len.toNat
      else if r.len.toNat / unitBytes i = 0 then .succeed
      else .run .op (r.len.toNat / unitBytes i) := by
  have h2 : degenerate i r = false := by cases i <;> first | rfl | simp [family] at h
  simp [validate, h, h2, nullBuffer]

theorem validate_illegal {i : Instr} (r : Operands) (h : family i = .illegal) :
    validate i r = .fail .illegalCmd := by
  simp [validate, h]

theorem validate_neighborhood {i : Instr} (r : Operands) (h : family i = .neighborhood) :
    validate i r = .fail .notImplemented := by
  simp [validate, h]

/-- A command that runs is a filter, writes only inside its destination and has an element to
execute (10_state.md R29; 20_memory.md R41). -/
theorem validate_run {i : Instr} {r : Operands} {p : Plan} {n : Nat}
    (h : validate i r = .run p n) :
    isFilter i = true ∧ 0 < n ∧ n * elementWidth i p ≤ r.len.toNat := by
  have hlen : r.len ≠ 0 → 0 < r.len.toNat := fun h0 =>
    Nat.pos_of_ne_zero fun h1 => h0 (BitVec.eq_of_toNat_eq h1)
  cases hf : family i with
  | illegal => rw [validate_illegal r hf] at h; cases h
  | neighborhood => rw [validate_neighborhood r hf] at h; cases h
  | dual =>
    rw [validate_dual r hf] at h
    split at h
    · cases h
    · split at h
      · cases h
      · cases h
        exact ⟨by simp [isFilter, hf], hlen ‹_›, by simp [elementWidth, hf]⟩
  | scalar =>
    rw [validate_scalar r hf] at h
    repeat' split at h
    all_goals first
      | (cases h; done)
      | (cases h
         exact ⟨by simp [isFilter, hf], hlen ‹_›, by simp [elementWidth, hf]⟩)
  | unit =>
    rw [validate_unit r hf] at h
    repeat' split at h
    all_goals first
      | (cases h; done)
      | (cases h
         exact ⟨by simp [isFilter, hf], hlen ‹_›, by simp [elementWidth, hf]⟩)
      | (cases h
         exact ⟨by simp [isFilter, hf], Nat.pos_of_ne_zero ‹_›,
           by simpa [elementWidth, hf] using Nat.div_mul_le_self _ _⟩)

end Sys2Proof.Machine
end

