-- ==== Sys2Proof/Laws/Moves.lean ====
section
/-! SUPPORT. Everything a turn of the machine can do, case by case: the lemmas to cite instead of
unfolding `hostMove`, `programTurn` and `step`; and that every one of them keeps memory's canonical
form. -/

namespace Sys2Proof.Machine

/-! ## The validate step -/

/-- The validate step's frame: it writes STATUS's outcome, the phase and the engine's tables. -/
theorem settle_frame (i : Instr) (s : State) (v : Verdict) :
    let t := s.settle v (buildFor i)
    t.reg = s.reg ∧ t.sh = s.sh ∧ t.mem = s.mem ∧ t.irqEn = s.irqEn ∧
      t.status.drop = s.status.drop ∧ t.params = s.params ∧ t.inputs = s.inputs ∧
      t.prog = s.prog ∧ t.hpc = s.hpc ∧ t.t = s.t ∧ t.draws = s.draws ∧ t.raced = s.raced ∧
      t.pre = s.pre := by
  cases v with
  | fail c => simp [State.settle, Status.failed]
  | succeed => simp [State.settle, Status.succeeded]
  | run p n =>
    simp only [State.settle]
    unfold buildFor
    split <;> (try split) <;> simp

/-- A command that goes to RUN leaves STATUS as it is (10_state.md R29). -/
theorem settle_run_status (i : Instr) (s : State) (p : Plan) (n : Nat) :
    (s.settle (.run p n) (buildFor i)).status = s.status := by
  simp only [State.settle]
  unfold buildFor
  split <;> (try split) <;> simp

/-! ## Host moves -/

/-- What a host move that answers a next state did. -/
theorem hostMove_next {m : HostMove} {s t : State} (h : hostMove m s = .next t) :
    (∃ off v, t = writeRegister s off v) ∨ (∃ w d, t = { s with t := w, draws := d }) ∨
    (∃ a v, t = hostWriteByte s a v) ∨ t = resetMove s := by
  cases m with
  | writeReg off w v =>
    simp only [hostMove] at h
    split at h <;> cases h
    exact .inl ⟨off, v, rfl⟩
  | readReg off w =>
    simp only [hostMove] at h
    split at h <;> cases h
    exact .inr (.inl ⟨_, s.draws, rfl⟩)
  | readByte a =>
    simp only [hostMove] at h
    split at h <;> cases h
    unfold hostReadByte
    split
    · exact .inr (.inl ⟨_, _, rfl⟩)
    · exact .inr (.inl ⟨_, s.draws, rfl⟩)
  | writeByte a v =>
    simp only [hostMove] at h
    split at h <;> cases h
    exact .inr (.inr (.inl ⟨a, v, rfl⟩))
  | reset =>
    cases h
    exact .inr (.inr (.inr rfl))

/-- No host move faults (60_exceptions.md R120). -/
theorem hostMove_not_fault (m : HostMove) (s : State) (f : Fault) : hostMove m s ≠ .fault f := by
  intro h
  cases m <;> simp only [hostMove] at h <;> first | (split at h <;> cases h) | cases h

/-- What a register write can do (10_state.md R12 to R19, R27): accept or drop a command, clear bits
of STATUS, set IRQ_EN, or write one operand register. -/
theorem writeRegister_cases (s : State) (off : BitVec 6) (v : Word) :
    (s.phase = .idle ∧ writeRegister s off v = s.accept v) ∨
    (s.phase ≠ .idle ∧
      writeRegister s off v = { s with status := { s.status with drop := true } }) ∨
    writeRegister s off v = { s with status := s.status.writeOneToClear v } ∨
    writeRegister s off v = { s with irqEn := v.getLsbD 0 } ∨
    (∃ r, r.cmd = s.reg.cmd ∧ writeRegister s off v = { s with reg := r }) := by
  unfold writeRegister
  split
  · unfold writeCmd
    split
    · rename_i hp; exact .inl ⟨hp, rfl⟩
    · rename_i hp; exact .inr (.inl ⟨by rw [hp]; simp, rfl⟩)
    · rename_i hp; exact .inr (.inl ⟨by rw [hp]; simp, rfl⟩)
  · exact .inr (.inr (.inl rfl))
  · exact .inr (.inr (.inr (.inl rfl)))
  all_goals
    refine .inr (.inr (.inr (.inr ⟨_, ?_, rfl⟩)))
    rfl

/-! ## The program's turn and the step -/

/-- What a turn of the host's program that answers a next state did. -/
theorem programTurn_next {s t : State} (h : programTurn s = .next t) :
    t = s ∨ (∃ n, t = { s with hpc := n }) ∨
    ∃ m, hostMove m { s with hpc := s.hpc + 1 } = .next t := by
  unfold programTurn at h
  split at h
  · cases h; exact .inl rfl
  · exact .inr (.inr ⟨_, h⟩)
  all_goals (cases h; exact .inr (.inl ⟨_, rfl⟩))

/-- Whose turn a step was (70_reset_and_hazards.md R161). -/
theorem step_cases (s : State) :
    ∃ rest, step s = engineTurn { s with inputs := rest } ∨
      step s = programTurn { s with inputs := rest } ∨
      ∃ m, step s = hostMove m { s with inputs := rest } := by
  unfold step nextMove
  split
  · rename_i u rest _
    refine ⟨rest, ?_⟩
    cases u with
    | engine => exact .inl rfl
    | program => exact .inr (.inl rfl)
    | host m => exact .inr (.inr ⟨m, rfl⟩)
  · rename_i h
    refine ⟨s.inputs, ?_⟩
    split
    · exact .inl rfl
    · exact .inr (.inl rfl)

/-! ## The canonical form of memory -/

theorem exec_mem_wf {i : Instr} {s t : State} (hm : s.mem.wf) (h : exec i s = .next t) :
    t.mem.wf := by
  rcases exec_cases i s with ⟨_, e⟩ | ⟨_, e⟩ | ⟨_, _, reads, bs, _, e⟩ | ⟨_, _, e⟩ <;>
    rw [e] at h <;> cases h
  · exact hm
  · rw [(settle_frame i s _).2.2.1]
    exact hm
  · obtain ⟨bs', _, hb⟩ := putElement_mem s (s.k * elementWidth i s.plan) reads bs
    rw [advance_mem, hb]
    exact writeBytes_wf hm _ _ _

theorem writeRegister_mem (s : State) (off : BitVec 6) (v : Word) :
    (writeRegister s off v).mem = s.mem := by
  rcases writeRegister_cases s off v with ⟨_, e⟩ | ⟨_, e⟩ | e | e | ⟨_, _, e⟩ <;> rw [e]
  rfl

theorem hostWriteByte_mem_wf {s : State} (hm : s.mem.wf) (a : Addr) (v : Byte) :
    (hostWriteByte s a v).mem.wf := by
  unfold hostWriteByte
  split
  · exact writeBytes_wf (write_wf hm a v) _ _ _
  · exact write_wf hm a v

theorem resetMove_mem_wf {s : State} (hm : s.mem.wf) : (resetMove s).mem.wf := by
  show (if s.busy then s.putFree 0 s.sh.len.toNat else s).mem.wf
  split
  · exact writeBytes_wf hm _ _ _
  · exact hm

theorem hostMove_mem_wf {m : HostMove} {s t : State} (hm : s.mem.wf)
    (h : hostMove m s = .next t) : t.mem.wf := by
  rcases hostMove_next h with ⟨off, v, rfl⟩ | ⟨w, d, rfl⟩ | ⟨a, v, rfl⟩ | rfl
  · rw [writeRegister_mem]
    exact hm
  · exact hm
  · exact hostWriteByte_mem_wf hm a v
  · exact resetMove_mem_wf hm

/-- Every step keeps memory's canonical form. -/
theorem step_mem_wf {s t : State} (hm : s.mem.wf) (h : step s = .next t) : t.mem.wf := by
  obtain ⟨rest, e | e | ⟨m, e⟩⟩ := step_cases s <;> rw [e] at h
  · unfold engineTurn at h
    split at h
    · cases h
    · exact exec_mem_wf (s := { s with inputs := rest }) hm h
  · rcases programTurn_next h with rfl | ⟨n, rfl⟩ | ⟨m, h'⟩
    · exact hm
    · exact hm
    · exact hostMove_mem_wf (s := { s with inputs := rest, hpc := s.hpc + 1 }) hm h'
  · exact hostMove_mem_wf (s := { s with inputs := rest }) hm h

end Sys2Proof.Machine
end

