-- ==== Sys2Proof/Laws/Operands.lean ====
section
/-! SUPPORT. The arithmetic helpers and operand forms as numbers (00_scope.md R6; 30_encoding.md R55,
R56): the lemmas that turn a claim about bytes into one about naturals. -/

namespace Sys2Proof.Machine

/-- `sat8` as a number (00_scope.md R6). -/
theorem toNat_sat8 (v : Int) : ((sat8 v).toNat : Int) = max 0 (min 255 v) := by
  unfold sat8 clamp
  simp only [BitVec.toNat_ofInt]
  omega

/-- `u8` as a number (00_scope.md R6). -/
theorem toNat_u8 (v : Nat) : (u8 v).toNat = v % 256 := by simp [u8]

/-- The product of two bytes is at most `255 * 255`. -/
theorem byte_mul_le (x y : Byte) : x.toNat * y.toNat ≤ 65025 := by
  have h := Nat.mul_le_mul (Nat.le_of_lt_succ x.isLt) (Nat.le_of_lt_succ y.isLt)
  simpa using h

/-- The PARAM bytes as numbers (30_encoding.md R55). -/
theorem toNat_params (r : Operands) :
    (p0 r).toNat = r.param.toNat % 256 ∧ (p1 r).toNat = r.param.toNat / 2 ^ 8 % 256 ∧
    (p2 r).toNat = r.param.toNat / 2 ^ 16 % 256 ∧ (p3 r).toNat = r.param.toNat / 2 ^ 24 % 256 := by
  simp [p0, p1, p2, p3, BitVec.extractLsb'_toNat, Nat.shiftRight_eq_div_pow]

/-- `UC` as a number (30_encoding.md R56). -/
theorem toNat_uc (r : Operands) :
    (uc r).toNat = r.uconst0.toNat + r.uconst1.toNat * 2 ^ 32 + r.uconst2.toNat * 2 ^ 64 +
      r.uconst3.toNat * 2 ^ 96 := by
  unfold uc
  simp only [toNat_append_eq]
  omega

/-- Byte `j` of a unit value as a number (42_unit.md R111). -/
theorem toNat_unitByte (v w j : Nat) : (unitByte v w j).toNat = v / 2 ^ (8 * (w - 1 - j)) % 256 := by
  simp [unitByte, Nat.shiftRight_eq_div_pow]

theorem getD_toUnit (v w : Nat) {j : Nat} (h : j < w) : (toUnit v w).getD j 0 = unitByte v w j := by
  simp [toUnit, List.getD, h]

/-- One more byte at the low end of a unit (20_memory.md R35). -/
theorem ofUnit_append (u : List Byte) (x : Byte) : ofUnit (u ++ [x]) = ofUnit u * 256 + x.toNat := by
  simp [ofUnit]

/-- A bytewise function of a unit, read back by byte (42_unit.md R113, R114). -/
theorem getD_mapIdx {u : List Byte} (f : Nat → Byte → Byte) {j : Nat} (h : j < u.length) :
    (u.mapIdx f).getD j 0 = f j (u.getD j 0) := by
  simp [List.getD, h]

/-- A MODE 1 or MODE 2 command reads the Src1 buffer alone (30_encoding.md R51). -/
theorem readBuffers_src1 (p : Config.Params) {i : Instr} (r : Operands)
    (h : family i = .scalar ∨ family i = .unit) : readBuffers p i r = [r.src1] := by
  unfold readBuffers
  split
  · rcases h with h | h <;> cases h
  · rcases h with h | h <;> simp [sources, h]

/-- Only a MODE 2 command uses the constant (10_state.md R24). -/
theorem family_of_usesConstant {i : Instr} (h : usesConstant i = true) : family i = .unit := by
  cases i <;> first | rfl | cases h

end Sys2Proof.Machine
end

