-- ==== Sys2Proof/Laws/PerInstr.lean ====
section
/-! SUPPORT. Every instruction's command word has the fixed bits of its row of
spec/opcode_table.json, one lemma per constructor. -/

namespace Sys2Proof.Laws.OpcodeRow

/-- A row's mask and match (30_encoding.md R52, R60). The reserved-bits row fixes no bits. -/
def row : Instr → Word × Word
  | .add .. => (0xFFC0F0FF, 0x00000000)
  | .mean .. => (0xFFC0F0FF, 0x00000001)
  | .sub .. => (0xFFC0F0FF, 0x00000002)
  | .absDiff .. => (0xFFC0F0FF, 0x00000003)
  | .mult .. => (0xFFC0F0FF, 0x00000004)
  | .multUnbound .. => (0xFFC0F0FF, 0x00000005)
  | .multInv .. => (0xFFC0F0FF, 0x00000006)
  | .multDivby2 .. => (0xFFC0F0FF, 0x00000007)
  | .multDivby4 .. => (0xFFC0F0FF, 0x00000008)
  | .bitAnd .. => (0xFFC0F0FF, 0x00000009)
  | .bitOr .. => (0xFFC0F0FF, 0x0000000A)
  | .div .. => (0xFFC0F0FF, 0x0000000B)
  | .bitNegation .. => (0xFFC0F0FF, 0x00000010)
  | .addByte .. => (0xFFC0F0FF, 0x00000011)
  | .addByteToHalf .. => (0xFFC0F0FF, 0x00000012)
  | .subByte .. => (0xFFC0F0FF, 0x00000013)
  | .multByByte .. => (0xFFC0F0FF, 0x00000014)
  | .shiftRight .. => (0xFFC0F0FF, 0x00000015)
  | .shiftRightAndMultByByte .. => (0xFFC0F0FF, 0x00000016)
  | .shiftLeft .. => (0xFFC0F0FF, 0x00000017)
  | .shiftLeftByte .. => (0xFFC0F0FF, 0x00000018)
  | .binarizeUsingThreshold .. => (0xFFC0F0FF, 0x00000019)
  | .clipToRange .. => (0xFFC0F0FF, 0x0000001A)
  | .normalizeLinear .. => (0xFFC0F0FF, 0x0000001B)
  | .addUint .. => (0xFFC0F0FF, 0x00000020)
  | .subUint .. => (0xFFC0F0FF, 0x00000021)
  | .shiftLeftUint .. => (0xFFC0F0FF, 0x00000022)
  | .shiftRightUint .. => (0xFFC0F0FF, 0x00000023)
  | .reservedMode0 .. => (0xFFC0F0FC, 0x0000000C)
  | .reservedMode1 .. => (0xFFC0F0FC, 0x0000001C)
  | .reservedMode2Low .. => (0xFFC0F0FC, 0x00000024)
  | .reservedMode2High .. => (0xFFC0F0F8, 0x00000028)
  | .neighborhood .. => (0xFFC0F0F0, 0x00000030)
  | .reservedBits _ => (0, 0)

/-- A well-formed instruction's word matches its row; a word of the reserved-bits row has a reserved
bit set (30_encoding.md R59). -/
def Statement (i : Instr) : Prop :=
  i.wellFormed = true →
    encode i &&& (row i).1 = (row i).2 ∧
    (encode i &&& reservedMask ≠ 0 ↔ ∃ w, i = .reservedBits w)

/-- A bit of a command word, by the field it stands in (30_encoding.md R50). -/
theorem getLsbD_commandWord (m : BitVec 2) (f b : BitVec 4) (n : BitVec 6) (j : Nat) :
    (commandWord m f b n).getLsbD j =
      if j < 4 then f.getLsbD j else if j < 6 then m.getLsbD (j - 4)
      else if j < 8 then false else if j < 12 then b.getLsbD (j - 8)
      else if j < 16 then false else if j < 22 then n.getLsbD (j - 16) else false := by
  unfold commandWord
  simp only [BitVec.getLsbD_append, BitVec.ofNat_eq_ofNat, BitVec.getLsbD_zero]
  split_ifs <;> first | rfl | omega

/-- The opcode byte and the reserved bits of a command word, its ignored fields masked off. -/
theorem masked_commandWord (m : BitVec 2) (f b : BitVec 4) (n : BitVec 6) :
    commandWord m f b n &&& 0xFFC0F0FF = commandWord m f 0 0 := by
  have hb : ∀ j < 4, (0xFFC0F0FF : Word).getLsbD (8 + j) = false := by decide
  have hn : ∀ j < 6, (0xFFC0F0FF : Word).getLsbD (16 + j) = false := by decide
  have hr : ∀ j < 32, (j < 8 ∨ 12 ≤ j ∧ j < 16 ∨ 22 ≤ j) →
      (0xFFC0F0FF : Word).getLsbD j = true := by decide
  apply BitVec.eq_of_getLsbD_eq
  intro j hj
  rw [BitVec.getLsbD_and, getLsbD_commandWord, getLsbD_commandWord]
  by_cases h1 : 8 ≤ j ∧ j < 12
  · have h := hb (j - 8) (by omega)
    rw [show 8 + (j - 8) = j by omega] at h
    rw [h]
    split_ifs <;> first | omega | simp
  · by_cases h2 : 16 ≤ j ∧ j < 22
    · have h := hn (j - 16) (by omega)
      rw [show 16 + (j - 16) = j by omega] at h
      rw [h]
      split_ifs <;> first | omega | simp
    · rw [hr j hj (by omega)]
      split_ifs <;> first | omega | simp

/-- A command word's reserved bits are clear (30_encoding.md R50). -/
theorem reserved_commandWord (m : BitVec 2) (f b : BitVec 4) (n : BitVec 6) :
    commandWord m f b n &&& reservedMask = 0 := by
  have h : commandWord m f b n &&& reservedMask =
      commandWord m f b n &&& 0xFFC0F0FF &&& reservedMask := by
    rw [BitVec.and_assoc]
    rfl
  rw [h, masked_commandWord]
  clear h
  revert m f
  decide

/-- A row whose mask covers the whole opcode byte. -/
theorem statement_of_byte {i : Instr} {m : BitVec 2} {f b : BitVec 4} {n : BitVec 6}
    (he : encode i = commandWord m f b n) (hm : (row i).1 = 0xFFC0F0FF)
    (hw : commandWord m f 0 0 = (row i).2) (hi : ∀ w, i ≠ .reservedBits w) : Statement i := by
  intro _
  rw [he, hm, masked_commandWord, reserved_commandWord]
  exact ⟨hw, by simp [hi]⟩

/-- A row whose mask leaves some bits of FUNC free. -/
theorem statement_of_range {i : Instr} {m : BitVec 2} {f b : BitVec 4} {n : BitVec 6}
    {mask word : Word} (he : encode i = commandWord m f b n) (hr : row i = (mask, word))
    (hm : mask = 0xFFC0F0FF &&& mask) (hw : commandWord m f 0 0 &&& mask = word)
    (hi : ∀ w, i ≠ .reservedBits w) : Statement i := by
  intro _
  rw [he, reserved_commandWord, hr]
  refine ⟨?_, by simp [hi]⟩
  show _ &&& mask = word
  rw [hm, ← BitVec.and_assoc, masked_commandWord]
  exact hw

theorem add (b : BitVec 4) (n : BitVec 6) : Statement (.add b n) :=
  statement_of_byte rfl rfl rfl (by simp)
theorem mean (b : BitVec 4) (n : BitVec 6) : Statement (.mean b n) :=
  statement_of_byte rfl rfl rfl (by simp)
theorem sub (b : BitVec 4) (n : BitVec 6) : Statement (.sub b n) :=
  statement_of_byte rfl rfl rfl (by simp)
theorem absDiff (b : BitVec 4) (n : BitVec 6) : Statement (.absDiff b n) :=
  statement_of_byte rfl rfl rfl (by simp)
theorem mult (b : BitVec 4) (n : BitVec 6) : Statement (.mult b n) :=
  statement_of_byte rfl rfl rfl (by simp)
theorem multUnbound (b : BitVec 4) (n : BitVec 6) : Statement (.multUnbound b n) :=
  statement_of_byte rfl rfl rfl (by simp)
theorem multInv (b : BitVec 4) (n : BitVec 6) : Statement (.multInv b n) :=
  statement_of_byte rfl rfl rfl (by simp)
theorem multDivby2 (b : BitVec 4) (n : BitVec 6) : Statement (.multDivby2 b n) :=
  statement_of_byte rfl rfl rfl (by simp)
theorem multDivby4 (b : BitVec 4) (n : BitVec 6) : Statement (.multDivby4 b n) :=
  statement_of_byte rfl rfl rfl (by simp)
theorem bitAnd (b : BitVec 4) (n : BitVec 6) : Statement (.bitAnd b n) :=
  statement_of_byte rfl rfl rfl (by simp)
theorem bitOr (b : BitVec 4) (n : BitVec 6) : Statement (.bitOr b n) :=
  statement_of_byte rfl rfl rfl (by simp)
theorem div (b : BitVec 4) (n : BitVec 6) : Statement (.div b n) :=
  statement_of_byte rfl rfl rfl (by simp)
theorem bitNegation (b : BitVec 4) (n : BitVec 6) : Statement (.bitNegation b n) :=
  statement_of_byte rfl rfl rfl (by simp)
theorem addByte (b : BitVec 4) (n : BitVec 6) : Statement (.addByte b n) :=
  statement_of_byte rfl rfl rfl (by simp)
theorem addByteToHalf (b : BitVec 4) (n : BitVec 6) : Statement (.addByteToHalf b n) :=
  statement_of_byte rfl rfl rfl (by simp)
theorem subByte (b : BitVec 4) (n : BitVec 6) : Statement (.subByte b n) :=
  statement_of_byte rfl rfl rfl (by simp)
theorem multByByte (b : BitVec 4) (n : BitVec 6) : Statement (.multByByte b n) :=
  statement_of_byte rfl rfl rfl (by simp)
theorem shiftRight (b : BitVec 4) (n : BitVec 6) : Statement (.shiftRight b n) :=
  statement_of_byte rfl rfl rfl (by simp)
theorem shiftRightAndMultByByte (b : BitVec 4) (n : BitVec 6) : Statement (.shiftRightAndMultByByte b n) :=
  statement_of_byte rfl rfl rfl (by simp)
theorem shiftLeft (b : BitVec 4) (n : BitVec 6) : Statement (.shiftLeft b n) :=
  statement_of_byte rfl rfl rfl (by simp)
theorem shiftLeftByte (b : BitVec 4) (n : BitVec 6) : Statement (.shiftLeftByte b n) :=
  statement_of_byte rfl rfl rfl (by simp)
theorem binarizeUsingThreshold (b : BitVec 4) (n : BitVec 6) : Statement (.binarizeUsingThreshold b n) :=
  statement_of_byte rfl rfl rfl (by simp)
theorem clipToRange (b : BitVec 4) (n : BitVec 6) : Statement (.clipToRange b n) :=
  statement_of_byte rfl rfl rfl (by simp)
theorem normalizeLinear (b : BitVec 4) (n : BitVec 6) : Statement (.normalizeLinear b n) :=
  statement_of_byte rfl rfl rfl (by simp)
theorem addUint (b : BitVec 4) (n : BitVec 6) : Statement (.addUint b n) :=
  statement_of_byte rfl rfl rfl (by simp)
theorem subUint (b : BitVec 4) (n : BitVec 6) : Statement (.subUint b n) :=
  statement_of_byte rfl rfl rfl (by simp)
theorem shiftLeftUint (b : BitVec 4) (n : BitVec 6) : Statement (.shiftLeftUint b n) :=
  statement_of_byte rfl rfl rfl (by simp)
theorem shiftRightUint (b : BitVec 4) (n : BitVec 6) : Statement (.shiftRightUint b n) :=
  statement_of_byte rfl rfl rfl (by simp)
theorem reservedMode0 (f : BitVec 2) (b : BitVec 4) (n : BitVec 6) :
    Statement (.reservedMode0 f b n) :=
  statement_of_range rfl rfl (by decide) (by revert f; decide) (by simp)
theorem reservedMode1 (f : BitVec 2) (b : BitVec 4) (n : BitVec 6) :
    Statement (.reservedMode1 f b n) :=
  statement_of_range rfl rfl (by decide) (by revert f; decide) (by simp)
theorem reservedMode2Low (f : BitVec 2) (b : BitVec 4) (n : BitVec 6) :
    Statement (.reservedMode2Low f b n) :=
  statement_of_range rfl rfl (by decide) (by revert f; decide) (by simp)
theorem reservedMode2High (f : BitVec 3) (b : BitVec 4) (n : BitVec 6) :
    Statement (.reservedMode2High f b n) :=
  statement_of_range rfl rfl (by decide) (by revert f; decide) (by simp)
theorem neighborhood (f : BitVec 4) (b : BitVec 4) (n : BitVec 6) :
    Statement (.neighborhood f b n) :=
  statement_of_range rfl rfl (by decide) (by revert f; decide) (by simp)
theorem reservedBits (w : Word) : Statement (.reservedBits w) := by
  intro h
  exact ⟨by simp [row], fun _ => ⟨w, rfl⟩, fun _ => by simpa [Instr.wellFormed, encode] using h⟩

end Sys2Proof.Laws.OpcodeRow
end

