-- ==== Sys2Proof/Tests/Slice0.lean ====
section
/-! SUPPORT. The package's own tests. Expected results are those of 95_test_vectors.md and of the
rules' own examples. The witnesses at the end meet each statement's hypotheses. -/

namespace Sys2Proof.Tests

-- One theorem after another: side by side, their threads' stacks take more memory than a check has.
set_option Elab.async false

open Sys2Proof.Machine Sys2Proof.Claims

/-! ## WellFormed: the one check, and a term it refuses -/

theorem test_reserved_bits_word_is_ill_formed : (Instr.reservedBits 0x17).wellFormed = false := by
  decide
theorem test_reserved_bits_word_is_well_formed :
    (Instr.reservedBits 0x40).wellFormed = true ∧ (Instr.reservedBits 0x1000).wellFormed = true ∧
    (Instr.reservedBits 0x400000).wellFormed = true ∧
    (Instr.reservedBits 0x80000017).wellFormed = true := by decide
theorem test_ignored_fields_are_well_formed : (Instr.add 15 63).wellFormed = true := by decide

/-! ## Decoding: one word for each constructor, RES2 SHAMT RES1 BPPM1 RES0 MODE FUNC
(30_encoding.md R50, R52; 95_test_vectors.md section 2) -/

theorem test_decode_add :
    decode 0b0000000000_000000_0000_0000_00_00_0000 = .add 0 0 := by decide
theorem test_decode_mean :
    decode 0b0000000000_000000_0000_0000_00_00_0001 = .mean 0 0 := by decide
theorem test_decode_sub :
    decode 0b0000000000_000000_0000_0000_00_00_0010 = .sub 0 0 := by decide
theorem test_decode_abs_diff :
    decode 0b0000000000_000000_0000_0000_00_00_0011 = .absDiff 0 0 := by decide
theorem test_decode_mult :
    decode 0b0000000000_000000_0000_0000_00_00_0100 = .mult 0 0 := by decide
theorem test_decode_mult_unbound :
    decode 0b0000000000_000000_0000_0000_00_00_0101 = .multUnbound 0 0 := by decide
theorem test_decode_mult_inv :
    decode 0b0000000000_000000_0000_0000_00_00_0110 = .multInv 0 0 := by decide
theorem test_decode_mult_divby2 :
    decode 0b0000000000_000000_0000_0000_00_00_0111 = .multDivby2 0 0 := by decide
theorem test_decode_mult_divby4 :
    decode 0b0000000000_000000_0000_0000_00_00_1000 = .multDivby4 0 0 := by decide
theorem test_decode_bit_and :
    decode 0b0000000000_000000_0000_0000_00_00_1001 = .bitAnd 0 0 := by decide
theorem test_decode_bit_or :
    decode 0b0000000000_000000_0000_0000_00_00_1010 = .bitOr 0 0 := by decide
theorem test_decode_div :
    decode 0b0000000000_100001_0000_1001_00_00_1011 = .div 9 33 := by decide
theorem test_decode_bit_negation :
    decode 0b0000000000_111111_0000_0000_00_01_0000 = .bitNegation 0 63 := by decide
theorem test_decode_add_byte :
    decode 0b0000000000_000000_0000_0101_00_01_0001 = .addByte 5 0 := by decide
theorem test_decode_add_byte_to_half :
    decode 0b0000000000_000000_0000_0000_00_01_0010 = .addByteToHalf 0 0 := by decide
theorem test_decode_sub_byte :
    decode 0b0000000000_000000_0000_0000_00_01_0011 = .subByte 0 0 := by decide
theorem test_decode_mult_by_byte :
    decode 0b0000000000_000000_0000_0000_00_01_0100 = .multByByte 0 0 := by decide
theorem test_decode_shift_right :
    decode 0b0000000000_000001_0000_0000_00_01_0101 = .shiftRight 0 1 := by decide
theorem test_decode_shift_right_and_mult_by_byte :
    decode 0b0000000000_000010_0000_0000_00_01_0110 = .shiftRightAndMultByByte 0 2 := by decide
theorem test_decode_shift_left :
    decode 0b0000000000_000011_0000_0000_00_01_0111 = .shiftLeft 0 3 := by decide
theorem test_decode_shift_left_byte :
    decode 0b0000000000_001000_0000_0000_00_01_1000 = .shiftLeftByte 0 8 := by decide
theorem test_decode_binarize_using_threshold :
    decode 0b0000000000_000000_0000_0000_00_01_1001 = .binarizeUsingThreshold 0 0 := by decide
theorem test_decode_clip_to_range :
    decode 0b0000000000_000000_0000_0000_00_01_1010 = .clipToRange 0 0 := by decide
theorem test_decode_normalize_linear :
    decode 0b0000000000_000000_0000_0000_00_01_1011 = .normalizeLinear 0 0 := by decide
theorem test_decode_add_uint :
    decode 0b0000000000_000000_0000_0010_00_10_0000 = .addUint 2 0 := by decide
theorem test_decode_sub_uint :
    decode 0b0000000000_000000_0000_0001_00_10_0001 = .subUint 1 0 := by decide
theorem test_decode_shift_left_uint :
    decode 0b0000000000_100000_0000_1111_00_10_0010 = .shiftLeftUint 15 32 := by decide
theorem test_decode_shift_right_uint :
    decode 0b0000000000_001000_0000_0011_00_10_0011 = .shiftRightUint 3 8 := by decide
theorem test_decode_reserved_mode0 :
    decode 0b0000000000_000000_0000_0000_00_00_1100 = .reservedMode0 0 0 0 := by decide
theorem test_decode_reserved_mode1 :
    decode 0b0000000000_000000_0000_0000_00_01_1111 = .reservedMode1 3 0 0 := by decide
theorem test_decode_reserved_mode2_low :
    decode 0b0000000000_000000_0000_0000_00_10_0100 = .reservedMode2Low 0 0 0 := by decide
theorem test_decode_reserved_mode2_high :
    decode 0b0000000000_000101_0000_0110_00_10_1110 = .reservedMode2High 6 6 5 := by decide
theorem test_decode_neighborhood :
    decode 0b0000000000_000000_0000_1111_00_11_1111 = .neighborhood 15 15 0 := by decide
theorem test_decode_reserved_bits :
    decode 0xFF = .reservedBits 0xFF ∧ decode 0x1000 = .reservedBits 0x1000 ∧
    decode 0x400000 = .reservedBits 0x400000 ∧ decode 0x80000017 = .reservedBits 0x80000017 := by
  decide

/-! ## States -/

/-- A state with the given shadow registers in phase `p`. -/
def inPhase (p : Phase) (r : Operands) : State := { State.reset with phase := p, sh := r }

/-- Operands with the given buffers and PARAM. -/
def buffersAt (src1 src2 dst : Addr) (len param : Word) : Operands :=
  { Operands.zero with src1 := src1, src2 := src2, dst := dst, len := len, param := param }

/-- The byte at `a` in the next state. -/
def byteAt (a : Addr) : Host.Outcome State Fault Refusal → Option Nat
  | .next t => some (t.mem.read a).toNat
  | .fault _ | .refused _ => none

/-- STATUS in the next state. -/
def statusAfter : Host.Outcome State Fault Refusal → Option Word
  | .next t => some (statusWord t)
  | .fault _ | .refused _ => none

/-! ## MODE 0: the last element of a one-byte command (95_test_vectors.md section 4.1) -/

/-- One element over the source bytes `a` and `b`, and the byte it writes. -/
def dualByte (i : Instr) (a b : Byte) (same : Bool := false) : Option Nat :=
  byteAt 0x300 (exec i { inPhase .run (buffersAt 0x100 0x200 0x300 1 0) with
    count := 1
    mem := (Memory.write [] 0x100 a).write 0x200 b
    params := { multSameSource := same, window := none } })

theorem test_add :
    dualByte (.add 0 0) 200 100 = some 255 ∧
    dualByte (.add 0 0) 100 50 = some 150 := by
  decide +kernel
theorem test_mean :
    dualByte (.mean 0 0) 0 255 = some 128 ∧
    dualByte (.mean 0 0) 1 0 = some 1 := by
  decide +kernel
theorem test_sub :
    dualByte (.sub 0 0) 50 100 = some 0 ∧
    dualByte (.sub 0 0) 200 100 = some 100 := by
  decide +kernel
theorem test_abs_diff :
    dualByte (.absDiff 0 0) 0 255 = some 255 ∧
    dualByte (.absDiff 0 0) 100 50 = some 50 := by
  decide +kernel
theorem test_mult :
    dualByte (.mult 0 0) 100 50 = some 19 ∧
    dualByte (.mult 0 0) 254 255 = some 254 := by
  decide +kernel
theorem test_mult_unbound :
    dualByte (.multUnbound 0 0) 255 255 = some 1 ∧
    dualByte (.multUnbound 0 0) 200 100 = some 32 := by
  decide +kernel
theorem test_mult_inv :
    dualByte (.multInv 0 0) 100 50 = some 130 ∧
    dualByte (.multInv 0 0) 0 255 = some 255 := by
  decide +kernel
theorem test_mult_divby2 :
    dualByte (.multDivby2 0 0) 255 255 = some 127 ∧
    dualByte (.multDivby2 0 0) 200 100 = some 39 := by
  decide +kernel
theorem test_mult_divby4 :
    dualByte (.multDivby4 0 0) 255 255 = some 63 ∧
    dualByte (.multDivby4 0 0) 200 100 = some 19 := by
  decide +kernel
theorem test_bit_and :
    dualByte (.bitAnd 0 0) 200 100 = some 64 ∧
    dualByte (.bitAnd 0 0) 254 255 = some 254 := by
  decide +kernel
theorem test_bit_or :
    dualByte (.bitOr 0 0) 200 100 = some 236 ∧
    dualByte (.bitOr 0 0) 0 255 = some 255 := by
  decide +kernel
theorem test_div :
    dualByte (.div 0 0) 1 0 = some 0 ∧
    dualByte (.div 0 0) 50 100 = some 127 ∧
    dualByte (.div 0 0) 254 255 = some 254 ∧
    dualByte (.div 0 0) 200 100 = some 255 := by
  decide +kernel
theorem test_mult_same_source :
    dualByte (.mult 0 0) 100 50 true = some 39 ∧ dualByte (.mult 0 0) 254 255 true = some 253 := by
  decide +kernel

/-! ## MODE 1: the validate step, and the LUT it fills (95_test_vectors.md section 4.2) -/

/-- The LUT entry of `v` after the validate step. -/
def lutByte (i : Instr) (param : Word) (v : Byte) : Option Nat :=
  match exec i (inPhase .validate (buffersAt 0x100 0 0x300 4 param)) with
  | .next t => if t.phase = .run then some (t.lutAt v).toNat else none
  | .fault _ | .refused _ => none

theorem test_bit_negation :
    lutByte (.bitNegation 0 0) 0x0 0 = some 255 ∧
    lutByte (.bitNegation 0 0) 0x0 200 = some 55 := by
  decide +kernel
theorem test_add_byte :
    lutByte (.addByte 0 0) 0xA 250 = some 255 ∧
    lutByte (.addByte 0 0) 0xA 99 = some 109 := by
  decide +kernel
theorem test_add_byte_to_half :
    lutByte (.addByteToHalf 0 0) 0xC8 2 = some 201 ∧
    lutByte (.addByteToHalf 0 0) 0xC8 127 = some 255 := by
  decide +kernel
theorem test_sub_byte :
    lutByte (.subByte 0 0) 0xA 2 = some 0 ∧
    lutByte (.subByte 0 0) 0xA 255 = some 245 := by
  decide +kernel
theorem test_mult_by_byte :
    lutByte (.multByByte 0 0) 0x1 99 = some 99 ∧
    lutByte (.multByByte 0 0) 0x1 255 = some 255 := by
  decide +kernel
theorem test_mult_by_byte_again :
    lutByte (.multByByte 0 0) 0x2 127 = some 0 ∧
    lutByte (.multByByte 0 0) 0x2 128 = some 1 := by
  decide +kernel
theorem test_shift_right :
    lutByte (.shiftRight 0 7) 0x0 127 = some 0 ∧
    lutByte (.shiftRight 0 7) 0x0 255 = some 1 := by
  decide +kernel
theorem test_shift_right_and_mult_by_byte :
    lutByte (.shiftRightAndMultByByte 0 1) 0xC8 99 = some 38 ∧
    lutByte (.shiftRightAndMultByByte 0 1) 0xC8 255 = some 99 := by
  decide +kernel
theorem test_shift_left :
    lutByte (.shiftLeft 0 1) 0x0 127 = some 254 ∧
    lutByte (.shiftLeft 0 1) 0x0 128 = some 255 := by
  decide +kernel
theorem test_shift_left_byte :
    lutByte (.shiftLeftByte 0 3) 0x0 99 = some 24 ∧
    lutByte (.shiftLeftByte 0 3) 0x0 255 = some 248 := by
  decide +kernel
theorem test_binarize_using_threshold :
    lutByte (.binarizeUsingThreshold 0 0) 0x64 99 = some 0 ∧
    lutByte (.binarizeUsingThreshold 0 0) 0x64 100 = some 255 := by
  decide +kernel
theorem test_clip_to_range :
    lutByte (.clipToRange 0 0) 0xAC8 128 = some 200 ∧
    lutByte (.clipToRange 0 0) 0xAC8 200 = some 10 := by
  decide +kernel
theorem test_normalize_linear :
    lutByte (.normalizeLinear 0 0) 0xFF00C864 99 = some 0 ∧
    lutByte (.normalizeLinear 0 0) 0xFF00C864 127 = some 68 := by
  decide +kernel
theorem test_normalize_linear_again :
    lutByte (.normalizeLinear 0 0) 0xFF0064C8 127 = some 186 ∧
    lutByte (.normalizeLinear 0 0) 0xFF0064C8 200 = some 0 := by
  decide +kernel

/-! ## MODE 2: one unit (95_test_vectors.md section 4.3) -/

/-- The unit at offset 0 after one element over the source bytes `u`, with the constant bytes
`cb`. -/
def unitAfter (i : Instr) (cb u : List Byte) : Option (List Nat) :=
  match exec i { inPhase .run (buffersAt 0x100 0 0x300 16 0) with
    count := 1
    cb := cb
    mem := Memory.writeBytes [] 0x100 0 u } with
  | .next t => some ((t.mem.readBytes 0x300 0 (unitBytes i)).map BitVec.toNat)
  | .fault _ | .refused _ => none

theorem test_add_uint :
    unitAfter (.addUint 2 0) [0x01, 0x02, 0xFF] [0x10, 0x20, 0xF0] = some [0x11, 0x22, 0xFF] ∧
    unitAfter (.addUint 2 0) [0x01, 0x02, 0xFF] [0x01, 0x02, 0xFF] = some [0x02, 0x04, 0xFF] := by
  decide +kernel
theorem test_sub_uint :
    unitAfter (.subUint 1 0) [0x01, 0x80] [0x10, 0x20] = some [0x0F, 0x00] ∧
    unitAfter (.subUint 1 0) [0x01, 0x80] [0x02, 0xFF] = some [0x01, 0x7F] := by decide +kernel
theorem test_shift_left_uint :
    unitAfter (.shiftLeftUint 3 4) [] [0x12, 0x34, 0x56, 0x78] = some [0x23, 0x45, 0x67, 0x80] ∧
    unitAfter (.shiftLeftUint 3 32) [] [0x12, 0x34, 0x56, 0x78] = some [0, 0, 0, 0] := by
  decide +kernel
theorem test_shift_right_uint :
    unitAfter (.shiftRightUint 2 4) [] [0x12, 0x34, 0x56] = some [0x01, 0x23, 0x45] ∧
    unitAfter (.shiftRightUint 1 9) [] [0xFF, 0x00] = some [0x00, 0x7F] := by decide +kernel

/-- The constant bytes that the validate step fills, most significant first (42_unit.md R111). -/
theorem test_constant_bytes :
    (match exec (.addUint 2 0) (inPhase .validate
        { buffersAt 0x100 0 0x300 7 0 with uconst0 := 0x050102FF }) with
      | .next t => some (t.plan, t.count, t.cb.take 3)
      | .fault _ | .refused _ => none) = some (.op, 2, [0x01, 0x02, 0xFF]) := by decide +kernel

/-! ## Validation and STATUS (95_test_vectors.md section 3) -/

/-- STATUS after the validate step, from SRC1 = 0x1000, SRC2 = 0x2000, DST = 0x3000. -/
def verdict (i : Instr) (len : Word) (src1 : Addr := 0x1000) (src2 : Addr := 0x2000)
    (dst : Addr := 0x3000) : Option Word :=
  statusAfter (exec i (inPhase .validate (buffersAt src1 src2 dst len 0x00FF3232)))

theorem test_null_buffers :
    verdict (.add 0 0) 4 (src2 := 0) = some 0x16 ∧ verdict (.bitNegation 0 0) 4 (src2 := 0) = some 1 ∧
    verdict (.bitNegation 0 0) 0 (dst := 0) = some 0x16 := by decide +kernel
theorem test_shift_ranges :
    verdict (.shiftLeft 0 9) 0 = some 0x0A ∧ verdict (.shiftLeft 0 9) 4 = some 0x26 ∧
    verdict (.shiftLeft 0 8) 4 = some 1 ∧ verdict (.shiftLeftUint 3 32) 4 = some 1 ∧
    verdict (.shiftLeftUint 3 33) 4 = some 0x26 := by decide +kernel
theorem test_reserved_words :
    verdict (decode 0x30) 0 (src1 := 0) (dst := 0) = some 0x36 ∧
    verdict (decode 0x00400017) 4 (src1 := 0) = some 0x46 ∧ verdict (decode 0x0C) 4 = some 0x46 ∧
    verdict (decode 0x1F) 4 = some 0x46 ∧ verdict (decode 0x24) 4 = some 0x46 ∧
    verdict (decode 0x28) 4 = some 0x46 := by decide +kernel
theorem test_degenerate_normalize : verdict (.normalizeLinear 0 0) 4 = some 0x0A := by
  decide +kernel
theorem test_unit_short_and_copy :
    statusAfter (exec (.addUint 3 0) (inPhase .validate
      { buffersAt 0x1000 0 0x3000 3 0 with uconst0 := 5 })) = some 0x0A ∧
    statusAfter (exec (.addUint 3 0) (inPhase .validate (buffersAt 0x1000 0 0x3000 3 0))) =
      some 1 := by decide +kernel

/-! ## The machine around the engine -/

/-- A CMD write while BUSY sets DROP and leaves CMD (95_test_vectors.md V15). -/
theorem test_dropped_command :
    (match hostMove (.writeReg 0 .word 0x17) (inPhase .run Operands.zero) with
      | .next t => some (statusWord t, t.reg.cmd)
      | .fault _ | .refused _ => none) = some (0x101, 0) := by decide +kernel

/-- `Ack` after it clears DONE and DROP and keeps the rest (95_test_vectors.md V16). -/
theorem test_ack :
    (match hostMove (.writeReg 4 .word 0x102)
        { State.reset with status := ⟨true, true, false, .outOfRange, true⟩ } with
      | .next t => some (statusWord t)
      | .fault _ | .refused _ => none) = some 0x24 := by decide +kernel

/-- The step after placing a word runs it: from reset, with null buffers, it fails. -/
theorem test_placed_word :
    statusAfter (step (State.reset.withFetchWord 32 0x00000010)) = some 0x16 ∧
    statusAfter (step (State.reset.withFetchWord 32 0x00000040)) = some 0x46 := by decide +kernel

/-- A buffer that runs past the top of memory wraps to address 0 (20_memory.md R32). -/
theorem test_buffer_wraps : bufAddr 0xFFFFFFFF 1 = 0 ∧ inBuffer 0xFFFFFFFF 2 0 = true := by
  decide

/-- Memory keeps its canonical form: writing what an unlisted byte reads as removes the entry. -/
theorem test_write_removes :
    (Memory.write [(1, 5), (3, 7)] 3 0 = [(1, 5)]) ∧
    (Memory.write [(1, 5), (3, 7)] 2 9 = [(1, 5), (2, 9), (3, 7)]) := by decide

/-! ## The assembler (95_test_vectors.md section 5) -/

/-- Program P1's first two statements; the Wait goes back to its own read. -/
theorem test_assemble_add_wait :
    assembleFrom 0 [.add 0x1200 0x1000 0x1100 4, .wait, .ack] = some
      [opWrite 0x0C 0x1000, opWrite 0x10 0x1100, opWrite 0x14 0x1200, opWrite 0x18 4,
        opWrite 0x00 0x00000000, opRead 0x04, .branch 1 1 5, opWrite 0x04 0x00000102] := by decide

/-- Program P3's NormalizeLinear and Binarize: no SRC2, and PARAM's unused bytes 0. -/
theorem test_assemble_scalar :
    (Statement.normalizeLinear 0x3000 0x3000 8 100 200 0 255).assemble 0 = some
      [opWrite 0x0C 0x3000, opWrite 0x14 0x3000, opWrite 0x18 8, opWrite 0x1C 0xFF00C864,
        opWrite 0x00 0x0000001B] ∧
    (Statement.binarizeUsingThreshold 0x3000 0x3000 8 128).assemble 0 = some
      [opWrite 0x0C 0x3000, opWrite 0x14 0x3000, opWrite 0x18 8, opWrite 0x1C 0x00000080,
        opWrite 0x00 0x00000019] := by decide

/-- Program P2's AddUint.3 and ShiftRightUint.4: the constant low word first, for AddUint alone. -/
theorem test_assemble_unit :
    (Statement.addUint 3 0x2100 0x2000 7 0x0102FF).assemble 0 = some
      [opWrite 0x0C 0x2000, opWrite 0x14 0x2100, opWrite 0x18 7, opWrite 0x20 0x000102FF,
        opWrite 0x24 0, opWrite 0x28 0, opWrite 0x2C 0, opWrite 0x00 0x00000220] ∧
    (Statement.shiftRightUint 4 0x2100 0x2100 9 8).assemble 0 = some
      [opWrite 0x0C 0x2100, opWrite 0x14 0x2100, opWrite 0x18 9, opWrite 0x00 0x00080323] := by
  decide

/-- Immediates that do not fit, and an N beyond its range that does (30_encoding.md R63). -/
theorem test_assembly_errors :
    (Statement.addByte 1 1 1 256).assemble 0 = none ∧
    (Statement.shiftLeft 1 1 1 64).assemble 0 = none ∧
    (Statement.addUint 17 1 1 1 0).assemble 0 = none ∧
    (Statement.addUint 0 1 1 1 0).assemble 0 = none ∧
    ((Statement.shiftLeft 1 1 1 9).assemble 0).isSome = true := by decide

/-- Loading places the contents a program starts from (95_test_vectors.md P1). -/
theorem test_load :
    (State.reset.load [] [(0x1000, [0x10, 0x80, 0xFF, 0x00]), (0x1100, [0x20])]).mem =
      [(0x1000, 0x10), (0x1001, 0x80), (0x1002, 0xFF), (0x1100, 0x20)] := by decide

/-! ## Witnesses: states and operands that meet each statement's hypotheses -/

/-- A command in VALIDATE with the given CMD word. -/
def accepted (w : Word) (src1 src2 dst : Addr) (len param : Word) : State :=
  inPhase .validate { buffersAt src1 src2 dst len param with cmd := w }

/-- A command in RUN before element `k` of `n`. -/
def running (w : Word) (src1 src2 dst : Addr) (len param : Word) (p : Plan) (k n : Nat) : State :=
  { inPhase .run { buffersAt src1 src2 dst len param with cmd := w } with
    plan := p, k := k, count := n }

theorem witness_DecodeInvertsEncode :
    (Instr.reservedBits 0x80000000).wellFormed = true ∧ (Instr.div 15 63).wellFormed = true := by
  decide

/-- The hypotheses of each clause of a MODE 0 rule. The elements are the last one, of a command in
place over a buffer that wraps, and one whose destination lies just before its sources. -/
def DualWitness (mk : BitVec 4 → BitVec 6 → Instr) : Prop :=
  (∃ s : State, s.phase = .validate ∧ (s.sh.src1 = 0 ∨ s.sh.src2 = 0 ∨ s.sh.dst = 0)) ∧
  (∃ s : State, s.phase = .validate ∧ s.sh.src1 ≠ 0 ∧ s.sh.src2 ≠ 0 ∧ s.sh.dst ≠ 0 ∧
    s.sh.len = 0) ∧
  (∃ s : State, s.phase = .validate ∧ s.sh.src1 ≠ 0 ∧ s.sh.src2 ≠ 0 ∧ s.sh.dst ≠ 0 ∧
    s.sh.len ≠ 0) ∧
  (∃ s : State, s.phase = .run ∧ s.raced = false ∧ readsClean s (mk 15 63) s.k 1 ∧
    s.k + 1 = s.count ∧ s.sh.dst = s.sh.src1) ∧
  (∃ s : State, s.phase = .run ∧ s.raced = false ∧ readsClean s (mk 0 0) s.k 1 ∧
    s.k + 1 ≠ s.count)

/-- Whether no source byte of the element is one of the destination bytes before it. -/
def clean (s : State) (off n : Nat) : Bool :=
  [s.sh.src1, s.sh.src2].all fun base => (List.range n).all fun j =>
    !inBuffer s.sh.dst off (bufAddr base (off + j))

theorem readsClean_of {s : State} {i : Instr} {off n : Nat}
    (h : clean s off n = true) : readsClean s i off n := by
  intro base hb j hj
  have hb' : base ∈ [s.sh.src1, s.sh.src2] := by
    unfold readBuffers at hb
    split at hb
    · split at hb <;> simp_all
    · unfold sources at hb
      split at hb <;> simp_all
  have := List.all_eq_true.mp (List.all_eq_true.mp h base hb') j (List.mem_range.mpr hj)
  simpa [State.overwritten] using this

theorem dualWitness (mk : BitVec 4 → BitVec 6 → Instr) : DualWitness mk :=
  ⟨⟨accepted 0 0x1000 0 0x3000 0 0, by decide⟩,
    ⟨accepted 0 0x1000 0x2000 0x3000 0 0, by decide⟩,
    ⟨accepted 0 0x1000 0x2000 0x3000 1 0, by decide⟩,
    ⟨running 0 0xFFFFFFFF 0x2000 0xFFFFFFFF 3 0 .op 2 3, by decide, by decide,
      readsClean_of (by decide +kernel), by decide, by decide⟩,
    ⟨running 0 0x1001 0x1001 0x1000 3 0 .op 1 3, by decide, by decide,
      readsClean_of (by decide +kernel), by decide⟩⟩

theorem witness_AddSaturates : DualWitness .add :=
  dualWitness _
theorem witness_MeanRoundsUp : DualWitness .mean :=
  dualWitness _
theorem witness_SubSaturatesAtZero : DualWitness .sub :=
  dualWitness _
theorem witness_AbsDiffIsTheDistance : DualWitness .absDiff :=
  dualWitness _
theorem witness_MultIsTheNormalizedProduct : DualWitness .mult :=
  dualWitness _
theorem witness_MultUnboundWraps : DualWitness .multUnbound :=
  dualWitness _
theorem witness_MultInvScreens : DualWitness .multInv :=
  dualWitness _
theorem witness_MultDivby2And4ScaleTheProduct : DualWitness .multDivby2 ∧ DualWitness .multDivby4 :=
  ⟨dualWitness _, dualWitness _⟩
theorem witness_BitAndAndBitOrOfBytes : DualWitness .bitAnd ∧ DualWitness .bitOr :=
  ⟨dualWitness _, dualWitness _⟩
theorem witness_DivByZeroGivesZero : DualWitness .div :=
  dualWitness _

/-- The hypotheses of each clause of a MODE 1 rule; the clauses for shift amounts out of range and
for parameters without a mapping have one where the filter has such amounts or parameters. -/
structure ScalarWitness (mk : BitVec 4 → BitVec 6 → Instr) (bad : BitVec 6 → Prop)
    (noMap : Operands → Prop) (f : BitVec 6 → Operands → Nat → Nat) : Prop where
  null : ∃ s : State, s.phase = .validate ∧ (s.sh.src1 = 0 ∨ s.sh.dst = 0)
  zero : ∃ s : State, s.phase = .validate ∧ s.sh.src1 ≠ 0 ∧ s.sh.dst ≠ 0 ∧ s.sh.len = 0
  starts : ∃ n, ∃ s : State, s.phase = .validate ∧ s.sh.src1 ≠ 0 ∧ s.sh.dst ≠ 0 ∧ s.sh.len ≠ 0 ∧
    ¬ bad n ∧ ¬ noMap s.sh
  element : ∃ n, ∃ s : State, s.phase = .run ∧ s.raced = false ∧ readsClean s (mk 15 n) s.k 1 ∧
    (∀ v, (s.lutAt v).toNat = f n s.sh v.toNat) ∧ s.k + 1 = s.count

/-- A state at the last element of an in-place command with the given LUT. -/
def withLut (param : Word) (f : Nat → Nat) : State :=
  { running 0 0xFFFFFFFE 0 0xFFFFFFFE 3 param .op 2 3 with
    lut := (List.range 256).map fun v => BitVec.ofNat 8 (f v) }

theorem withLut_lutAt (param : Word) (f : Nat → Nat) (v : Byte) (h : f v.toNat < 256) :
    ((withLut param f).lutAt v).toNat = f v.toNat := by
  have e : (List.range 256)[v.toNat]? = some v.toNat := List.getElem?_range v.isLt
  simp [withLut, State.lutAt, List.getD, e, Nat.mod_eq_of_lt h]

theorem scalarWitness {mk : BitVec 4 → BitVec 6 → Instr} {bad : BitVec 6 → Prop}
    {noMap : Operands → Prop} {f : BitVec 6 → Operands → Nat → Nat} (n : BitVec 6) (param : Word)
    (hb : ¬ bad n) (hm : ∀ r : Operands, r.param = param → ¬ noMap r)
    (hf : ∀ v : Byte, f n (withLut param fun _ => 0).sh v.toNat < 256) :
    ScalarWitness mk bad noMap f where
  null := ⟨accepted 0 0x1000 0 0 0 0, by decide⟩
  zero := ⟨accepted 0 0x1000 0 0x3000 0 0, by decide⟩
  starts := ⟨n, accepted 0 0x1000 0 0x3000 1 param, rfl, show (0x1000 : Addr) ≠ 0 by decide,
    show (0x3000 : Addr) ≠ 0 by decide, show (1 : Word) ≠ 0 by decide, hb, hm _ rfl⟩
  element := ⟨n, withLut param (f n (withLut param fun _ => 0).sh), rfl, rfl,
    readsClean_of (by
      show ([(0xFFFFFFFE : Addr), 0].all fun base => (List.range 1).all fun j =>
        !inBuffer 0xFFFFFFFE 2 (bufAddr base (2 + j))) = true
      decide +kernel),
    fun v => withLut_lutAt _ _ v (hf v), rfl⟩

theorem witness_BitNegationComplements :
    ScalarWitness .bitNegation never never
      (fun _ _ s => 255 - s) :=
  scalarWitness 63 0x0000C80A (by simp [never]) (fun _ _ => by simp [never])
    (by decide +kernel)
theorem witness_AddByteSaturates :
    ScalarWitness .addByte never never
      (fun _ r s => min 255 (s + param r 0)) :=
  scalarWitness 63 0x0000C80A (by simp [never]) (fun _ _ => by simp [never])
    (by decide +kernel)
theorem witness_AddByteToHalfHalvesFirst :
    ScalarWitness .addByteToHalf never never
      (fun _ r s => min 255 (s / 2 + param r 0)) :=
  scalarWitness 63 0x0000C80A (by simp [never]) (fun _ _ => by simp [never])
    (by decide +kernel)
theorem witness_SubByteSaturatesAtZero :
    ScalarWitness .subByte never never
      (fun _ r s => s - param r 0) :=
  scalarWitness 63 0x0000C80A (by simp [never]) (fun _ _ => by simp [never])
    (by decide +kernel)
theorem witness_MultByByteWithIdentity :
    ScalarWitness .multByByte never never
      (fun _ r s => mbb (param r 0) s) :=
  scalarWitness 63 0x0000C80A (by simp [never]) (fun _ _ => by simp [never])
    (by decide +kernel)
theorem witness_ShiftRightIsLogical :
    ScalarWitness .shiftRight (fun n => 8 < n.toNat) never
      (fun n _ s => s / 2 ^ n.toNat) :=
  scalarWitness 8 0x0000C80A (by decide) (fun _ _ => by simp [never])
    (by decide +kernel)
theorem witness_ShiftRightIsLogical_out_of_range :
    (accepted 0 0x1000 0 0x3000 1 0).phase = .validate ∧
    (accepted 0 0x1000 0 0x3000 1 0).sh.len ≠ 0 ∧ 8 < (9 : BitVec 6).toNat ∧
    8 < (63 : BitVec 6).toNat := by decide
theorem witness_ShiftRightThenMultiply :
    ScalarWitness .shiftRightAndMultByByte (fun n => 8 < n.toNat) never
      (fun n r s => mbb (param r 0) (s / 2 ^ n.toNat)) :=
  scalarWitness 8 0x0000C80A (by decide) (fun _ _ => by simp [never])
    (by decide +kernel)
theorem witness_ShiftRightThenMultiply_out_of_range :
    (accepted 0 0x1000 0 0x3000 1 0).phase = .validate ∧
    (accepted 0 0x1000 0 0x3000 1 0).sh.len ≠ 0 ∧ 8 < (9 : BitVec 6).toNat ∧
    8 < (63 : BitVec 6).toNat := by decide
theorem witness_ShiftLeftSaturates :
    ScalarWitness .shiftLeft (fun n => 8 < n.toNat) never
      (fun n _ s => min 255 (s * 2 ^ n.toNat)) :=
  scalarWitness 8 0x0000C80A (by decide) (fun _ _ => by simp [never])
    (by decide +kernel)
theorem witness_ShiftLeftSaturates_out_of_range :
    (accepted 0 0x1000 0 0x3000 1 0).phase = .validate ∧
    (accepted 0 0x1000 0 0x3000 1 0).sh.len ≠ 0 ∧ 8 < (9 : BitVec 6).toNat ∧
    8 < (63 : BitVec 6).toNat := by decide
theorem witness_ShiftLeftByteWraps :
    ScalarWitness .shiftLeftByte (fun n => 8 < n.toNat) never
      (fun n _ s => s * 2 ^ n.toNat % 256) :=
  scalarWitness 8 0x0000C80A (by decide) (fun _ _ => by simp [never])
    (by decide +kernel)
theorem witness_ShiftLeftByteWraps_out_of_range :
    (accepted 0 0x1000 0 0x3000 1 0).phase = .validate ∧
    (accepted 0 0x1000 0 0x3000 1 0).sh.len ≠ 0 ∧ 8 < (9 : BitVec 6).toNat ∧
    8 < (63 : BitVec 6).toNat := by decide
theorem witness_BinarizeIsInclusive :
    ScalarWitness .binarizeUsingThreshold never never
      (fun _ r s => if param r 0 ≤ s then 255 else 0) :=
  scalarWitness 63 0x0000C80A (by simp [never]) (fun _ _ => by simp [never])
    (by decide +kernel)
theorem witness_ClipToRangeTestsLowerFirst :
    ScalarWitness .clipToRange never never
      (fun _ r s => if s < param r 0 then param r 0 else if param r 1 < s then param r 1 else s) :=
  scalarWitness 63 0x0000C80A (by simp [never]) (fun _ _ => by simp [never])
    (by decide +kernel)
theorem witness_NormalizeLinearIsTheFlooredRemap :
    ScalarWitness .normalizeLinear never (fun r => param r 1 = param r 0)
      (fun _ r s => normalized (param r 0) (param r 1) (param r 2) (param r 3) s) :=
  scalarWitness 63 0x00000100 (by simp [never]) (fun r h => by simp [param, h])
    (fun v => by
      simp only [normalized]
      omega)
theorem witness_NormalizeLinearIsTheFlooredRemap_degenerate :
    (accepted 0 0x1000 0 0x3000 1 0x00FF3232).phase = .validate ∧
    (accepted 0 0x1000 0 0x3000 1 0x00FF3232).sh.len ≠ 0 ∧
    param (accepted 0 0x1000 0 0x3000 1 0x00FF3232).sh 1 =
      param (accepted 0 0x1000 0 0x3000 1 0x00FF3232).sh 0 := by decide

/-- The hypotheses of each clause of a MODE 2 rule, but for out-of-range shift amounts. -/
structure UnitWitness (mk : BitVec 4 → BitVec 6 → Instr) (bad : BitVec 6 → Prop)
    (copies : BitVec 4 → BitVec 6 → Operands → Prop) (constant : Prop) : Prop where
  null : ∃ s : State, s.phase = .validate ∧ (s.sh.src1 = 0 ∨ s.sh.dst = 0)
  zero : ∃ s : State, s.phase = .validate ∧ s.sh.src1 ≠ 0 ∧ s.sh.dst ≠ 0 ∧ s.sh.len = 0
  short : ∃ b : BitVec 4, ∃ n, ∃ s : State, s.phase = .validate ∧ s.sh.src1 ≠ 0 ∧ s.sh.dst ≠ 0 ∧
    s.sh.len ≠ 0 ∧ ¬ bad n ∧ ¬ copies b n s.sh ∧ s.sh.len.toNat < b.toNat + 1
  copy : ∃ b, ∃ n, ∃ s : State, s.phase = .validate ∧ s.sh.src1 ≠ 0 ∧ s.sh.dst ≠ 0 ∧
    s.sh.len ≠ 0 ∧ ¬ bad n ∧ copies b n s.sh
  units : ∃ b : BitVec 4, ∃ n, ∃ s : State, s.phase = .validate ∧ s.sh.src1 ≠ 0 ∧ s.sh.dst ≠ 0 ∧
    s.sh.len ≠ 0 ∧ ¬ bad n ∧ ¬ copies b n s.sh ∧ b.toNat + 1 ≤ s.sh.len.toNat
  copyElement : ∃ b n, ∃ s : State, s.phase = .run ∧ s.plan = .copy ∧ s.raced = false ∧
    readsClean s (mk b n) s.k 1 ∧ s.k ≠ 0
  unitElement : ∃ b n, ∃ s : State, s.phase = .run ∧ s.plan = .op ∧ s.raced = false ∧
    readsClean s (mk b n) (s.k * (b.toNat + 1)) (b.toNat + 1) ∧
    (constant → ∀ j < b.toNat + 1,
      (s.cb.getD j 0).toNat = constantByte s.sh (b.toNat + 1) j) ∧ s.k ≠ 0

/-- The second three-byte unit of an in-place command, with the constant 0x010203 in `cb`. -/
def secondUnit (p : Plan) : State :=
  { running 0 0x1000 0 0x1000 7 0 p 1 2 with
    sh := { (running 0 0x1000 0 0x1000 7 0 p 1 2).sh with uconst0 := 0x00010203 }
    cb := [1, 2, 3] }

/-- A command in VALIDATE with the constant 0x0102FF. -/
def constantIs (len : Word) : State :=
  inPhase .validate { buffersAt 0x1000 0 0x3000 len 0 with uconst0 := 0x000102FF }

theorem unitWitness {mk : BitVec 4 → BitVec 6 → Instr} {bad : BitVec 6 → Prop}
    {copies : BitVec 4 → BitVec 6 → Operands → Prop} {constant : Prop}
    (n n' : BitVec 6) (hb : ¬ bad n) (hb' : ¬ bad n')
    (h3 : ¬ copies 2 n (constantIs 2).sh) (h3' : ¬ copies 2 n (constantIs 3).sh)
    (hc : copies 15 n' (accepted 0 0x1000 0 0x3000 1 0).sh) :
    UnitWitness mk bad copies constant where
  null := ⟨accepted 0 0x1000 0 0 0 0, by decide⟩
  zero := ⟨accepted 0 0x1000 0 0x3000 0 0, by decide⟩
  short := ⟨2, n, constantIs 2, by decide, by decide, by decide, by decide, hb, h3, by decide⟩
  copy := ⟨15, n', accepted 0 0x1000 0 0x3000 1 0, by decide, by decide, by decide, by decide, hb',
    hc⟩
  units := ⟨2, n, constantIs 3, by decide, by decide, by decide, by decide, hb, h3', by decide⟩
  copyElement := ⟨15, n, secondUnit .copy, rfl, rfl, rfl, readsClean_of (by decide +kernel),
    by decide⟩
  unitElement := ⟨2, n, secondUnit .op, rfl, rfl, rfl, readsClean_of (by decide +kernel),
    fun _ => by decide +kernel, by decide⟩

theorem witness_AddUintSaturatesEachByte :
    UnitWitness .addUint never
      (fun b _ r => ∀ j < b.toNat + 1, constantByte r (b.toNat + 1) j = 0) True :=
  unitWitness 0 63 (by simp [never]) (by simp [never])
    (by decide +kernel) (by decide +kernel) (by decide +kernel)
theorem witness_SubUintSaturatesEachByte :
    UnitWitness .subUint never
      (fun b _ r => ∀ j < b.toNat + 1, constantByte r (b.toNat + 1) j = 0) True :=
  unitWitness 0 63 (by simp [never]) (by simp [never])
    (by decide +kernel) (by decide +kernel) (by decide +kernel)
theorem witness_ShiftLeftUintShiftsTheUnit :
    UnitWitness .shiftLeftUint (fun n => 32 < n.toNat)
      (fun _ n _ => n.toNat = 0) False :=
  unitWitness 32 0 (by decide) (by decide) (by decide) (by decide) rfl
theorem witness_ShiftLeftUintShiftsTheUnit_out_of_range :
    (constantIs 4).phase = .validate ∧ (constantIs 4).sh.len ≠ 0 ∧ 32 < (33 : BitVec 6).toNat ∧
    32 < (63 : BitVec 6).toNat := by decide
theorem witness_ShiftRightUintShiftsTheUnit :
    UnitWitness .shiftRightUint (fun n => 32 < n.toNat)
      (fun _ n _ => n.toNat = 0) False :=
  unitWitness 32 0 (by decide) (by decide) (by decide) (by decide) rfl
theorem witness_ShiftRightUintShiftsTheUnit_out_of_range :
    (constantIs 4).phase = .validate ∧ (constantIs 4).sh.len ≠ 0 ∧ 32 < (33 : BitVec 6).toNat ∧
    32 < (63 : BitVec 6).toNat := by decide

/-! ### Validation and frames -/

theorem witness_ReservedCommandsFail :
    (accepted 0x40 0 0 0 0 0).phase = .validate ∧
    exec (.reservedBits 0x40) (accepted 0x40 0 0 0 0 0) =
      .next ((accepted 0x40 0 0 0 0 0).fail .illegalCmd) ∧
    ((accepted 0x40 0 0 0 0 0).fail .illegalCmd).status.ecode = .illegalCmd ∧
    (accepted 0x40 0 0 0 0 0).status.ecode ≠ .illegalCmd := ⟨rfl, rfl, rfl, by decide⟩

/-- One state and command for each clause, at the values where the clauses meet. -/
theorem witness_ValidationOrder :
    family (.reservedBits 0x40) = .illegal ∧ family (.neighborhood 0 0 0) = .neighborhood ∧
    (isFilter (.shiftLeft 0 9) = true ∧ (accepted 0 0 0 0x3000 0 0).sh.src1 = 0) ∧
    (isFilter (.shiftLeft 0 9) = true ∧ (accepted 0 0x1000 0 0x3000 0 0).sh.src1 ≠ 0 ∧
      (accepted 0 0x1000 0 0x3000 0 0).sh.dst ≠ 0 ∧ family (.shiftLeft 0 9) ≠ .dual ∧
      (accepted 0 0x1000 0 0x3000 0 0).sh.len = 0) ∧
    ((accepted 0 0x1000 0 0x3000 1 0).sh.len ≠ 0 ∧ 8 < (9 : BitVec 6).toNat ∧
      Instr.shiftLeft 0 9 ∈ ([.shiftRight 0 9, .shiftRightAndMultByByte 0 9, .shiftLeft 0 9,
        .shiftLeftByte 0 9] : List Instr)) ∧
    (32 < (33 : BitVec 6).toNat ∧
      Instr.shiftLeftUint 0 33 ∈ ([.shiftLeftUint 0 33, .shiftRightUint 0 33] : List Instr)) ∧
    (isFilter (.normalizeLinear 0 0) = true ∧
      param (accepted 0 0x1000 0 0x3000 1 0x5050).sh 1 =
        param (accepted 0 0x1000 0 0x3000 1 0x5050).sh 0) ∧
    (family (.addUint 2 0) = .unit ∧ (constantIs 2).sh.len ≠ 0 ∧
      (∃ j < 3, constantByte (constantIs 2).sh 3 j ≠ 0) ∧
      (constantIs 2).sh.len.toNat < unitBytes (.addUint 2 0)) ∧
    (unitBytes (.addUint 2 0) ≤ (constantIs 3).sh.len.toNat) ∧
    (∀ j < 16, constantByte (accepted 0 0x1000 0 0x3000 1 0).sh 16 j = 0) ∧
    (family (.add 0 0) = .dual ∧ (accepted 0 0x1000 0x2000 0x3000 1 0).sh.src2 ≠ 0) := by
  decide +kernel

theorem witness_CopyShortcutsCopy :
    (accepted 0 0x1000 0 0x3000 1 0).phase = .validate ∧
    (accepted 0 0x1000 0 0x3000 1 0).sh.src1 ≠ 0 ∧ (accepted 0 0x1000 0 0x3000 1 0).sh.dst ≠ 0 ∧
    (accepted 0 0x1000 0 0x3000 1 0).sh.len ≠ 0 ∧
    param (accepted 0 0x1000 0 0x3000 1 0).sh 0 = 0 ∧
    param (accepted 0 0x1000 0 0x3000 1 1).sh 0 = 1 := by decide

theorem witness_CompletionReportsTheOutcome :
    State.reset.status.drop = false ∧
    ({ State.reset with status := { Status.clear with drop := true } } : State).status.drop = true :=
  ⟨rfl, rfl⟩

theorem witness_ExecFrame :
    exec (.bitNegation 0 0) (accepted 0x10 0 0 0 0 0) =
      .next ((accepted 0x10 0 0 0 0 0).fail .invalidArg) := rfl

/-- AddUint over 7 bytes in units of 3, before its second unit: the trailing byte is at offset 6. -/
def midUnit : State :=
  { secondUnit .op with
    reg := { Operands.zero with cmd := 0x00000220 }
    sh := { (secondUnit .op).sh with cmd := 0x00000220 } }

theorem midUnit_inv : Inv midUnit where
  memory := nil_wf
  cleared := fun _ => ⟨rfl, rfl, rfl, rfl⟩
  failCode := by decide
  noopSucceeds := by decide
  command := fun _ => rfl
  validated := fun _ => by decide +kernel
  index := fun _ => by decide
  table := fun _ h => absurd h (by decide)
  constant := fun _ _ => by decide +kernel

theorem midUnit_next : ∃ t, exec midUnit.current midUnit = .next t := ⟨_, rfl⟩

theorem witness_WritesStayInTheDestination :
    Inv midUnit ∧ (∃ t, exec midUnit.current midUnit = .next t) ∧
    family midUnit.current = .unit ∧ midUnit.plan = .op ∧
    midUnit.sh.len.toNat / unitBytes midUnit.current * unitBytes midUnit.current ≤ 6 ∧
    6 < midUnit.sh.len.toNat :=
  ⟨midUnit_inv, midUnit_next, by decide +kernel⟩

theorem witness_ElementRunsWhateverItReads :
    isFilter (.add 0 0) = true ∧
    (running 0 0x1000 0x2000 0x1001 9 0 .op 5 9).phase = .run ∧
    ¬ readsClean (running 0 0x1000 0x2000 0x1001 9 0 .op 5 9) (.add 0 0) 5 1 := by
  refine ⟨rfl, rfl, fun h => ?_⟩
  exact h 0x1000 (by decide) 0 (by decide) (by decide +kernel)

theorem witness_IgnoredFieldsHaveNoEffect :
    SameButIgnored (.add 0 0) (.add 15 63) ∧ SameButIgnored (.shiftRight 0 8) (.shiftRight 15 8) ∧
    SameButIgnored (.addUint 2 0) (.addUint 2 63) ∧
    AgreeOnUsed (.addByte 0 0) (buffersAt 0x1000 0 0x3000 4 0x0A)
      { buffersAt 0x1000 7 0x3000 4 0xFFFFFF0A with cmd := 9, uconst0 := 1 } ∧
    AgreeOnUsed (.add 0 0) (buffersAt 0x1000 0x2000 0x3000 4 0) (buffersAt 0x1000 0x2000 0x3000 4 9) ∧
    AgreeOnUsed (.normalizeLinear 0 0) (buffersAt 0x1000 0 0x3000 4 1)
      (buffersAt 0x1000 5 0x3000 4 1) ∧
    AgreeOnUsed (.addUint 0 0) (buffersAt 0x1000 0 0x3000 4 1) (buffersAt 0x1000 5 0x3000 4 2) := by
  refine ⟨⟨0, 15, 0, 63, .inl ⟨.add, by simp, rfl, rfl⟩⟩,
    ⟨0, 15, 8, 8, .inr (.inl ⟨.shiftRight, by simp, rfl, rfl, rfl⟩)⟩,
    ⟨2, 2, 0, 63, .inr (.inr ⟨.addUint, by simp, rfl, rfl, rfl⟩)⟩, ?_, ?_, ?_, ?_⟩ <;>
    constructor <;>
    first | rfl | (intro _; rfl) | (intro _; decide) | (rintro ⟨_, _, h⟩ <;> simp at h)

/-! ### Registers, interrupt and memory -/

theorem witness_CmdWriteIsAcceptedOrDropped :
    State.reset.phase = .idle ∧ (accepted 0 0 0 0 0 0).phase ≠ .idle ∧
    (running 0 0 0 0 0 0 .op 0 1).phase ≠ .idle ∧
    ((0x3C : BitVec 6).toNat % 4 = 0 ∧ (0x3C : BitVec 6) ≠ 0 ∧ (0 : BitVec 6).toNat % 4 = 0 ∧
      (0 : BitVec 6) ≠ 0x3C) := by decide

theorem witness_OperandWritesTakeEffectAtOnce :
    (0x0C : BitVec 6) ∈ ([0x0C, 0x10, 0x14, 0x18, 0x1C, 0x20, 0x24, 0x28, 0x2C] :
      List (BitVec 6)) ∧ (0x3C : BitVec 6).toNat % 4 = 0 := by decide

theorem witness_RegisterWindowEdges :
    (0x30 : BitVec 6) ∈ ([0x30, 0x34, 0x38, 0x3C] : List (BitVec 6)) ∧
    (Width.half ≠ .word ∨ (0 : BitVec 6).toNat % 4 ≠ 0) ∧
    (Width.word ≠ .word ∨ (1 : BitVec 6).toNat % 4 ≠ 0) := by decide

theorem witness_InterruptFollowsDoneAndEnable :
    ((accepted 0x40 0 0 0 0 0).phase ≠ .idle ∧
      exec (.reservedBits 0x40) (accepted 0x40 0 0 0 0 0) =
        .next ((accepted 0x40 0 0 0 0 0).fail .illegalCmd) ∧
      ((accepted 0x40 0 0 0 0 0).fail .illegalCmd).phase = .idle) ∧
    (∃ t, hostMove (.writeReg 0x08 .word 1) State.reset = .next t) ∧
    (∃ t, hostMove (.writeReg 0x04 .word 2) State.reset = .next t) ∧
    (∃ t, State.reset.phase = .idle ∧ hostMove (.writeReg 0x00 .word 0) State.reset = .next t) ∧
    (∃ t, (accepted 0 0 0 0 0 0).phase ≠ .idle ∧
      hostMove (.writeReg 0x00 .word 0) (accepted 0 0 0 0 0 0) = .next t) ∧
    (∃ t, hostMove .reset State.reset = .next t) :=
  ⟨⟨by decide, rfl, rfl⟩, ⟨_, rfl⟩, ⟨_, rfl⟩, ⟨_, rfl, rfl⟩, ⟨_, by decide, rfl⟩, ⟨_, rfl⟩⟩

/-- A command over four bytes at 0x1000, into 0x3000, in RUN. -/
def busyState : State := running 0x10 0x1000 0 0x3000 4 0 .op 1 4

theorem witness_HostByteAccesses :
    busyState.inWindow 0x3003 = false ∧ busyState.inDestination 0x3003 = true ∧
    busyState.inDestination 0x3004 = false ∧ busyState.inBuffers 0x1000 = true ∧
    busyState.inBuffers 0x3003 = true ∧ busyState.inBuffers 0x3004 = false ∧
    inBuffer busyState.sh.dst busyState.sh.len.toNat 0x1000 = false ∧ 3 < busyState.sh.len.toNat ∧
    State.reset.phase = .idle := by
  decide +kernel

/-- A host move during the command that leaves it in progress. -/
theorem witness_HostByteAccesses_pre : ∃ t, busyState.phase ≠ .idle ∧
    hostMove (.writeReg 0x00 .word 1) busyState = .next t ∧ t.phase ≠ .idle :=
  ⟨_, by decide, rfl, by decide⟩

/-- With the register window at 0x4000, the bytes around it. -/
theorem witness_HostByteAccesses_window :
    ({ busyState with params := ⟨false, some 0x4000⟩ } : State).inWindow 0x3FFF = false ∧
    ({ busyState with params := ⟨false, some 0x4000⟩ } : State).inWindow 0x4000 = true ∧
    ({ busyState with params := ⟨false, some 0x4000⟩ } : State).inWindow 0x403F = true ∧
    ({ busyState with params := ⟨false, some 0x4000⟩ } : State).inWindow 0x4040 = false := by
  decide +kernel

theorem witness_IntegerFormsEqualTheExactFormulas : (1 : Byte) ≠ 0 := by decide

/-! ### The machine's step -/

theorem witness_StepRunsTheDecodedInstruction :
    (({ busyState with inputs := [.engine] } : State).inputs = .engine :: [] ∧
      ({ busyState with inputs := [.engine] } : State).windowConflict = false) ∧
    (busyState.inputs = [] ∧ busyState.phase ≠ .idle ∧ busyState.windowConflict = false) ∧
    busyState.params.window = none ∧ Halted State.reset := by
  refine ⟨⟨rfl, rfl⟩, ⟨rfl, by decide, rfl⟩, rfl, rfl, by decide, rfl⟩

/-- A window that no buffer of the command touches is no conflict, and one that does is. -/
theorem witness_StepRunsTheDecodedInstruction_window :
    ({ accepted 0x10 0x1000 0 0x3000 4 0 with params := ⟨false, some 0x4000⟩ } :
      State).windowConflict = false ∧
    ({ accepted 0x10 0x1000 0 0x3FFD 4 0 with params := ⟨false, some 0x4000⟩ } :
      State).windowConflict = true := by decide +kernel

theorem witness_ResetAbandonsTheCommand :
    State.reset.phase = .idle ∧
    inBuffer busyState.sh.dst busyState.sh.len.toNat 0x3004 = false := by decide +kernel

theorem witness_StepKeepsTheInvariant : Inv midUnit ∧ ∃ t, step midUnit = .next t :=
  ⟨midUnit_inv, _, rfl⟩

/-- BitNegation over 4 bytes, before its second element, its LUT filled. -/
def midScalar : State :=
  { busyState with reg := { Operands.zero with cmd := 0x10 } }.buildLut negationByte

theorem witness_StepKeepsTheInvariant_scalar : Inv midScalar ∧ ∃ t, step midScalar = .next t :=
  ⟨{ memory := nil_wf
     cleared := fun _ => ⟨rfl, rfl, rfl, rfl⟩
     failCode := by decide
     noopSucceeds := by decide
     command := fun _ => rfl
     validated := fun _ => by decide +kernel
     index := fun _ => by decide
     table := fun _ _ v => buildLut_lutAt _ negationByte v
     constant := fun _ h => absurd h (by decide) }, _, rfl⟩

theorem witness_InvariantStatesNeverFault :
    Inv midUnit ∧ midUnit.inputs = [] ∧ midUnit.phase ≠ .idle ∧ midUnit.windowConflict = false :=
  ⟨midUnit_inv, rfl, by decide, rfl⟩

theorem witness_StepKeepsTheParameters : ∃ t, step State.reset = .next t := ⟨_, rfl⟩

/-! ### Whole commands -/

theorem witness_CommandTakesOnePlusCountSteps :
    ((accepted 0x10 0x1000 0 0x3000 4 0).phase = .validate ∧
      (accepted 0x10 0x1000 0 0x3000 4 0).inputs = [] ∧
      (accepted 0x10 0x1000 0 0x3000 4 0).windowConflict = false ∧
      validate (accepted 0x10 0x1000 0 0x3000 4 0).current
        (accepted 0x10 0x1000 0 0x3000 4 0).sh = .run .op 4) ∧
    ((accepted 0x40 0x1000 0 0x3000 4 0).phase = .validate ∧
      (accepted 0x40 0x1000 0 0x3000 4 0).windowConflict = false) := by decide +kernel

theorem noPartialOverlap_of {s : State} {count width : Nat}
    (h : ∀ e < count, clean s (e * width) width = true) : NoPartialOverlap s count width :=
  fun e he => readsClean_of (h e he)

/-- In place, and over buffers apart. -/
theorem witness_DualCommandWritesEveryByte :
    let s := accepted 0x00 0x1000 0x2000 0x1000 4 0
    let u := accepted 0x00 0x1000 0x2000 0x3000 4 0
    (Undisturbed s ∧ family s.current = .dual ∧ s.sh.src1 ≠ 0 ∧ s.sh.src2 ≠ 0 ∧ s.sh.dst ≠ 0 ∧
      s.sh.len ≠ 0 ∧ NoPartialOverlap s s.sh.len.toNat 1) ∧
    (Undisturbed u ∧ family u.current = .dual ∧ u.sh.src1 ≠ 0 ∧ u.sh.src2 ≠ 0 ∧ u.sh.dst ≠ 0 ∧
      u.sh.len ≠ 0 ∧ NoPartialOverlap u u.sh.len.toNat 1) := by
  refine ⟨⟨⟨rfl, rfl, rfl, rfl⟩, rfl, by decide, by decide, by decide, by decide,
    noPartialOverlap_of (by decide +kernel)⟩, ⟨⟨rfl, rfl, rfl, rfl⟩, rfl, by decide, by decide,
    by decide, by decide, noPartialOverlap_of (by decide +kernel)⟩⟩

theorem witness_ScalarCommandMapsEveryByte :
    let s := accepted 0x10 0x1000 0 0x1000 4 0
    Undisturbed s ∧ family s.current = .scalar ∧
    validate s.current s.sh = .run .op s.sh.len.toNat ∧ NoPartialOverlap s s.sh.len.toNat 1 := by
  refine ⟨⟨rfl, rfl, rfl, rfl⟩, rfl, by decide +kernel, noPartialOverlap_of (by decide +kernel)⟩

/-- An OP command with a trailing partial unit, and a COPY of the same bytes, in place. -/
theorem witness_UnitCommandMapsEveryUnit :
    let s := accepted 0x00080323 0x1000 0 0x1000 9 0
    let u := accepted 0x00000323 0x1000 0 0x1000 9 0
    (Undisturbed s ∧ family s.current = .unit ∧ validate s.current s.sh = .run .op 2 ∧
      NoPartialOverlap s 2 (elementWidth s.current .op)) ∧
    (Undisturbed u ∧ family u.current = .unit ∧ validate u.current u.sh = .run .copy 9 ∧
      NoPartialOverlap u 9 (elementWidth u.current .copy)) := by
  refine ⟨⟨⟨rfl, rfl, rfl, rfl⟩, rfl, by decide +kernel, noPartialOverlap_of (by decide +kernel)⟩,
    ⟨⟨rfl, rfl, rfl, rfl⟩, rfl, by decide +kernel, noPartialOverlap_of (by decide +kernel)⟩⟩

/-- Two idle states that differ in every piece of hidden state. -/
theorem witness_HiddenStateIsNeverObserved :
    State.reset.phase = .idle ∧
    SameVisible State.reset { State.reset with
      sh := buffersAt 1 2 3 4 5, plan := .copy, count := 9, k := 7, lut := [1], cb := [2],
      raced := true, pre := [(1, 1)] } :=
  ⟨rfl, ⟨⟨rfl, rfl, rfl, rfl⟩, rfl, ⟨rfl, rfl, rfl, rfl, rfl⟩, rfl⟩⟩

/-- A statement between an Ack and a Wait, in a program about to run it. -/
theorem witness_FilterStatementIssuesItsCommand :
    let ack := [opWrite 0x04 0x00000102]
    let wait := [opRead 0x04, .branch 1 1 6]
    let s := { State.reset.load (ack ++ filterWrites (.add 0 0) 0x1200 0x1000 0x1100 4 [] 0 ++ wait)
      [(0x1000, [0x10])] with hpc := 1 }
    ∃ ops, (Statement.add 0x1200 0x1000 0x1100 4).assemble ack.length = some ops ∧
      s.phase = .idle ∧ s.inputs = [] ∧ s.prog = ack ++ ops ++ wait ∧ s.hpc = ack.length :=
  ⟨_, rfl, rfl, rfl, rfl, rfl⟩

/-- The largest immediates that fit, and the smallest that do not. -/
theorem witness_FilterStatementIssuesItsCommand_fits :
    (255 < 2 ^ 8 ∧ ¬ 256 < 2 ^ 8) ∧ (63 < 2 ^ 6 ∧ ¬ 64 < 2 ^ 6) ∧
    (2 ^ 128 - 1 < 2 ^ 128 ∧ ¬ 2 ^ 128 < 2 ^ 128) ∧
    ((1 ≤ 1 ∧ 1 ≤ 16) ∧ (1 ≤ 16 ∧ 16 ≤ 16) ∧ ¬ (1 ≤ 0 ∧ 0 ≤ 16) ∧ ¬ (1 ≤ 17 ∧ 17 ≤ 16)) := by
  decide

end Sys2Proof.Tests
end

section
/-! PROOFS. The byte functions of `Mult`, `MultInv`, `MultDivby2`, `MultDivby4` and `Div` as quotients
of naturals, and those quotients as floors of the source's unit-interval formulas (00_scope.md R6;
40_dual_source.md R75, R77 to R79, R82). -/

namespace Sys2Proof.Machine

theorem byte_le (a : Byte) : a.toNat ≤ 255 := Nat.le_of_lt_succ a.isLt

/-! ## The byte functions as quotients -/

theorem toNat_multBytes (a b : Byte) : (multBytes a b).toNat = a.toNat * b.toNat / 255 := by
  have h := byte_mul_le a b
  rw [multBytes, toNat_u8]
  omega

theorem toNat_multInvBytes (a b : Byte) :
    (multInvBytes a b).toNat = (65025 - (255 - a.toNat) * (255 - b.toNat)) / 255 := by
  rw [multInvBytes, toNat_u8]
  omega

/-- The clamp to 255 never binds: a product of bytes halved is below it. -/
theorem toNat_multDivby2Bytes (a b : Byte) :
    (multDivby2Bytes a b).toNat = a.toNat * b.toNat / 510 := by
  have h := byte_mul_le a b
  rw [multDivby2Bytes, toNat_u8]
  omega

theorem toNat_multDivby4Bytes (a b : Byte) :
    (multDivby4Bytes a b).toNat = a.toNat * b.toNat / 1020 := by
  have h := byte_mul_le a b
  rw [multDivby4Bytes, toNat_u8]
  omega

theorem toNat_divBytes_of_le {a b : Byte} (hb : b ≠ 0) (h : b.toNat ≤ a.toNat) :
    (divBytes a b).toNat = 255 := by
  rw [divBytes, if_neg hb, if_pos h]
  rfl

theorem toNat_divBytes_of_lt {a b : Byte} (h : a.toNat < b.toNat) :
    (divBytes a b).toNat = 255 * a.toNat / b.toNat := by
  have hb : b ≠ 0 := by rintro rfl; simp at h
  have hq : 255 * a.toNat / b.toNat ≤ 255 :=
    Nat.div_le_of_le_mul (by rw [Nat.mul_comm]; exact Nat.mul_le_mul_right 255 h.le)
  rw [divBytes, if_neg hb, if_neg h.not_ge, toNat_u8, Nat.mod_eq_of_lt (Nat.lt_succ_of_le hq)]

/-! ## The unit-interval formulas as quotients -/

/-- A byte that holds the quotient `m / n` is the floor of the rational `m / n`. -/
theorem toNat_eq_floor {v : Byte} {m n : ℕ} {q : ℚ} (hv : v.toNat = m / n) (hq : q = m / n) :
    (v.toNat : ℤ) = ⌊q⌋ := by
  rw [hv, hq, Rat.floor_natCast_div_natCast, Int.natCast_ediv]

theorem unitInterval_le_one (a : Byte) : (a.toNat : ℚ) / 255 ≤ 1 := by
  have h : (a.toNat : ℚ) ≤ 255 := by exact_mod_cast byte_le a
  exact div_le_one_of_le₀ h (by norm_num)

/-- The product of two unit-interval values, divided by `d ≥ 1`, needs no clamp to 1. -/
theorem min_one_product_div (a b : Byte) {d : ℚ} (hd : 1 ≤ d) :
    min 1 ((a.toNat : ℚ) / 255 * (b.toNat / 255) / d) =
      (a.toNat : ℚ) / 255 * (b.toNat / 255) / d := by
  have hxy : (a.toNat : ℚ) / 255 * (b.toNat / 255) ≤ 1 :=
    mul_le_one₀ (unitInterval_le_one a) (by positivity) (unitInterval_le_one b)
  exact min_eq_right (div_le_one_of_le₀ (hxy.trans hd) (zero_le_one.trans hd))

/-! ## The filters as floors -/

/-- `Mult` (40_dual_source.md R75). -/
theorem multBytes_eq_floor (a b : Byte) :
    ((multBytes a b).toNat : ℤ) = ⌊(a.toNat : ℚ) / 255 * (b.toNat / 255) * 255⌋ := by
  refine toNat_eq_floor (toNat_multBytes a b) ?_
  push_cast
  ring

/-- `MultInv` (40_dual_source.md R77). -/
theorem multInvBytes_eq_floor (a b : Byte) :
    ((multInvBytes a b).toNat : ℤ) =
      ⌊(1 - (1 - (a.toNat : ℚ) / 255) * (1 - b.toNat / 255)) * 255⌋ := by
  refine toNat_eq_floor (toNat_multInvBytes a b) ?_
  have hab : (255 - a.toNat) * (255 - b.toNat) ≤ 65025 :=
    Nat.mul_le_mul (Nat.sub_le 255 _) (Nat.sub_le 255 _)
  rw [Nat.cast_sub hab, Nat.cast_mul, Nat.cast_sub (byte_le a), Nat.cast_sub (byte_le b)]
  push_cast
  ring

/-- `MultDivby2` (40_dual_source.md R78). -/
theorem multDivby2Bytes_eq_floor (a b : Byte) :
    ((multDivby2Bytes a b).toNat : ℤ) =
      ⌊min 1 ((a.toNat : ℚ) / 255 * (b.toNat / 255) / 2) * 255⌋ := by
  refine toNat_eq_floor (toNat_multDivby2Bytes a b) ?_
  rw [min_one_product_div a b one_le_two]
  push_cast
  ring

/-- `MultDivby4` (40_dual_source.md R79). -/
theorem multDivby4Bytes_eq_floor (a b : Byte) :
    ((multDivby4Bytes a b).toNat : ℤ) =
      ⌊min 1 ((a.toNat : ℚ) / 255 * (b.toNat / 255) / 4) * 255⌋ := by
  refine toNat_eq_floor (toNat_multDivby4Bytes a b) ?_
  rw [min_one_product_div a b (by norm_num)]
  push_cast
  ring

/-- `Div` (40_dual_source.md R82): the clamp to 1 is the case `a ≥ b`. -/
theorem divBytes_eq_floor {a b : Byte} (hb : b ≠ 0) :
    ((divBytes a b).toNat : ℤ) = ⌊min 1 ((a.toNat : ℚ) / 255 / (b.toNat / 255)) * 255⌋ := by
  have hpos : 0 < (b.toNat : ℚ) := by
    exact_mod_cast Nat.pos_of_ne_zero fun h => hb (BitVec.eq_of_toNat_eq h)
  rw [div_div_div_cancel_right₀ (by norm_num)]
  rcases le_or_gt b.toNat a.toNat with h | h
  · have hq : 1 ≤ (a.toNat : ℚ) / b.toNat := (one_le_div₀ hpos).mpr (by exact_mod_cast h)
    rw [toNat_divBytes_of_le hb h, min_eq_left hq]
    norm_num
  · have hq : (a.toNat : ℚ) / b.toNat ≤ 1 := (div_le_one₀ hpos).mpr (by exact_mod_cast h.le)
    refine toNat_eq_floor (toNat_divBytes_of_lt h) ?_
    rw [min_eq_right hq]
    push_cast
    ring

/-- Settles O47, filter by filter: each byte is a quotient of naturals, and the source's formula is
the same quotient of rationals. -/
theorem integerFormsEqualTheExactFormulas : Obligations.IntegerFormsEqualTheExactFormulas := by
  intro a b x y
  exact ⟨multBytes_eq_floor a b, multInvBytes_eq_floor a b, multDivby2Bytes_eq_floor a b,
    multDivby4Bytes_eq_floor a b, divBytes_eq_floor⟩

end Sys2Proof.Machine
end

section
/-! PROOFS. Every move of the machine keeps the implementation parameters (00_scope.md R4). -/

namespace Sys2Proof.Machine

theorem exec_params {i : Instr} {s t : State} (h : exec i s = .next t) : t.params = s.params := by
  rcases exec_cases i s with ⟨-, e⟩ | ⟨-, e⟩ | ⟨-, -, reads, bs, -, e⟩ | ⟨-, -, e⟩ <;>
    rw [e] at h <;> cases h
  · rfl
  · obtain ⟨-, -, -, -, -, hparams, -⟩ := settle_frame i s (validate i s.sh)
    exact hparams
  · simp

theorem engineTurn_params {s t : State} (h : engineTurn s = .next t) : t.params = s.params := by
  unfold engineTurn at h
  split at h
  · cases h
  · exact exec_params h

@[simp] theorem writeRegister_params (s : State) (off : BitVec 6) (v : Word) :
    (writeRegister s off v).params = s.params := by
  rcases writeRegister_cases s off v with ⟨-, e⟩ | ⟨-, e⟩ | e | e | ⟨r, -, e⟩ <;> rw [e]
  rfl

@[simp] theorem hostWriteByte_params (s : State) (a : Addr) (v : Byte) :
    (hostWriteByte s a v).params = s.params := by
  unfold hostWriteByte
  split <;> rfl

@[simp] theorem resetMove_params (s : State) : (resetMove s).params = s.params := rfl

theorem hostMove_params {m : HostMove} {s t : State} (h : hostMove m s = .next t) :
    t.params = s.params := by
  rcases hostMove_next h with ⟨off, v, rfl⟩ | ⟨w, d, rfl⟩ | ⟨a, v, rfl⟩ | rfl
  · exact writeRegister_params s off v
  · rfl
  · exact hostWriteByte_params s a v
  · exact resetMove_params s

theorem programTurn_params {s t : State} (h : programTurn s = .next t) : t.params = s.params := by
  rcases programTurn_next h with rfl | ⟨n, rfl⟩ | ⟨m, hm⟩
  · rfl
  · rfl
  · exact (hostMove_params hm :)

/-- Settles O54, by whose turn the step was: the engine's, the host program's or a host move. -/
theorem stepKeepsTheParameters : Obligations.StepKeepsTheParameters := by
  intro s t h
  obtain ⟨rest, e | e | ⟨m, e⟩⟩ := step_cases s <;> rw [e] at h
  · exact (engineTurn_params h :)
  · exact (programTurn_params h :)
  · exact (hostMove_params h :)

end Sys2Proof.Machine
end

section
/-! PROOFS. The invariant is kept by the engine's step, by every host move and by the host's program,
and so by every step of the machine (10_state.md R22 to R25, R29; 60_exceptions.md R131). -/

namespace Sys2Proof.Machine

/-! ## The engine's step -/

/-- In IDLE the invariant speaks of memory and of STATUS alone. -/
theorem inv_of_idle {s : State} (hp : s.phase = .idle) (hm : s.mem.wf)
    (hfail : s.status.fail = true ↔ s.status.ecode ≠ .none)
    (hnoop : s.status.noop = true → s.status.fail = false) : Inv s where
  memory := hm
  cleared := by simp [hp]
  failCode := hfail
  noopSucceeds := hnoop
  command := by simp [hp]
  validated := by simp [hp]
  index := by simp [hp]
  table := by simp [hp]
  constant := by simp [hp]

theorem inv_succeed {s : State} (hm : s.mem.wf) (noop : Bool) : Inv (s.succeed noop) :=
  inv_of_idle rfl hm (by simp [Status.succeeded]) (by simp [Status.succeeded])

theorem inv_fail {s : State} (hm : s.mem.wf) {code : ECode} (hc : code ≠ .none) :
    Inv (s.fail code) :=
  inv_of_idle rfl hm (by simp [Status.failed, hc]) (by simp [Status.failed])

/-- A failure always has a code (60_exceptions.md R121, R122). -/
theorem validate_fail_code {i : Instr} {r : Operands} {code : ECode}
    (h : validate i r = .fail code) : code ≠ .none := by
  unfold validate at h
  split_ifs at h <;> cases h <;> simp

theorem buildFor_scalar {i : Instr} (s : State) (hf : family i = .scalar) :
    buildFor i s = s.buildLut (scalarMap i s.sh) := by
  simp [buildFor, hf]

theorem buildFor_constant {i : Instr} (s : State) (hc : usesConstant i = true) :
    buildFor i s = s.buildCb (unitBytes i) := by
  simp [buildFor, family_of_usesConstant hc, hc]

/-- The move to RUN: the plan and the count are those validation decided, and the tables it fills are
those the elements look up. -/
theorem inv_startRun {s : State} (h : Inv s) (hp : s.phase = .validate) {p : Plan} {n : Nat}
    (hv : validate s.current s.sh = .run p n) : Inv ((buildFor s.current s).startRun p n) := by
  obtain ⟨hreg, hsh, hmem, -⟩ := settle_frame s.current s (.run p n)
  have hst := settle_run_status s.current s p n
  simp only [State.settle] at hreg hsh hmem hst
  have hcur : ((buildFor s.current s).startRun p n).current = s.current := by
    rw [State.current, hsh, State.current]
  have hbusy : s.phase ≠ .idle := by simp [hp]
  obtain ⟨-, hpos, -⟩ := validate_run hv
  constructor
  case memory => rw [hmem]; exact h.memory
  case cleared => rw [hst]; exact fun _ => h.cleared hbusy
  case failCode => rw [hst]; exact h.failCode
  case noopSucceeds => rw [hst]; exact h.noopSucceeds
  case command => rw [hreg, hsh]; exact fun _ => h.command hbusy
  case validated => rw [hcur, hsh]; exact fun _ => hv
  case index => exact fun _ => hpos
  case table =>
    rw [hcur, hsh]
    intro _ hf v
    rw [startRun_lutAt, buildFor_scalar s hf, buildLut_lutAt]
  case constant =>
    rw [hcur, hsh]
    intro _ hc j hj
    rw [startRun_cb, buildFor_constant s hc, buildCb_cb,
      getD_constantBytes _ _ _ hj (unitBytes_le _)]

theorem inv_settle {s : State} (h : Inv s) (hp : s.phase = .validate) :
    Inv (s.settle (validate s.current s.sh) (buildFor s.current)) := by
  cases hv : validate s.current s.sh with
  | fail code => exact inv_fail h.memory (validate_fail_code hv)
  | succeed => exact inv_succeed h.memory true
  | run p n => exact inv_startRun h hp hv

theorem inv_putElement {s : State} (h : Inv s) (off : Nat) (reads : List Addr) (bs : List Byte) :
    Inv (s.putElement off reads bs) := by
  unfold State.putElement
  split
  · exact { h with memory := writeBytes_wf h.memory _ _ _ }
  · exact { h with memory := writeBytes_wf h.memory _ _ _ }

theorem inv_advance {s : State} (h : Inv s) (hp : s.phase = .run) : Inv s.advance := by
  by_cases hk : s.k + 1 = s.count
  · rw [advance_last s hk]
    exact inv_succeed (s := { s with k := s.k + 1 }) h.memory false
  · rw [advance_more s hk]
    exact { h with index := fun _ => Nat.lt_of_le_of_ne (h.index hp) hk }

theorem inv_exec {s t : State} (h : Inv s) (he : exec s.current s = .next t) : Inv t := by
  rcases exec_cases s.current s with ⟨-, e⟩ | ⟨hp, e⟩ | ⟨hp, -, reads, bs, -, e⟩ | ⟨-, -, e⟩ <;>
    rw [e] at he <;> cases he
  · exact h
  · exact inv_settle h hp
  · exact inv_advance (inv_putElement h _ _ _) (by simpa using hp)

theorem inv_engineTurn {s t : State} (h : Inv s) (he : engineTurn s = .next t) : Inv t := by
  unfold engineTurn at he
  split at he
  · cases he
  · exact inv_exec h he

/-! ## The host's moves -/

theorem inv_accept {s : State} (h : Inv s) (v : Word) : Inv (s.accept v) where
  memory := h.memory
  cleared := by simp [Status.accepted]
  failCode := by simp [Status.accepted]
  noopSucceeds := by simp [Status.accepted]
  command := by simp
  validated := by simp
  index := by simp
  table := by simp
  constant := by simp

/-- No register write but an accepted CMD reaches the engine; a write to STATUS can only clear DONE
and DROP (10_state.md R13, R27). -/
theorem inv_writeRegister {s : State} (h : Inv s) (off : BitVec 6) (v : Word) :
    Inv (writeRegister s off v) := by
  rcases writeRegister_cases s off v with ⟨-, e⟩ | ⟨-, e⟩ | e | e | ⟨r, hr, e⟩ <;> rw [e]
  · exact inv_accept h v
  · exact { h with }
  · refine { h with cleared := fun hp => ?_ }
    obtain ⟨hdone, hrest⟩ := h.cleared hp
    exact ⟨by simp [Status.writeOneToClear, hdone], hrest⟩
  · exact { h with }
  · exact { h with command := fun hp => hr.trans (h.command hp) }

theorem inv_hostWriteByte {s : State} (h : Inv s) (a : Addr) (v : Byte) :
    Inv (hostWriteByte s a v) := by
  unfold hostWriteByte
  split
  · exact { h with memory := writeBytes_wf (write_wf h.memory a v) _ _ _ }
  · exact { h with memory := write_wf h.memory a v }

theorem inv_resetMove {s : State} (h : Inv s) : Inv (resetMove s) :=
  have hst : (resetMove s).status = Status.clear := rfl
  inv_of_idle rfl (resetMove_mem_wf h.memory) (by simp [hst, Status.clear])
    (by simp [hst, Status.clear])

theorem inv_hostMove {m : HostMove} {s t : State} (h : Inv s) (he : hostMove m s = .next t) :
    Inv t := by
  rcases hostMove_next he with ⟨off, v, rfl⟩ | ⟨w, d, rfl⟩ | ⟨a, v, rfl⟩ | rfl
  · exact inv_writeRegister h off v
  · exact { h with }
  · exact inv_hostWriteByte h a v
  · exact inv_resetMove h

theorem inv_programTurn {s t : State} (h : Inv s) (he : programTurn s = .next t) : Inv t := by
  rcases programTurn_next he with rfl | ⟨n, rfl⟩ | ⟨m, hm⟩
  · exact h
  · exact { h with }
  · exact inv_hostMove (s := { s with hpc := s.hpc + 1 }) { h with } hm

/-- Settles O52, by whose turn the step was: the engine's, the host program's or a host move. -/
theorem stepKeepsTheInvariant : Obligations.StepKeepsTheInvariant := by
  intro s t h he
  obtain ⟨rest, e | e | ⟨m, e⟩⟩ := step_cases s <;> rw [e] at he
  · exact inv_engineTurn (s := { s with inputs := rest }) { h with } he
  · exact inv_programTurn (s := { s with inputs := rest }) { h with } he
  · exact inv_hostMove (s := { s with inputs := rest }) { h with } he

end Sys2Proof.Machine
end

section
/-! PROOFS. The register window: a write to CMD, the bits of STATUS, and the offsets and accesses
without a meaning of their own (10_state.md R11 to R19, R27; 20_memory.md R36). -/

namespace Sys2Proof.Machine

/-! ## Aligned accesses -/

theorem wordAccess_word {off : BitVec 6} (h : off.toNat % 4 = 0) : wordAccess off .word = true := by
  simp [wordAccess, h]

theorem wordAccess_eq_false {off : BitVec 6} {width : Width}
    (h : width ≠ .word ∨ off.toNat % 4 ≠ 0) : wordAccess off width = false := by
  simpa [wordAccess, imp_iff_not_or] using h

theorem hostMove_writeReg_word {off : BitVec 6} (h : off.toNat % 4 = 0) (v : Word) (s : State) :
    hostMove (.writeReg off .word v) s = .next (writeRegister s off v) :=
  if_pos (wordAccess_word h)

theorem hostMove_readReg_word {off : BitVec 6} (h : off.toNat % 4 = 0) (s : State) :
    hostMove (.readReg off .word) s = .next { s with t := readRegister s off } :=
  if_pos (wordAccess_word h)

/-- A register access that is narrower than 32 bits or misaligned is refused (20_memory.md R36). -/
theorem hostMove_reg_refused {off : BitVec 6} {width : Width}
    (h : width ≠ .word ∨ off.toNat % 4 ≠ 0) (v : Word) (s : State) :
    hostMove (.writeReg off width v) s = .refused .subwordAccess ∧
      hostMove (.readReg off width) s = .refused .subwordAccess := by
  simp [hostMove, wordAccess_eq_false h]

/-! ## CMD (10_state.md R27) -/

theorem writeCmd_idle {s : State} (hp : s.phase = .idle) (v : Word) : writeCmd s v = s.accept v := by
  simp [writeCmd, hp]

theorem writeCmd_busy {s : State} (hp : s.phase ≠ .idle) (v : Word) :
    writeCmd s v = { s with status := { s.status with drop := true } } := by
  unfold writeCmd
  split
  · contradiction
  · rfl
  · rfl

/-! ## The other registers -/

theorem writeRegister_sh (s : State) {off : BitVec 6} (v : Word) (h : off.toNat / 4 ≠ 0) :
    (writeRegister s off v).sh = s.sh := by
  unfold writeRegister
  split
  · contradiction
  all_goals rfl

/-- A write to a register other than CMD changes what no other register reads. -/
theorem readRegister_writeRegister_other (s : State) {off x : BitVec 6} (v : Word)
    (h : off.toNat / 4 ≠ 0) (hx : x.toNat / 4 ≠ off.toNat / 4) :
    readRegister (writeRegister s off v) x = readRegister s x := by
  unfold writeRegister
  split
  · contradiction
  all_goals
    unfold readRegister
    split <;> first | omega | rfl

/-- Settles O39: the two arms of a write to CMD, and what any other write leaves. -/
theorem cmdWriteIsAcceptedOrDropped : Obligations.CmdWriteIsAcceptedOrDropped := by
  intro s v
  have hcmd : hostMove (.writeReg 0x00 .word v) s = .next (writeCmd s v) := rfl
  refine ⟨fun hp => ?_, fun hp => ?_, fun off x hoff h0 hx hne => ?_⟩
  · rw [hcmd, writeCmd_idle hp]
    refine ⟨_, rfl, ?_⟩
    simp [Status.accepted]
  · rw [hcmd, writeCmd_busy hp]
  · have hoff0 : off.toNat / 4 ≠ 0 := fun h => h0 (BitVec.eq_of_toNat_eq (by simp; omega))
    have hxoff : x.toNat / 4 ≠ off.toNat / 4 := fun h => hne (BitVec.eq_of_toNat_eq (by omega))
    obtain ⟨hphase, -⟩ := writeRegister_host s v hoff0
    exact ⟨_, hostMove_writeReg_word hoff v s, readRegister_writeRegister_other s v hoff0 hxoff,
      writeRegister_sh s v hoff0, hphase, writeRegister_mem s off v⟩

/-! ## STATUS (10_state.md R13) -/

/-- A bit of STATUS, by the field it stands in. -/
theorem getLsbD_statusWord (s : State) (j : Nat) :
    (statusWord s).getLsbD j =
      if j = 0 then s.busy else if j = 1 then s.status.done else if j = 2 then s.status.fail
      else if j = 3 then s.status.noop else if j < 8 then s.status.ecode.code.getLsbD (j - 4)
      else if j = 8 then s.status.drop else false := by
  unfold statusWord
  simp only [BitVec.getLsbD_append, BitVec.getLsbD_ofBool, BitVec.ofNat_eq_ofNat,
    BitVec.getLsbD_zero]
  split_ifs <;> grind

theorem statusWord_ecode (s : State) : (statusWord s).extractLsb' 4 4 = s.status.ecode.code := by
  ext j hj
  rw [BitVec.getElem_extractLsb', getLsbD_statusWord]
  grind

theorem statusWord_reserved (s : State) : (statusWord s).extractLsb' 9 23 = 0 := by
  ext j hj
  rw [BitVec.getElem_extractLsb', getLsbD_statusWord]
  grind

theorem writeOneToClear_eq (st : Status) (v : Word) :
    st.writeOneToClear v = { st with
      done := if v.getLsbD 1 then false else st.done
      drop := if v.getLsbD 8 then false else st.drop } := by
  unfold Status.writeOneToClear
  cases v.getLsbD 1 <;> cases v.getLsbD 8 <;> simp

/-- Settles O41: the fields of the word STATUS reads as, and what a write to it clears. -/
theorem statusReadsItsFieldsAndClearsByOne : Obligations.StatusReadsItsFieldsAndClearsByOne := by
  intro s
  have hbit := getLsbD_statusWord s
  refine ⟨⟨rfl, hbit 0, hbit 1, hbit 2, hbit 3, statusWord_ecode s, hbit 8,
    statusWord_reserved s⟩, fun v => ?_⟩
  rw [← writeOneToClear_eq]
  rfl

/-! ## The edges of the window (10_state.md R12, R19) -/

theorem reserved_offset {off : BitVec 6} (h : 12 ≤ off.toNat / 4) (s : State) (v : Word) :
    writeRegister s off v = s ∧ readRegister s off = 0 := by
  unfold writeRegister readRegister
  constructor <;> split <;> first | omega | rfl

theorem ctrlWord_reserved (s : State) : (ctrlWord s).extractLsb' 1 31 = 0 := by
  unfold ctrlWord
  cases s.irqEn <;> decide

/-- Settles O42: the reserved offsets, the reserved bits of CTRL, CMD, and the accesses refused. -/
theorem registerWindowEdges : Obligations.RegisterWindowEdges := by
  intro s v
  refine ⟨fun off hoff => ?_, ctrlWord_reserved s, rfl,
    fun off width h => hostMove_reg_refused h v s⟩
  have hedge : ∀ off ∈ ([0x30, 0x34, 0x38, 0x3C] : List (BitVec 6)),
      off.toNat % 4 = 0 ∧ 12 ≤ off.toNat / 4 := by decide
  obtain ⟨halign, hres⟩ := hedge off hoff
  obtain ⟨hwrite, hread⟩ := reserved_offset hres s v
  rw [hostMove_writeReg_word halign, hostMove_readReg_word halign, hwrite, hread]
  exact ⟨rfl, rfl⟩

end Sys2Proof.Machine
end

section
/-! PROOFS. Whose turn a step is, and what it then is (10_state.md R29; 70_reset_and_hazards.md R161,
R162). -/

namespace Sys2Proof.Machine

theorem engineTurn_of_noConflict {s : State} (h : s.windowConflict = false) :
    engineTurn s = exec s.current s := by
  simp [engineTurn, h]

theorem windowConflict_of_noWindow {s : State} (h : s.params.window = none) :
    s.windowConflict = false := by
  simp [State.windowConflict, h]

/-- A host program that has halted does nothing (70_reset_and_hazards.md R162). -/
theorem programTurn_of_halted {s : State} (h : s.prog.length ≤ s.hpc) : programTurn s = .next s := by
  simp [programTurn, List.getElem?_eq_none h]

theorem step_of_turn {s : State} {u : Turn} {rest : List Turn} (h : s.inputs = u :: rest) :
    step s = takeTurn u { s with inputs := rest } := by
  simp only [step, nextMove, h]

theorem step_of_noTurn {s : State} (h : s.inputs = []) :
    step s = if s.phase = .idle then programTurn s else engineTurn s := by
  simp only [step, nextMove, h, State.busy]
  by_cases hp : s.phase = .idle <;> simp [hp]

/-- A placed command is in VALIDATE with the engine's turn next (log 8). -/
theorem step_withFetchWord (s : State) (w : Nat) :
    step (s.withFetchWord 32 w) = engineTurn (s.accept (BitVec.ofNat 32 w)) := by
  have hw : BitVec.ofNat 32 (w % 2 ^ 32) = BitVec.ofNat 32 w := by
    apply BitVec.eq_of_toNat_eq
    simp
  rw [State.withFetchWord, hw, step_of_turn (rest := s.inputs) rfl]
  rfl

/-- Settles O48, by whose turn the step is. -/
theorem stepRunsTheDecodedInstruction : Obligations.StepRunsTheDecodedInstruction := by
  intro s
  refine ⟨fun rest hi hw => ?_, fun hi hp hw => ?_, fun w hw => ?_, ?_⟩
  · rw [step_of_turn hi]
    exact engineTurn_of_noConflict hw
  · rw [step_of_noTurn hi, if_neg hp]
    exact engineTurn_of_noConflict hw
  · rw [step_withFetchWord]
    exact engineTurn_of_noConflict (windowConflict_of_noWindow hw)
  · rintro ⟨hi, hprog, hp⟩
    rw [step_of_noTurn hi, if_pos hp]
    exact programTurn_of_halted hprog

end Sys2Proof.Machine
end

section
/-! PROOFS. Noninterference: two machines that may differ in the engine's hidden state, as far as the
phase leaves it unobservable, go on alike (10_state.md R25; 70_reset_and_hazards.md R152). -/

namespace Sys2Proof.Machine

open Sys2Proof.Claims

/-- The tables of a running command agree in all that its elements look up: the whole LUT for a
MODE 1 command, the first `bpp` constant bytes for one that uses the constant. -/
def TablesAgree (s : State) (lut cb : List Byte) : Prop :=
  (family s.current = .scalar → lut = s.lut) ∧
  (usesConstant s.current = true → ∀ j < unitBytes s.current, cb.getD j 0 = s.cb.getD j 0)

/-- A second machine that no one can tell from `s`: in IDLE the hidden state is arbitrary; from
acceptance on it has latched the same operands; and in RUN it executes the same elements, with tables
that agree. -/
inductive Alike (s : State) : State → Prop
  | mk {sh : Operands} {plan : Plan} {count k : Nat} {lut cb : List Byte} {raced : Bool}
      {pre : Memory}
      (latched : s.phase ≠ .idle → sh = s.sh ∧ raced = s.raced ∧ pre = s.pre)
      (running : s.phase = .run → plan = s.plan ∧ count = s.count ∧ k = s.k ∧
        TablesAgree s lut cb) :
      Alike s { s with sh, plan, count, k, lut, cb, raced, pre }

/-- Two outcomes alike: next states that are, or stops for the same reason. -/
inductive OutcomeAlike : Host.Outcome State Fault Refusal → Host.Outcome State Fault Refusal → Prop
  | next {s u : State} (h : Alike s u) : OutcomeAlike (.next s) (.next u)
  | fault (f : Fault) : OutcomeAlike (.fault f) (.fault f)
  | refused (r : Refusal) : OutcomeAlike (.refused r) (.refused r)

/-! ## What alike machines have in common -/

theorem Alike.sameVisible {s u : State} (h : Alike s u) : SameVisible s u := by
  cases h
  exact ⟨⟨rfl, rfl, rfl, rfl⟩, rfl, ⟨rfl, rfl, rfl, rfl, rfl⟩, rfl⟩

theorem Alike.phase_eq {s u : State} (h : Alike s u) : u.phase = s.phase := by
  cases h
  rfl

theorem Alike.inputs_eq {s u : State} (h : Alike s u) : u.inputs = s.inputs := by
  cases h
  rfl

theorem OutcomeAlike.sameOutcome {o o' : Host.Outcome State Fault Refusal}
    (h : OutcomeAlike o o') : SameOutcome o o' := by
  cases h with
  | next h => exact h.sameVisible
  | fault f => rfl
  | refused r => rfl

/-- In IDLE the hidden state is arbitrary. -/
theorem alike_of_idle {s : State} (hp : s.phase = .idle) {sh : Operands} {plan : Plan}
    {count k : Nat} {lut cb : List Byte} {raced : Bool} {pre : Memory} :
    Alike s { s with sh, plan, count, k, lut, cb, raced, pre } :=
  .mk (fun h => absurd hp h) (by simp [hp])

theorem alike_of_sameVisible {s u : State} (hp : s.phase = .idle) (h : SameVisible s u) :
    Alike s u := by
  obtain ⟨⟨hreg, hstatus, hirq, hphase⟩, hmem, ⟨hparams, hinputs, hprog, hhpc, ht⟩, hdraws⟩ := h
  have hu : u = { s with
      sh := u.sh, plan := u.plan, count := u.count, k := u.k, lut := u.lut, cb := u.cb,
      raced := u.raced, pre := u.pre } := by
    rw [hreg, hstatus, hirq, hphase, hmem, hparams, hinputs, hprog, hhpc, ht, hdraws]
  rw [hu]
  exact alike_of_idle hp

/-! ## The engine's step -/

/-- `s` with other tables. -/
def State.withTables (s : State) (lut cb : List Byte) : State := { s with lut, cb }

/-- In RUN only the tables may differ. -/
theorem alike_withTables {s : State} {lut cb : List Byte} (h : TablesAgree s lut cb) :
    Alike s (s.withTables lut cb) :=
  .mk (fun _ => ⟨rfl, rfl, rfl⟩) (fun _ => ⟨rfl, rfl, rfl, h⟩)

/-- A unit's filter looks up only the constant bytes of the unit's width (42_unit.md R111). -/
theorem unitMap_congr {i : Instr} {cb cb' u : List Byte} (hu : u.length = unitBytes i)
    (h : usesConstant i = true → ∀ j < unitBytes i, cb'.getD j 0 = cb.getD j 0) :
    unitMap i cb' u = unitMap i cb u := by
  rw [← hu] at h
  cases i
  case addUint => exact List.mapIdx_eq_mapIdx_iff.mpr fun j hj => by rw [h rfl j hj]
  case subUint => exact List.mapIdx_eq_mapIdx_iff.mpr fun j hj => by rw [h rfl j hj]
  all_goals rfl

theorem putElement_withTables (s : State) (lut cb : List Byte) (off : Nat) (reads : List Addr)
    (bs : List Byte) :
    (s.withTables lut cb).putElement off reads bs =
      (s.putElement off reads bs).withTables lut cb := by
  have hun : (s.withTables lut cb).unspecified off reads = s.unspecified off reads := rfl
  unfold State.putElement
  rw [hun]
  split <;> rfl

theorem advance_withTables (s : State) (lut cb : List Byte) :
    (s.withTables lut cb).advance = s.advance.withTables lut cb := by
  by_cases hk : s.k + 1 = s.count
  · rw [advance_last s hk, advance_last (s.withTables lut cb) hk]
    rfl
  · rw [advance_more s hk, advance_more (s.withTables lut cb) hk]
    rfl

/-- The same element's writes and advance, of two machines whose tables agree. -/
theorem element_alike {s : State} {lut cb : List Byte} (h : TablesAgree s lut cb) (off : Nat)
    (reads : List Addr) (bs : List Byte) :
    OutcomeAlike (.next (s.putElement off reads bs).advance)
      (.next ((s.withTables lut cb).putElement off reads bs).advance) := by
  have hcur : (s.putElement off reads bs).advance.current = s.current := by simp [State.current]
  rw [putElement_withTables, advance_withTables]
  refine .next (alike_withTables ?_)
  unfold TablesAgree
  rw [hcur, advance_lut, advance_cb, putElement_lut, putElement_cb]
  exact h

theorem exec_run_alike {s : State} (hp : s.phase = .run) {lut cb : List Byte}
    (h : TablesAgree s lut cb) :
    OutcomeAlike (exec s.current s) (exec s.current (s.withTables lut cb)) := by
  have hp' : (s.withTables lut cb).phase = .run := hp
  cases hf : family s.current with
  | dual =>
    rw [exec_run_dual hf hp, exec_run_dual hf hp']
    exact element_alike h _ _ _
  | scalar =>
    have hlut : ∀ v, (s.withTables lut cb).lutAt v = s.lutAt v := by
      obtain rfl := h.1 hf
      exact fun _ => rfl
    rw [exec_run_scalar hf hp, exec_run_scalar hf hp', hlut]
    exact element_alike h _ _ _
  | unit =>
    cases hplan : s.plan with
    | copy =>
      rw [exec_run_copy hf hp hplan, exec_run_copy hf hp' hplan]
      exact element_alike h _ _ _
    | op =>
      rw [exec_run_unit hf hp hplan, exec_run_unit hf hp' hplan,
        unitMap_congr (cb' := (s.withTables lut cb).cb) (by simp) h.2]
      exact element_alike h _ _ _
  | neighborhood | illegal =>
    have hi : isFilter s.current = false := by simp [isFilter, hf]
    rw [exec_run_reserved hi hp, exec_run_reserved hi hp']
    exact .fault _

/-- What a command fills in its validate step does not depend on what the tables held, in all that
its elements look up (10_state.md R23, R24). -/
theorem startRun_alike (s : State) (plan : Plan) (count k : Nat) (lut cb : List Byte) (p : Plan)
    (n : Nat) : Alike ((buildFor s.current s).startRun p n)
      ((buildFor s.current { s with plan, count, k, lut, cb }).startRun p n) := by
  cases hf : family s.current with
  | scalar =>
    rw [buildFor_scalar _ hf, buildFor_scalar _ hf]
    refine alike_withTables (lut := _) (cb := cb) ⟨fun _ => rfl, fun hc => ?_⟩
    exact absurd ((family_of_usesConstant hc).symm.trans hf) (by simp)
  | unit =>
    cases hc : usesConstant s.current with
    | true =>
      rw [buildFor_constant _ hc, buildFor_constant _ hc]
      refine alike_withTables (lut := lut) (cb := _) ⟨fun hs => ?_, fun _ j hj => ?_⟩
      · exact absurd (hs.symm.trans hf) (by simp)
      · have hw := unitBytes_le s.current
        exact (getD_constantBytes _ _ _ hj hw).trans (getD_constantBytes _ _ _ hj hw).symm
    | false =>
      simp only [buildFor, hf, hc]
      refine alike_withTables (lut := lut) (cb := cb) ⟨fun hs => ?_, fun hu => ?_⟩
      · exact absurd (hs.symm.trans hf) (by simp)
      · exact absurd (hc.symm.trans hu) (by simp)
  | dual | neighborhood | illegal =>
    simp only [buildFor, hf]
    refine alike_withTables (lut := lut) (cb := cb) ⟨fun hs => ?_, fun hc => ?_⟩
    · exact absurd (hs.symm.trans hf) (by simp)
    · exact absurd ((family_of_usesConstant hc).symm.trans hf) (by simp)

theorem exec_validate_alike {s : State} (hp : s.phase = .validate) (plan : Plan) (count k : Nat)
    (lut cb : List Byte) :
    OutcomeAlike (exec s.current s) (exec s.current { s with plan, count, k, lut, cb }) := by
  rw [exec_validate _ hp, exec_validate (s := { s with plan, count, k, lut, cb }) _ hp]
  refine .next ?_
  cases validate s.current s.sh with
  | fail code => exact alike_of_idle rfl
  | succeed => exact alike_of_idle rfl
  | run p n => exact startRun_alike s plan count k lut cb p n

theorem exec_alike {s u : State} (h : Alike s u) :
    OutcomeAlike (exec s.current s) (exec u.current u) := by
  cases hp : s.phase with
  | idle =>
    rw [exec_idle _ hp, exec_idle _ (h.phase_eq.trans hp)]
    exact .next h
  | validate =>
    obtain ⟨latched, -⟩ := h
    obtain ⟨rfl, rfl, rfl⟩ := latched (by simp [hp])
    exact exec_validate_alike hp _ _ _ _ _
  | run =>
    obtain ⟨latched, running⟩ := h
    obtain ⟨rfl, rfl, rfl⟩ := latched (by simp [hp])
    obtain ⟨rfl, rfl, rfl, htables⟩ := running hp
    exact exec_run_alike hp htables

/-! ## The host's moves -/

theorem Alike.refl (s : State) : Alike s s :=
  .mk (fun _ => ⟨rfl, rfl, rfl⟩) (fun _ => ⟨rfl, rfl, rfl, fun _ => rfl, fun _ _ _ => rfl⟩)

theorem Alike.setInputs {s u : State} (h : Alike s u) (inputs : List Turn) :
    Alike { s with inputs } { u with inputs } := by
  obtain ⟨latched, running⟩ := h
  exact .mk latched running

theorem Alike.setHpc {s u : State} (h : Alike s u) (hpc : Nat) :
    Alike { s with hpc } { u with hpc } := by
  obtain ⟨latched, running⟩ := h
  exact .mk latched running

theorem Alike.setRead {s u : State} (h : Alike s u) (t : Word) (draws : Nat) :
    Alike { s with t, draws } { u with t, draws } := by
  obtain ⟨latched, running⟩ := h
  exact .mk latched running

theorem readRegister_alike {s u : State} (h : Alike s u) (off : BitVec 6) :
    readRegister u off = readRegister s off := by
  cases h
  rfl

theorem inWindow_alike {s u : State} (h : Alike s u) (a : Addr) : u.inWindow a = s.inWindow a := by
  cases h
  rfl

/-- The ranges of a command in progress are latched; in IDLE there are none. -/
theorem ranges_alike {s u : State} (h : Alike s u) (a : Addr) :
    u.inDestination a = s.inDestination a ∧ u.inBuffers a = s.inBuffers a := by
  obtain ⟨latched, -⟩ := h
  by_cases hp : s.phase = .idle
  · simp [State.inDestination, State.inBuffers, State.busy, hp]
  · obtain ⟨rfl, -, -⟩ := latched hp
    exact ⟨rfl, rfl⟩

theorem busy_of_inDestination {s : State} {a : Addr} (h : s.inDestination a = true) :
    s.phase ≠ .idle := by
  rintro hp
  simp [State.inDestination, State.busy, hp] at h

theorem busy_of_inBuffers {s : State} {a : Addr} (h : s.inBuffers a = true) : s.phase ≠ .idle := by
  rintro hp
  simp [State.inBuffers, State.busy, hp] at h

theorem runAhead_alike {s u : State} (h : Alike s u) (n : Nat) :
    Alike (runAhead n s) (runAhead n u) := by
  induction n generalizing s u with
  | zero => exact h
  | succ n ih =>
    have he := exec_alike h
    unfold runAhead
    generalize exec s.current s = o at he ⊢
    generalize exec u.current u = o' at he ⊢
    cases he with
    | next h' => exact ih h'
    | fault f => exact h
    | refused r => exact h

/-- Both values a racing read may return are the same: the memory the command found, and the memory
its remaining steps leave (20_memory.md R43). -/
theorem hostReadByte_alike {s u : State} (h : Alike s u) (a : Addr) :
    Alike (hostReadByte s a) (hostReadByte u a) := by
  unfold hostReadByte
  rw [(ranges_alike h a).1]
  split
  · rename_i hd
    obtain ⟨latched, running⟩ := h
    obtain ⟨rfl, rfl, rfl⟩ := latched (busy_of_inDestination hd)
    have h' := (Alike.mk latched running).setRead s.t (s.draws + 1)
    have hnew := (runAhead_alike h' (s.sh.len.toNat + 1)).sameVisible.memory
    simp only [hnew]
    exact h'.setRead _ _
  · obtain ⟨latched, running⟩ := h
    exact .mk latched running

theorem hostWriteByte_alike {s u : State} (h : Alike s u) (a : Addr) (v : Byte) :
    Alike (hostWriteByte s a v) (hostWriteByte u a v) := by
  unfold hostWriteByte
  rw [(ranges_alike h a).2]
  split
  · rename_i hb
    obtain ⟨latched, running⟩ := h
    obtain ⟨rfl, rfl, rfl⟩ := latched (busy_of_inBuffers hb)
    exact .mk (fun _ => ⟨rfl, rfl, rfl⟩) running
  · obtain ⟨latched, running⟩ := h
    exact .mk latched running

/-- Reset leaves no trace of the hidden state but a latched destination range. -/
theorem resetMove_alike {s u : State} (h : Alike s u) : Alike (resetMove s) (resetMove u) := by
  obtain ⟨latched, running⟩ := h
  unfold resetMove State.busy
  by_cases hp : s.phase = .idle
  · simp only [hp]
    exact .refl _
  · obtain ⟨rfl, rfl, rfl⟩ := latched hp
    simp only [bne_iff_ne, ne_eq, hp, not_false_eq_true, if_true]
    exact .refl _

/-- Acceptance latches the same operands in both machines. -/
theorem writeCmd_alike {s u : State} (h : Alike s u) (v : Word) :
    Alike (writeCmd s v) (writeCmd u v) := by
  by_cases hp : s.phase = .idle
  · rw [writeCmd_idle hp, writeCmd_idle (h.phase_eq.trans hp)]
    cases h
    exact .mk (fun _ => ⟨rfl, rfl, rfl⟩) nofun
  · rw [writeCmd_busy hp, writeCmd_busy (h.phase_eq ▸ hp)]
    obtain ⟨latched, running⟩ := h
    exact .mk latched running

theorem writeRegister_alike {s u : State} (h : Alike s u) (off : BitVec 6) (v : Word) :
    Alike (writeRegister s off v) (writeRegister u off v) := by
  unfold writeRegister
  split
  · exact writeCmd_alike h v
  all_goals
    obtain ⟨latched, running⟩ := h
    exact .mk latched running

theorem hostMove_alike {s u : State} (h : Alike s u) (m : HostMove) :
    OutcomeAlike (hostMove m s) (hostMove m u) := by
  cases m with
  | writeReg off width v =>
    simp only [hostMove]
    split
    · exact .next (writeRegister_alike h off v)
    · exact .refused _
  | readReg off width =>
    simp only [hostMove]
    rw [readRegister_alike h]
    split
    · obtain ⟨latched, running⟩ := h
      exact .next (.mk latched running)
    · exact .refused _
  | readByte a =>
    simp only [hostMove]
    rw [inWindow_alike h]
    split
    · exact .refused _
    · exact .next (hostReadByte_alike h a)
  | writeByte a v =>
    simp only [hostMove]
    rw [inWindow_alike h]
    split
    · exact .refused _
    · exact .next (hostWriteByte_alike h a v)
  | reset => exact .next (resetMove_alike h)

/-! ## The step -/

theorem programTurn_alike {s u : State} (h : Alike s u) :
    OutcomeAlike (programTurn s) (programTurn u) := by
  have h' := h
  obtain ⟨latched, running⟩ := h
  simp only [programTurn]
  split
  · exact .next h'
  · exact hostMove_alike (h'.setHpc _) _
  · exact .next (h'.setHpc _)
  · exact .next (h'.setHpc _)
  · exact .next (h'.setHpc _)

theorem windowConflict_of_idle {s : State} (hp : s.phase = .idle) : s.windowConflict = false := by
  have hphase : (s.phase == .validate) = false := by rw [hp]; rfl
  unfold State.windowConflict
  split
  · simp only [hphase, Bool.false_and]
  · rfl

/-- Only a command in VALIDATE can be refused for its buffers, and its operands are latched
(log 14). -/
theorem windowConflict_alike {s u : State} (h : Alike s u) :
    u.windowConflict = s.windowConflict := by
  by_cases hp : s.phase = .idle
  · rw [windowConflict_of_idle hp, windowConflict_of_idle (h.phase_eq.trans hp)]
  · obtain ⟨latched, -⟩ := h
    obtain ⟨rfl, -, -⟩ := latched hp
    rfl

theorem engineTurn_alike {s u : State} (h : Alike s u) :
    OutcomeAlike (engineTurn s) (engineTurn u) := by
  unfold engineTurn
  rw [windowConflict_alike h]
  split
  · exact .refused _
  · exact exec_alike h

theorem step_alike {s u : State} (h : Alike s u) : OutcomeAlike (step s) (step u) := by
  cases hi : s.inputs with
  | nil =>
    rw [step_of_noTurn hi, step_of_noTurn (h.inputs_eq.trans hi), h.phase_eq]
    split
    · exact programTurn_alike h
    · exact engineTurn_alike h
  | cons turn rest =>
    rw [step_of_turn hi, step_of_turn (h.inputs_eq.trans hi)]
    cases turn with
    | engine => exact engineTurn_alike (h.setInputs rest)
    | program => exact programTurn_alike (h.setInputs rest)
    | host m => exact hostMove_alike (h.setInputs rest) m

theorem run_alike {s u : State} (h : Alike s u) (n : Nat) :
    OutcomeAlike (core.run n s) (core.run n u) := by
  induction n generalizing s u with
  | zero => exact .next h
  | succ n ih =>
    have hstep : OutcomeAlike (core.step s) (core.step u) := step_alike h
    simp only [Host.Core.run]
    generalize core.step s = o at hstep ⊢
    generalize core.step u = o' at hstep ⊢
    cases hstep with
    | next h' => exact ih h'
    | fault f => exact .fault f
    | refused r => exact .refused r

/-- Settles O59: idle machines that agree in what is visible are alike, and alike machines run
alike. -/
theorem hiddenStateIsNeverObserved : Obligations.HiddenStateIsNeverObserved := by
  intro s u hp h n
  exact (run_alike (alike_of_sameVisible hp h) n).sameOutcome

end Sys2Proof.Machine
end

section
/-! PROOFS. Units as big-endian integers, and the addresses of a buffer's bytes (20_memory.md R32,
R33, R35). -/

namespace Sys2Proof.Machine

open Sys2Proof.Claims

/-- The last byte of a unit is its value's low byte (20_memory.md R35). -/
theorem toUnit_succ (v w : Nat) : toUnit v (w + 1) = toUnit (v / 256) w ++ [BitVec.ofNat 8 v] := by
  unfold toUnit
  rw [List.range_succ, List.map_append, List.map_singleton]
  congr 1
  · refine List.map_congr_left fun j hj => ?_
    have hj : j < w := List.mem_range.mp hj
    unfold unitByte
    rw [show 8 * (w + 1 - 1 - j) = 8 + 8 * (w - 1 - j) by omega, Nat.shiftRight_add,
      Nat.shiftRight_eq_div_pow v 8]
  · simp [unitByte]

theorem unitValue_succ (w : Nat) (u : Nat → Nat) :
    unitValue (w + 1) u = unitValue w u * 256 + u w := by
  unfold unitValue
  rw [Finset.sum_range_succ, Finset.sum_mul]
  congr 1
  · refine Finset.sum_congr rfl fun j hj => ?_
    have hj : j < w := Finset.mem_range.mp hj
    rw [show 8 * (w + 1 - 1 - j) = 8 * (w - 1 - j) + 8 by omega]
    ring
  · simp

theorem unitValue_congr {w : Nat} {u u' : Nat → Nat} (h : ∀ j < w, u j = u' j) :
    unitValue w u = unitValue w u' :=
  Finset.sum_congr rfl fun j hj => by rw [h j (Finset.mem_range.mp hj)]

theorem ofUnit_eq_unitValue (u : List Byte) :
    ofUnit u = unitValue u.length fun j => (u.getD j 0).toNat := by
  induction u using List.reverseRecOn with
  | nil => rfl
  | append_singleton u x ih =>
    have hinit : (unitValue u.length fun j => ((u ++ [x]).getD j 0).toNat) =
        unitValue u.length fun j => (u.getD j 0).toNat :=
      unitValue_congr fun j hj => by rw [List.getD_append _ _ _ _ hj]
    rw [ofUnit_append, List.length_append, List.length_singleton, unitValue_succ, hinit, ih]
    simp

theorem toUnit_ofUnit (u : List Byte) : toUnit (ofUnit u) u.length = u := by
  induction u using List.reverseRecOn with
  | nil => rfl
  | append_singleton u x ih =>
    have hx : x.toNat < 256 := x.isLt
    have hlow : BitVec.ofNat 8 (ofUnit u * 256 + x.toNat) = x := by
      apply BitVec.eq_of_toNat_eq
      simp only [BitVec.toNat_ofNat]
      omega
    rw [ofUnit_append, List.length_append, List.length_singleton, toUnit_succ, hlow,
      show (ofUnit u * 256 + x.toNat) / 256 = ofUnit u by omega, ih]

theorem ofUnit_toUnit (v w : Nat) : ofUnit (toUnit v w) = v % 2 ^ (8 * w) := by
  induction w generalizing v with
  | zero => simp [toUnit, ofUnit, Nat.mod_one]
  | succ w ih =>
    rw [toUnit_succ, ofUnit_append, ih, BitVec.toNat_ofNat,
      show 2 ^ (8 * (w + 1)) = 256 * 2 ^ (8 * w) by ring, Nat.mod_mul]
    omega

/-- Settles O46: packing as the positional sum, and the two inverse laws, byte by byte from the low
end. -/
theorem unitsAreBigEndian : Obligations.UnitsAreBigEndian :=
  ⟨ofUnit_eq_unitValue, toUnit_ofUnit, ofUnit_toUnit⟩

theorem toNat_bufAddr (base : Addr) (i : Nat) :
    (bufAddr base i).toNat = (base.toNat + i) % 2 ^ 32 := by
  simp [bufAddr]

/-- Only the start addresses are tested for null (20_memory.md R33; 60_exceptions.md R125). -/
theorem nullBuffer_iff (i : Instr) (r : Operands) :
    nullBuffer i r = true ↔ r.src1 = 0 ∨ r.dst = 0 ∨ (family i = .dual ∧ r.src2 = 0) := by
  simp [nullBuffer, or_assoc]

/-- Settles O45: an address is a 32-bit sum, and the null test names no offset. -/
theorem bufferAddressesWrap : Obligations.BufferAddressesWrap :=
  ⟨toNat_bufAddr, nullBuffer_iff⟩

end Sys2Proof.Machine
end

section
/-! PROOFS. What one engine step leaves unchanged, and where in memory it writes (10_state.md R29;
20_memory.md R40, R41; 42_unit.md R110; 60_exceptions.md R129). -/

namespace Sys2Proof.Machine

open Sys2Proof.Claims

/-! ## One element -/

theorem advance_status_drop (s : State) : s.advance.status.drop = s.status.drop := by
  unfold State.advance
  split <;> rfl

/-- All that an element leaves but memory, whatever it read (10_state.md R29). -/
theorem elementLeaves_putElement {s : State} (hp : s.phase = .run) (off : Nat)
    (reads : List Addr) (bs : List Byte) :
    ElementLeaves s (s.putElement off reads bs).advance where
  last h := by
    rw [advance_last _ (by simpa using h)]
    simp [Status.succeeded]
  more h := by
    rw [advance_more _ (by simpa using h)]
    simp [hp]
  drop := by rw [advance_status_drop, putElement_status]
  index := by simp
  registers := by simp
  engine := by simp
  host := by simp
  race := by simp

/-- An element writes its own destination bytes alone, the filter's or free ones (20_memory.md R40,
R41). -/
theorem onlyElement_putElement (s : State) (off : Nat) (reads : List Addr) {bs : List Byte}
    (h : bs.length ≤ 2 ^ 32) :
    OnlyElement s (s.putElement off reads bs).advance off bs.length := by
  intro a ha
  obtain ⟨bs', hlen, hmem⟩ := putElement_mem s off reads bs
  rw [← hlen] at h ha
  rw [advance_mem, hmem, read_writeBytes_outside _ _ _ _ _ h ha]

/-- Settles O37: `exec_run` answers one element for every filter in RUN, with no condition on what
the element reads. -/
theorem elementRunsWhateverItReads : Obligations.ElementRunsWhateverItReads := by
  intro i s hi hp
  obtain ⟨reads, bs, hlen, e⟩ := exec_run hi hp
  have hw := elementWidth_le i s.plan
  refine ⟨_, e, elementLeaves_putElement hp _ reads bs, ?_⟩
  rw [← hlen] at hw ⊢
  exact onlyElement_putElement s _ reads (by omega)

/-! ## One engine step -/

/-- Only an element writes memory (60_exceptions.md R129). -/
theorem exec_mem_of_not_run {i : Instr} {s t : State} (hp : s.phase ≠ .run)
    (h : exec i s = .next t) : t.mem = s.mem := by
  cases hphase : s.phase with
  | idle =>
    rw [exec_idle i hphase] at h
    cases h
    rfl
  | validate =>
    rw [exec_validate i hphase] at h
    cases h
    obtain ⟨-, -, hmem, -⟩ := settle_frame i s (validate i s.sh)
    exact hmem
  | run => exact absurd hphase hp

/-- A filter is what has an element to execute (log 16). -/
theorem isFilter_of_exec_run {i : Instr} {s t : State} (hp : s.phase = .run)
    (h : exec i s = .next t) : isFilter i = true := by
  by_contra hi
  rw [exec_run_reserved (by simpa using hi) hp] at h
  cases h

/-- An engine step in RUN is one element (10_state.md R29). -/
theorem exec_run_next {i : Instr} {s t : State} (hp : s.phase = .run) (h : exec i s = .next t) :
    ElementLeaves s t ∧ OnlyElement s t (s.k * elementWidth i s.plan) (elementWidth i s.plan) := by
  obtain ⟨u, e, hu⟩ := elementRunsWhateverItReads i s (isFilter_of_exec_run hp h) hp
  rw [e] at h
  cases h
  exact hu

theorem exec_read_outside {i : Instr} {s t : State} (h : exec i s = .next t) {a : Addr}
    (ha : ¬ (s.phase = .run ∧
      inElement s (s.k * elementWidth i s.plan) (elementWidth i s.plan) a)) :
    t.mem.read a = s.mem.read a := by
  by_cases hp : s.phase = .run
  · obtain ⟨-, honly⟩ := exec_run_next hp h
    exact honly a fun j hj hja => ha ⟨hp, j, hj, hja⟩
  · rw [exec_mem_of_not_run hp h]

/-- Settles O35, by what the engine step was: none, the validate step or an element. -/
theorem execFrame : Obligations.ExecFrame := by
  intro i s t h
  have hmem : ∀ a, ¬ (s.phase = .run ∧
      inElement s (s.k * elementWidth i s.plan) (elementWidth i s.plan) a) →
      t.mem.read a = s.mem.read a := fun a => exec_read_outside h
  cases hp : s.phase with
  | idle =>
    rw [exec_idle i hp] at h
    cases h
    simp
  | validate =>
    rw [exec_validate i hp] at h
    cases h
    obtain ⟨hreg, hsh, -, hirq, hdrop, hparams, hinputs, hprog, hhpc, ht, -, hraced, hpre⟩ :=
      settle_frame i s (validate i s.sh)
    exact ⟨hreg, hsh, hirq, hdrop, hparams, hinputs, hprog, hhpc, ht, hraced, hpre, hp ▸ hmem⟩
  | run =>
    obtain ⟨hleaves, -⟩ := exec_run_next hp h
    obtain ⟨hreg, hirq⟩ := hleaves.registers
    obtain ⟨hsh, -⟩ := hleaves.engine
    obtain ⟨hparams, hinputs, hprog, hhpc, ht⟩ := hleaves.host
    obtain ⟨hraced, hpre⟩ := hleaves.race
    exact ⟨hreg, hsh, hirq, hleaves.drop, hparams, hinputs, hprog, hhpc, ht, hraced, hpre,
      hp ▸ hmem⟩

/-! ## The destination range (20_memory.md R41) -/

/-- The elements of the command in progress lie in the first `count` widths of the destination. -/
theorem Inv.element_offset_lt {s : State} (h : Inv s) (hp : s.phase = .run) {j : Nat}
    (hj : j < elementWidth s.current s.plan) :
    s.k * elementWidth s.current s.plan + j < s.count * elementWidth s.current s.plan :=
  calc s.k * elementWidth s.current s.plan + j
      < (s.k + 1) * elementWidth s.current s.plan := by rw [Nat.succ_mul]; omega
    _ ≤ s.count * elementWidth s.current s.plan := Nat.mul_le_mul_right _ (h.index hp)

/-- Those widths lie in the destination range. -/
theorem Inv.elements_le_len {s : State} (h : Inv s) (hp : s.phase = .run) :
    s.count * elementWidth s.current s.plan ≤ s.sh.len.toNat := by
  obtain ⟨-, -, hlen⟩ := validate_run (h.validated hp)
  exact hlen

/-- A byte that an element of the command in progress writes, by its offset. -/
theorem Inv.bufOffset_of_inElement {s : State} (h : Inv s) (hp : s.phase = .run) {a : Addr}
    (ha : inElement s (s.k * elementWidth s.current s.plan) (elementWidth s.current s.plan) a) :
    bufOffset s.sh.dst a < s.count * elementWidth s.current s.plan := by
  obtain ⟨j, hj, rfl⟩ := ha
  have hoff := h.element_offset_lt hp hj
  have hlen := h.elements_le_len hp
  have hlt := s.sh.len.isLt
  rwa [bufOffset_bufAddr _ (by omega)]

/-- Under the OP plan of MODE 2 the elements are the whole units (42_unit.md R110). -/
theorem validate_unit_op {i : Instr} {r : Operands} {n : Nat} (hf : family i = .unit)
    (h : validate i r = .run .op n) : n = r.len.toNat / unitBytes i := by
  rw [validate_unit r hf] at h
  split_ifs at h <;> cases h
  rfl

/-- Settles O36: an element's offsets are below `count` widths, which are within LEN, and under the
OP plan of MODE 2 are the whole units. -/
theorem writesStayInTheDestination : Obligations.WritesStayInTheDestination := by
  intro s t hinv h
  refine ⟨fun a ha => exec_read_outside h fun ⟨hp, hel⟩ => ha ?_,
    fun hf hplan j hj hlen => exec_read_outside h fun ⟨hp, hel⟩ => ?_,
    fun hp => exec_mem_of_not_run hp h⟩
  · have hoff := hinv.bufOffset_of_inElement hp hel
    exact decide_eq_true (hoff.trans_le (hinv.elements_le_len hp))
  · have hoff := hinv.bufOffset_of_inElement hp hel
    have hcount : s.count = s.sh.len.toNat / unitBytes s.current :=
      validate_unit_op hf (hplan ▸ hinv.validated hp)
    have hwidth : elementWidth s.current s.plan = unitBytes s.current := by
      simp [elementWidth, hf, hplan]
    have hlt := s.sh.len.isLt
    rw [bufOffset_bufAddr _ (by omega), hcount, hwidth] at hoff
    omega

end Sys2Proof.Machine
end

section
/-! PROOFS. What the host's reads and writes of data bytes do (20_memory.md R31, R43). -/

namespace Sys2Proof.Machine

/-! ## Reads -/

theorem hostReadByte_outside {s : State} {a : Addr} (h : s.inDestination a = false) :
    hostReadByte s a = { s with t := (s.mem.read a).setWidth 32 } := by
  simp [hostReadByte, h]

/-- A racing read: the value before or the value after, one draw (log 5). -/
theorem hostReadByte_inside {s : State} {a : Addr} (h : s.inDestination a = true) :
    ∃ w : Byte,
      hostReadByte s a = { s with t := w.setWidth 32, draws := s.draws + 1 } ∧
      (w = s.pre.read a ∨
        w = (runAhead (s.sh.len.toNat + 1) { s with draws := s.draws + 1 }).mem.read a) := by
  refine ⟨if Config.freeChoice s.draws then s.pre.read a else
    (runAhead (s.sh.len.toNat + 1) { s with draws := s.draws + 1 }).mem.read a, ?_, ?_⟩
  · simp [hostReadByte, h]
  · split <;> simp

/-! ## Writes -/

theorem getD_freshBytes (d : Nat) {n j : Nat} (h : j < n) :
    (freshBytes d n).getD j 0 = Config.freeByte (d + j) := by
  simp [freshBytes, List.getD, h]

theorem putFree_read_inside (s : State) {n i : Nat} (hn : n ≤ 2 ^ 32) (hi : i < n) :
    (s.putFree 0 n).mem.read (bufAddr s.sh.dst i) = Config.freeByte (s.draws + i) := by
  have h := read_writeBytes_inside s.mem s.sh.dst 0 (freshBytes s.draws n) (j := i)
    (by simpa using hn) (by simpa using hi)
  rwa [Nat.zero_add, getD_freshBytes _ hi] at h

theorem putFree_read_outside (s : State) {n : Nat} (hn : n ≤ 2 ^ 32) {x : Addr}
    (hx : inBuffer s.sh.dst n x = false) : (s.putFree 0 n).mem.read x = s.mem.read x := by
  refine read_writeBytes_outside _ _ _ _ _ (by simpa using hn) ?_
  rintro j hj rfl
  rw [length_freshBytes] at hj
  have hoff := bufOffset_bufAddr s.sh.dst (hj.trans_le hn)
  simp [inBuffer, hoff, hj] at hx

theorem hostWriteByte_apart {s : State} {a : Addr} (h : s.inBuffers a = false) (v : Byte) :
    hostWriteByte s a v = { s with mem := s.mem.write a v } := by
  simp [hostWriteByte, h]

theorem hostWriteByte_racing {s : State} {a : Addr} (h : s.inBuffers a = true) (v : Byte) :
    hostWriteByte s a v =
      { ({ s with mem := s.mem.write a v } : State).putFree 0 s.sh.len.toNat with
        raced := true } := by
  simp [hostWriteByte, h]

/-- A host write changes memory, the draws and the race mark alone (logs 3, 4). -/
theorem hostWriteByte_frame (s : State) (a : Addr) (v : Byte) :
    hostWriteByte s a v = { s with
      mem := (hostWriteByte s a v).mem
      draws := (hostWriteByte s a v).draws
      raced := s.raced || s.inBuffers a } := by
  cases h : s.inBuffers a with
  | false =>
    rw [hostWriteByte_apart h, Bool.or_false]
  | true =>
    rw [hostWriteByte_racing h, Bool.or_true]
    rfl

/-- Outside the destination range of a command raced with, a byte reads what the write stored. -/
theorem hostWriteByte_read (s : State) (a : Addr) (v : Byte) {x : Addr}
    (hx : s.inBuffers a = true → inBuffer s.sh.dst s.sh.len.toNat x = false) :
    (hostWriteByte s a v).mem.read x = if x = a then v else s.mem.read x := by
  simp only [eq_comm (a := x)]
  cases h : s.inBuffers a with
  | false => rw [hostWriteByte_apart h, read_write]
  | true =>
    rw [hostWriteByte_racing h]
    exact (putFree_read_outside { s with mem := s.mem.write a v } s.sh.len.isLt.le (hx h)).trans
      (read_write _ _ _ _)

theorem hostWriteByte_read_destination {s : State} {a : Addr} (h : s.inBuffers a = true) (v : Byte)
    {i : Nat} (hi : i < s.sh.len.toNat) :
    (hostWriteByte s a v).mem.read (bufAddr s.sh.dst i) = Config.freeByte (s.draws + i) := by
  rw [hostWriteByte_racing h]
  exact putFree_read_inside { s with mem := s.mem.write a v } s.sh.len.isLt.le hi

/-! ## The memory that the command found -/

@[simp] theorem hostWriteByte_pre (s : State) (a : Addr) (v : Byte) :
    (hostWriteByte s a v).pre = s.pre := by
  unfold hostWriteByte
  split <;> rfl

theorem writeRegister_pre_busy {s : State} (hp : s.phase ≠ .idle) (off : BitVec 6) (v : Word) :
    (writeRegister s off v).pre = s.pre := by
  rcases writeRegister_cases s off v with ⟨hidle, -⟩ | ⟨-, e⟩ | e | e | ⟨r, -, e⟩
  · exact absurd hidle hp
  all_goals rw [e]

/-- Only acceptance and reset set `pre` (log 5). -/
theorem hostMove_pre {m : HostMove} {s t : State} (hp : s.phase ≠ .idle)
    (h : hostMove m s = .next t) (hq : t.phase ≠ .idle) : t.pre = s.pre := by
  rcases hostMove_next h with ⟨off, v, rfl⟩ | ⟨w, d, rfl⟩ | ⟨a, v, rfl⟩ | rfl
  · exact writeRegister_pre_busy hp off v
  · rfl
  · exact hostWriteByte_pre s a v
  · exact absurd rfl hq

theorem hostMove_readByte {s : State} {a : Addr} (h : s.inWindow a = false) :
    hostMove (.readByte a) s = .next (hostReadByte s a) := by
  simp [hostMove, h]

theorem hostMove_writeByte {s : State} {a : Addr} (h : s.inWindow a = false) (v : Byte) :
    hostMove (.writeByte a v) s = .next (hostWriteByte s a v) := by
  simp [hostMove, h]

/-- Settles O44: a read by whether it races, a write by what each byte then reads, and `pre` by what
a host move can be. -/
theorem hostByteAccesses : Obligations.HostByteAccesses := by
  refine ⟨fun s a v hw => ⟨?_, ?_⟩, fun s w hp => ?_, fun s t m hp h hq => hostMove_pre hp h hq⟩
  · rw [hostMove_readByte hw]
    cases hd : s.inDestination a with
    | false => exact ⟨s.mem.read a, s.draws, by rw [hostReadByte_outside hd], by simp⟩
    | true =>
      obtain ⟨w, e, hread⟩ := hostReadByte_inside hd
      exact ⟨w, s.draws + 1, by rw [e], by simp, fun _ => hread⟩
  · refine ⟨_, hostMove_writeByte hw v, hostWriteByte_frame s a v,
      fun x hx => hostWriteByte_read s a v hx, fun hb => ?_,
      fun hb i hi => hostWriteByte_read_destination hb v hi⟩
    rw [hostWriteByte_apart hb]
  · refine ⟨_, hostMove_writeReg_word rfl w s, ?_⟩
    have e : writeRegister s 0x00 w = s.accept w := writeCmd_idle hp w
    rw [e]
    exact ⟨rfl, rfl⟩

end Sys2Proof.Machine
end

section
/-! PROOFS. Decoding and encoding are inverse to each other, and the family of every word
(30_encoding.md R50, R52, R59 to R62). -/

namespace Sys2Proof

open Sys2Proof.Machine

/-! ## The reserved fields (30_encoding.md R59) -/

/-- The mask keeps the reserved fields whole. -/
theorem reserved_fields_masked (w : Word) :
    res0 (w &&& reservedMask) = res0 w ∧ res1 (w &&& reservedMask) = res1 w ∧
      res2 (w &&& reservedMask) = res2 w := by
  unfold res0 res1 res2
  rw [BitVec.extractLsb'_and, BitVec.extractLsb'_and, BitVec.extractLsb'_and]
  exact ⟨BitVec.and_allOnes, BitVec.and_allOnes, BitVec.and_allOnes⟩

/-- A word with its reserved fields clear is the command word of its other fields. -/
theorem eq_commandWord {w : Word} (h0 : res0 w = 0) (h1 : res1 w = 0) (h2 : res2 w = 0) :
    w = commandWord (mode w) (func w) (bppm1 w) (shamt w) := by
  apply BitVec.eq_of_toNat_eq
  rw [toNat_commandWord]
  have h0 := congrArg BitVec.toNat h0
  have h1 := congrArg BitVec.toNat h1
  have h2 := congrArg BitVec.toNat h2
  simp only [func, mode, bppm1, shamt, res0, res1, res2, BitVec.extractLsb'_toNat,
    Nat.shiftRight_eq_div_pow, BitVec.ofNat_eq_ofNat, BitVec.toNat_ofNat, Nat.zero_mod] at *
  omega

/-- No bit under the mask is set where the three reserved fields are clear. -/
theorem reserved_eq_zero_iff (w : Word) :
    w &&& reservedMask = 0 ↔ res0 w = 0 ∧ res1 w = 0 ∧ res2 w = 0 := by
  constructor
  · intro h
    obtain ⟨h0, h1, h2⟩ := reserved_fields_masked w
    rw [← h0, ← h1, ← h2, h]
    exact ⟨rfl, rfl, rfl⟩
  · rintro ⟨h0, h1, h2⟩
    rw [eq_commandWord h0 h1 h2]
    exact Laws.OpcodeRow.reserved_commandWord _ _ _ _

theorem decode_of_reserved {w : Word} (h : w &&& reservedMask ≠ 0) : decode w = .reservedBits w := by
  rw [Ne, reserved_eq_zero_iff] at h
  exact if_pos (by tauto)

/-- Every word has a reserved bit set or is a command word (30_encoding.md R50, R62). -/
theorem word_cases (w : Word) :
    w &&& reservedMask ≠ 0 ∨ ∃ m f b n, w = commandWord m f b n := by
  by_cases h : w &&& reservedMask = 0
  · obtain ⟨h0, h1, h2⟩ := (reserved_eq_zero_iff w).mp h
    exact .inr ⟨_, _, _, _, eq_commandWord h0 h1 h2⟩
  · exact .inl h

/-! ## The opcode maps (30_encoding.md R52, R60) -/

/-- Each row of MODE 0 is the instruction of its FUNC, by the 16 values of FUNC. -/
theorem decodeMode0_row (f b : BitVec 4) (n : BitVec 6) :
    encode (decodeMode0 f b n) = commandWord 0 f b n ∧ (decodeMode0 f b n).wellFormed = true ∧
      family (decodeMode0 f b n) = if f.toNat < 12 then .dual else .illegal := by
  obtain ⟨k⟩ := f
  fin_cases k <;> exact ⟨rfl, rfl, rfl⟩

/-- Each row of MODE 1 is the instruction of its FUNC, by the 16 values of FUNC. -/
theorem decodeMode1_row (f b : BitVec 4) (n : BitVec 6) :
    encode (decodeMode1 f b n) = commandWord 1 f b n ∧ (decodeMode1 f b n).wellFormed = true ∧
      family (decodeMode1 f b n) = if f.toNat < 12 then .scalar else .illegal := by
  obtain ⟨k⟩ := f
  fin_cases k <;> exact ⟨rfl, rfl, rfl⟩

/-- Each row of MODE 2 is the instruction of its FUNC, by the 16 values of FUNC. -/
theorem decodeMode2_row (f b : BitVec 4) (n : BitVec 6) :
    encode (decodeMode2 f b n) = commandWord 2 f b n ∧ (decodeMode2 f b n).wellFormed = true ∧
      family (decodeMode2 f b n) = if f.toNat < 4 then .unit else .illegal := by
  obtain ⟨k⟩ := f
  fin_cases k <;> exact ⟨rfl, rfl, rfl⟩

/-- The instruction of a command word, by MODE (30_encoding.md R51, R62). -/
theorem decode_commandWord_row (m : BitVec 2) (f b : BitVec 4) (n : BitVec 6) :
    encode (decode (commandWord m f b n)) = commandWord m f b n ∧
      (decode (commandWord m f b n)).wellFormed = true ∧
      family (decode (commandWord m f b n)) =
        if m = 3 then .neighborhood
        else if m = 0 then if f.toNat < 12 then .dual else .illegal
        else if m = 1 then if f.toNat < 12 then .scalar else .illegal
        else if f.toNat < 4 then .unit else .illegal := by
  rw [decode_commandWord]
  obtain ⟨k⟩ := m
  fin_cases k
  · exact decodeMode0_row f b n
  · exact decodeMode1_row f b n
  · exact decodeMode2_row f b n
  · exact ⟨rfl, rfl, rfl⟩

theorem decodeMode0_reserved (f : BitVec 2) (b : BitVec 4) (n : BitVec 6) :
    decodeMode0 ((3 : BitVec 2) ++ f) b n = .reservedMode0 f b n := by
  obtain ⟨k⟩ := f
  fin_cases k <;> rfl

theorem decodeMode1_reserved (f : BitVec 2) (b : BitVec 4) (n : BitVec 6) :
    decodeMode1 ((3 : BitVec 2) ++ f) b n = .reservedMode1 f b n := by
  obtain ⟨k⟩ := f
  fin_cases k <;> rfl

theorem decodeMode2_reservedLow (f : BitVec 2) (b : BitVec 4) (n : BitVec 6) :
    decodeMode2 ((1 : BitVec 2) ++ f) b n = .reservedMode2Low f b n := by
  obtain ⟨k⟩ := f
  fin_cases k <;> rfl

theorem decodeMode2_reservedHigh (f : BitVec 3) (b : BitVec 4) (n : BitVec 6) :
    decodeMode2 ((1 : BitVec 1) ++ f) b n = .reservedMode2High f b n := by
  obtain ⟨k⟩ := f
  fin_cases k <;> rfl

/-! ## The two directions -/

/-- Settles O1, row by row: a filter's word has constant MODE and FUNC, a reserved row's word carries
the low bits of FUNC, and a word of the reserved-bits row is kept whole. -/
theorem decodeInvertsEncode : Obligations.DecodeInvertsEncode := by
  intro i hi
  cases i
  case reservedBits w => exact decode_of_reserved (bne_iff_ne.mp hi)
  case reservedMode0 f b n => exact (decode_commandWord ..).trans (decodeMode0_reserved f b n)
  case reservedMode1 f b n => exact (decode_commandWord ..).trans (decodeMode1_reserved f b n)
  case reservedMode2Low f b n => exact (decode_commandWord ..).trans (decodeMode2_reservedLow f b n)
  case reservedMode2High f b n =>
    exact (decode_commandWord ..).trans (decodeMode2_reservedHigh f b n)
  all_goals exact decode_commandWord ..

/-- Settles O2: a word with a reserved bit set is kept whole, and any other is a command word. -/
theorem encodeInvertsDecode : Obligations.EncodeInvertsDecode := by
  intro w
  rcases word_cases w with hw | ⟨m, f, b, n, rfl⟩
  · rw [decode_of_reserved hw]
    exact ⟨bne_iff_ne.mpr hw, rfl⟩
  · obtain ⟨hencode, hwf, -⟩ := decode_commandWord_row m f b n
    exact ⟨hwf, hencode⟩

/-! ## The family of every word -/

/-- The reserved fields as numbers (30_encoding.md R50). -/
theorem reserved_ne_zero_iff (w : Word) :
    w &&& reservedMask ≠ 0 ↔
      w.toNat / 2 ^ 6 % 2 ^ 2 ≠ 0 ∨ w.toNat / 2 ^ 12 % 2 ^ 4 ≠ 0 ∨ w.toNat / 2 ^ 22 ≠ 0 := by
  have hw : w.toNat / 2 ^ 22 < 2 ^ 10 := by omega
  rw [Ne, reserved_eq_zero_iff]
  simp only [res0, res1, res2, ← BitVec.toNat_inj, BitVec.extractLsb'_toNat,
    Nat.shiftRight_eq_div_pow, Nat.mod_eq_of_lt hw]
  tauto

/-- Settles O3: the reserved fields first, then the command word by its MODE and FUNC. -/
theorem decodeSortsEveryWord : Obligations.DecodeSortsEveryWord := by
  intro w
  rcases word_cases w with hw | ⟨m, f, b, n, rfl⟩
  · rw [if_pos ((reserved_ne_zero_iff w).mp hw), decode_of_reserved hw]
    rfl
  · obtain ⟨-, -, hfamily⟩ := decode_commandWord_row m f b n
    have hclear := Laws.OpcodeRow.reserved_commandWord m f b n
    have hm : (commandWord m f b n).toNat / 2 ^ 4 % 2 ^ 2 = m.toNat := by
      rw [toNat_commandWord]
      omega
    have hf : (commandWord m f b n).toNat % 2 ^ 4 = f.toNat := by
      rw [toNat_commandWord]
      omega
    rw [if_neg (mt (reserved_ne_zero_iff _).mpr (not_not.mpr hclear)), hm, hf, hfamily]
    simp only [← BitVec.toNat_inj]
    rfl

/-- Settles O4: each word is evaluated. -/
theorem sampleWordsDecode : Obligations.SampleWordsDecode := by
  unfold Obligations.SampleWordsDecode
  decide

end Sys2Proof
end

section
/-! PROOFS. The engine's step looks at no field that the filter does not use (30_encoding.md R58):
what it does look at, and that the ignored fields leave it as it is. -/

namespace Sys2Proof.Machine

open Sys2Proof.Claims

/-- All that the engine's step takes from a command and its operands: `i` with `r` and `i'` with `r'`
give the same. -/
structure SameEffect (i i' : Instr) (r r' : Operands) : Prop where
  family : family i' = family i
  verdict : validate i' r' = validate i r
  src1 : r'.src1 = r.src1
  src2 : Machine.family i = .dual → r'.src2 = r.src2
  dst : r'.dst = r.dst
  reads : ∀ p, readBuffers p i' r' = readBuffers p i r
  dual : ∀ p, dualMap p i' = dualMap p i
  scalar : scalarMap i' r' = scalarMap i r
  unit : unitMap i' = unitMap i
  width : unitBytes i' = unitBytes i
  constant : usesConstant i' = usesConstant i
  value : usesConstant i = true → uc r' = uc r

/-! ## Other shadow registers -/

/-- An element writes where the shadow DST says. -/
theorem putElement_shadowed {s : State} {r : Operands} (hd : r.dst = s.sh.dst) (off : Nat)
    (reads : List Addr) (bs : List Byte) :
    (shadowed r s).putElement off reads bs = shadowed r (s.putElement off reads bs) := by
  have hun : (shadowed r s).unspecified off reads = s.unspecified off reads := by
    have ho : (shadowed r s).overwritten off = s.overwritten off := by
      funext a
      show inBuffer r.dst off a = inBuffer s.sh.dst off a
      rw [hd]
    show (s.raced || reads.any ((shadowed r s).overwritten off)) = _
    rw [ho]
    rfl
  unfold State.putElement
  rw [hun]
  split
  · simp only [shadowed, State.putFree, hd]
  · simp only [shadowed, State.putBytes, hd]

theorem advance_shadowed (s : State) (r : Operands) :
    (shadowed r s).advance = shadowed r s.advance := by
  by_cases hk : s.k + 1 = s.count
  · rw [advance_last s hk, advance_last (shadowed r s) hk]
    rfl
  · rw [advance_more s hk, advance_more (shadowed r s) hk]
    rfl

/-- The same element's writes and advance, with other shadow registers behind them. -/
theorem element_shadowed {s : State} {r : Operands} (hd : r.dst = s.sh.dst) (off : Nat)
    (reads : List Addr) (bs : List Byte) :
    Host.Outcome.next ((shadowed r s).putElement off reads bs).advance =
      withShadow r (.next (s.putElement off reads bs).advance) := by
  rw [putElement_shadowed hd, advance_shadowed]
  rfl

/-! ## The step takes nothing else -/

theorem buildFor_congr {i i' : Instr} {s : State} {r : Operands} (h : SameEffect i i' s.sh r) :
    buildFor i' (shadowed r s) = shadowed r (buildFor i s) := by
  cases hf : family i with
  | scalar =>
    rw [buildFor_scalar _ hf, buildFor_scalar _ (h.family.trans hf),
      show (shadowed r s).sh = r from rfl, h.scalar]
    rfl
  | unit =>
    cases hc : usesConstant i with
    | true =>
      rw [buildFor_constant _ hc, buildFor_constant _ (h.constant.trans hc), h.width]
      simp only [State.buildCb, shadowed, cu, h.value hc]
    | false => simp [buildFor, hf, hc, h.family, h.constant]
  | dual | neighborhood | illegal => simp [buildFor, hf, h.family]

theorem exec_validate_congr {i i' : Instr} {s : State} {r : Operands} (h : SameEffect i i' s.sh r)
    (hp : s.phase = .validate) : exec i' (shadowed r s) = withShadow r (exec i s) := by
  rw [exec_validate i hp, exec_validate (s := shadowed r s) i' hp,
    show (shadowed r s).sh = r from rfl, h.verdict]
  cases validate i s.sh with
  | fail code => rfl
  | succeed => rfl
  | run p n =>
    simp only [State.settle, buildFor_congr h]
    rfl

theorem exec_run_congr {i i' : Instr} {s : State} {r : Operands} (h : SameEffect i i' s.sh r)
    (hp : s.phase = .run) : exec i' (shadowed r s) = withShadow r (exec i s) := by
  have hp' : (shadowed r s).phase = .run := hp
  have hsh : (shadowed r s).sh = r := rfl
  have hf' := h.family
  cases hf : family i with
  | dual =>
    rw [hf] at hf'
    rw [exec_run_dual hf hp, exec_run_dual hf' hp', hsh, h.reads, h.dual, h.src1, h.src2 hf]
    exact element_shadowed h.dst _ _ _
  | scalar =>
    rw [hf] at hf'
    rw [exec_run_scalar hf hp, exec_run_scalar hf' hp', hsh, h.src1]
    exact element_shadowed h.dst _ _ _
  | unit =>
    rw [hf] at hf'
    cases hplan : s.plan with
    | copy =>
      rw [exec_run_copy hf hp hplan, exec_run_copy hf' hp' hplan, hsh, h.src1]
      exact element_shadowed h.dst _ _ _
    | op =>
      rw [exec_run_unit hf hp hplan, exec_run_unit hf' hp' hplan, hsh, h.src1, h.unit, h.width]
      exact element_shadowed h.dst _ _ _
  | neighborhood | illegal =>
    rw [exec_run_reserved (by simp [isFilter, hf]) hp,
      exec_run_reserved (by simp [isFilter, hf', hf]) hp']
    rfl

/-- The engine's step takes from a command and its operands nothing but what `SameEffect` lists. -/
theorem exec_congr {i i' : Instr} {s : State} {r : Operands} (h : SameEffect i i' s.sh r) :
    exec i' (shadowed r s) = withShadow r (exec i s) := by
  cases hp : s.phase with
  | idle =>
    rw [exec_idle i hp, exec_idle (s := shadowed r s) i' hp]
    rfl
  | validate => exact exec_validate_congr h hp
  | run => exact exec_run_congr h hp

/-- An engine step keeps its shadow registers, so putting them back changes nothing. -/
theorem withShadow_exec (i : Instr) (s : State) : withShadow s.sh (exec i s) = exec i s := by
  cases he : exec i s with
  | next t =>
    obtain ⟨-, hsh, -⟩ := execFrame i s t he
    rw [← hsh]
    rfl
  | fault f => rfl
  | refused f => rfl

/-! ## The ignored fields of the command word (30_encoding.md R53, R54) -/

/-- A filter's row has one meaning for all values of the fields it ignores. -/
theorem sameEffect_of_sameButIgnored {i i' : Instr} (h : SameButIgnored i i') (r : Operands) :
    SameEffect i i' r r := by
  obtain ⟨b, b', n, n', h⟩ := h
  obtain ⟨mk, hmk, rfl, rfl⟩ | ⟨mk, hmk, rfl, rfl, rfl⟩ | ⟨mk, hmk, rfl, rfl, rfl⟩ := h
  all_goals
    fin_cases hmk <;> constructor <;> intros <;> rfl

/-! ## The operand registers a filter does not use (30_encoding.md R55, R56) -/

section
variable {i : Instr} {r r' : Operands}

theorem uc_of_agree (h : AgreeOnUsed i r r') (hc : usesConstant i = true) : uc r' = uc r := by
  obtain ⟨h0, h1, h2, h3⟩ := h.uconst hc
  rw [uc, uc, h0, h1, h2, h3]

theorem nullBuffer_of_agree (h : AgreeOnUsed i r r') : nullBuffer i r' = nullBuffer i r := by
  unfold nullBuffer
  rw [h.src1, h.dst]
  by_cases hf : family i = .dual
  · rw [h.src2 hf]
  · rw [beq_false_of_ne hf]
    rfl

theorem degenerate_of_agree (h : AgreeOnUsed i r r') : degenerate i r' = degenerate i r := by
  cases i
  case normalizeLinear b n =>
    show (p1 r' == p0 r') = (p1 r == p0 r)
    rw [h.param0 ⟨b, n, by simp⟩, h.param1 ⟨b, n, by simp⟩]
  all_goals rfl

theorem copyShortcut_of_agree (h : AgreeOnUsed i r r') : copyShortcut i r' = copyShortcut i r := by
  cases i
  case addUint b n => simp only [copyShortcut, cu, uc_of_agree h rfl]
  case subUint b n => simp only [copyShortcut, cu, uc_of_agree h rfl]
  all_goals rfl

theorem validate_of_agree (h : AgreeOnUsed i r r') : validate i r' = validate i r := by
  simp only [validate, nullBuffer_of_agree h, degenerate_of_agree h, copyShortcut_of_agree h, h.len]

theorem readBuffers_of_agree (h : AgreeOnUsed i r r') (p : Config.Params) :
    readBuffers p i r' = readBuffers p i r := by
  have hs : sources i r' = sources i r := by
    cases hf : family i <;> simp [sources, hf, h.src1, h.src2]
  unfold readBuffers
  split
  · rw [h.src1, h.src2 rfl]
  · exact hs

/-- A filter's mapping takes only the PARAM bytes it names. -/
theorem scalarMap_of_agree (h : AgreeOnUsed i r r') : scalarMap i r' = scalarMap i r := by
  have h0 : ∀ b n, i ∈ [.addByte b n, .addByteToHalf b n, .subByte b n, .multByByte b n,
      .shiftRightAndMultByByte b n, .binarizeUsingThreshold b n, .clipToRange b n,
      .normalizeLinear b n] → p0 r' = p0 r := fun b n hi => (h.param0 ⟨b, n, hi⟩).symm
  cases i
  case clipToRange b n =>
    simp only [scalarMap, h0 b n (by simp), h.param1 ⟨b, n, by simp⟩]
  case normalizeLinear b n =>
    obtain ⟨h2, h3⟩ := h.param23 ⟨b, n, rfl⟩
    simp only [scalarMap, h0 b n (by simp), h.param1 ⟨b, n, by simp⟩, h2, h3]
  case addByte b n | addByteToHalf b n | subByte b n | multByByte b n
      | shiftRightAndMultByByte b n | binarizeUsingThreshold b n =>
    simp only [scalarMap, h0 b n (by simp)]
  all_goals rfl

theorem sameEffect_of_agree (h : AgreeOnUsed i r r') : SameEffect i i r r' where
  family := rfl
  verdict := validate_of_agree h
  src1 := h.src1.symm
  src2 hf := (h.src2 hf).symm
  dst := h.dst.symm
  reads := readBuffers_of_agree h
  dual _ := rfl
  scalar := scalarMap_of_agree h
  unit := rfl
  width := rfl
  constant := rfl
  value := uc_of_agree h

end

/-- Settles O38: in either half the step takes the same from the command and its operands. -/
theorem ignoredFieldsHaveNoEffect : Obligations.IgnoredFieldsHaveNoEffect := by
  refine ⟨fun i i' s h => ?_, fun i s r h => exec_congr (sameEffect_of_agree h)⟩
  rw [← withShadow_exec i s]
  exact (exec_congr (sameEffect_of_sameButIgnored h s.sh)).symm

end Sys2Proof.Machine
end

section
/-! PROOFS. Every filter statement of the assembler, run from IDLE, writes the operands of its filter
and issues its command (30_encoding.md R63 to R65). -/

namespace Sys2Proof.Machine

open Sys2Proof.Claims

/-! ## Immediates (30_encoding.md R63) -/

theorem fits_bind {α : Type} (w v : Nat) (f : BitVec w → Option α) :
    (fits w v >>= f) = if v < 2 ^ w then f (BitVec.ofNat w v) else none := by
  unfold fits
  split <;> rfl

theorem bppField_bind {α : Type} (n : Nat) (f : BitVec 4 → Option α) :
    (bppField n >>= f) = if 1 ≤ n ∧ n ≤ 16 then f (BitVec.ofNat 4 (n - 1)) else none := by
  unfold bppField Config.maxBpp
  split <;> rfl

theorem fits_fits_bind {α : Type} (w v w' v' : Nat) (f : BitVec w → BitVec w' → Option α) :
    (fits w v >>= fun x => fits w' v' >>= f x) =
      if v < 2 ^ w ∧ v' < 2 ^ w' then f (BitVec.ofNat w v) (BitVec.ofNat w' v') else none := by
  rw [fits_bind, fits_bind, ite_and]

theorem four_fits_bind {α : Type} (w a b u v : Nat)
    (f : BitVec w → BitVec w → BitVec w → BitVec w → Option α) :
    (fits w a >>= fun x => fits w b >>= fun y => fits w u >>= fun z => fits w v >>= f x y z) =
      if a < 2 ^ w ∧ b < 2 ^ w ∧ u < 2 ^ w ∧ v < 2 ^ w
      then f (BitVec.ofNat w a) (BitVec.ofNat w b) (BitVec.ofNat w u) (BitVec.ofNat w v)
      else none := by
  rw [fits_fits_bind, fits_fits_bind, ← ite_and]
  simp only [and_assoc]

theorem bppField_fits_bind {α : Type} (n w v : Nat) (f : BitVec 4 → BitVec w → Option α) :
    (bppField n >>= fun b => fits w v >>= f b) =
      if 1 ≤ n ∧ n ≤ 16 ∧ v < 2 ^ w then f (BitVec.ofNat 4 (n - 1)) (BitVec.ofNat w v)
      else none := by
  simp only [bppField_bind, fits_bind, ite_and]

/-- The command word as the rules write it: the opcode byte, BPPM1 and SHAMT (30_encoding.md R52). -/
theorem commandWord_eq_wordOf (m : BitVec 2) (f b : BitVec 4) (n : BitVec 6) :
    commandWord m f b n = wordOf (f.toNat + m.toNat * 2 ^ 4) b n := by
  apply BitVec.eq_of_toNat_eq
  rw [toNat_commandWord, wordOf, BitVec.toNat_ofNat]
  omega

/-- PARAM of four immediate bytes (30_encoding.md R55, R65). -/
theorem paramWord_four {a b u : Nat} (v : Nat) (ha : a < 2 ^ 8) (hb : b < 2 ^ 8)
    (hu : u < 2 ^ 8) :
    paramWord 4 [BitVec.ofNat 8 a, BitVec.ofNat 8 b, BitVec.ofNat 8 u, BitVec.ofNat 8 v] =
      BitVec.ofNat 32 (a + b * 2 ^ 8 + u * 2 ^ 16 + v * 2 ^ 24) := by
  apply BitVec.eq_of_toNat_eq
  simp only [paramWord, List.take_succ_cons, List.take_nil, List.getD_cons_zero,
    List.getD_cons_succ, toNat_append_eq, BitVec.toNat_ofNat]
  omega

/-- The bytes that a filter does not use are 0 (30_encoding.md R65). -/
theorem paramWord_two {a b : Nat} (ha : a < 2 ^ 8) (hb : b < 2 ^ 8) :
    paramWord 2 [BitVec.ofNat 8 a, BitVec.ofNat 8 b] = BitVec.ofNat 32 (a + b * 2 ^ 8) := by
  calc paramWord 2 [BitVec.ofNat 8 a, BitVec.ofNat 8 b]
      = paramWord 4 [BitVec.ofNat 8 a, BitVec.ofNat 8 b, BitVec.ofNat 8 0, BitVec.ofNat 8 0] := rfl
    _ = BitVec.ofNat 32 (a + b * 2 ^ 8 + 0 * 2 ^ 16 + 0 * 2 ^ 24) :=
      paramWord_four 0 ha hb (by omega)
    _ = BitVec.ofNat 32 (a + b * 2 ^ 8) := by simp

theorem paramWord_one {c : Nat} (hc : c < 2 ^ 8) :
    paramWord 1 [BitVec.ofNat 8 c] = BitVec.ofNat 32 c := by
  calc paramWord 1 [BitVec.ofNat 8 c] = paramWord 2 [BitVec.ofNat 8 c, BitVec.ofNat 8 0] := rfl
    _ = BitVec.ofNat 32 (c + 0 * 2 ^ 8) := paramWord_two hc (by omega)
    _ = BitVec.ofNat 32 c := by simp

/-- A 32-bit word of the constant, which starts at bit `k` (30_encoding.md R56, R65). -/
theorem constant_word (c : Nat) {k : Nat} (hk : k ≤ 96) :
    (BitVec.ofNat 128 c).extractLsb' k 32 = BitVec.ofNat 32 (c / 2 ^ k) := by
  have h : 2 ^ 128 = 2 ^ k * 2 ^ (128 - k) := by
    rw [← Nat.pow_add]
    congr 1
    omega
  have hd : 2 ^ 32 ∣ 2 ^ (128 - k) := Nat.pow_dvd_pow 2 (by omega)
  apply BitVec.eq_of_toNat_eq
  rw [BitVec.extractLsb'_toNat, BitVec.toNat_ofNat, BitVec.toNat_ofNat, Nat.shiftRight_eq_div_pow,
    h, Nat.mod_mul_right_div_self, Nat.mod_mod_of_dvd _ hd]

theorem constant_lowWord (c : Nat) :
    (BitVec.ofNat 128 c).extractLsb' 0 32 = BitVec.ofNat 32 c := by
  simpa using constant_word c (k := 0) (by omega)

/-! ## A filter's writes (30_encoding.md R65) -/

/-- The operand registers that the statement of filter `i` writes, in order, each with its value. -/
def operandWrites (i : Instr) (d s1 s2 : Addr) (len : Word) (ps : List Byte) (c : BitVec 128) :
    List (BitVec 6 × Word) :=
  [(0x0C, s1)] ++ (if family i = .dual then [(0x10, s2)] else []) ++ [(0x14, d), (0x18, len)] ++
    (if paramBytes i = 0 then [] else [(0x1C, paramWord (paramBytes i) ps)]) ++
    (if usesConstant i then [(0x20, c.extractLsb' 0 32), (0x24, c.extractLsb' 32 32),
      (0x28, c.extractLsb' 64 32), (0x2C, c.extractLsb' 96 32)] else [])

/-- The register file `r` after the statement of filter `i`. -/
def filterRegs (i : Instr) (d s1 s2 : Addr) (len : Word) (ps : List Byte) (c : BitVec 128)
    (r : Operands) : Operands where
  cmd := encode i
  src1 := s1
  src2 := if family i = .dual then s2 else r.src2
  dst := d
  len := len
  param := if paramBytes i = 0 then r.param else paramWord (paramBytes i) ps
  uconst0 := if usesConstant i then c.extractLsb' 0 32 else r.uconst0
  uconst1 := if usesConstant i then c.extractLsb' 32 32 else r.uconst1
  uconst2 := if usesConstant i then c.extractLsb' 64 32 else r.uconst2
  uconst3 := if usesConstant i then c.extractLsb' 96 32 else r.uconst3

section
variable (i : Instr) (d s1 s2 : Addr) (len : Word) (ps : List Byte) (c : BitVec 128)

theorem filterWrites_eq :
    filterWrites i d s1 s2 len ps c =
      (operandWrites i d s1 s2 len ps c).map (fun x => opWrite x.1 x.2) ++
        [opWrite 0x00 (encode i)] := by
  unfold filterWrites operandWrites paramWrites constantWrites
  split_ifs <;> rfl

/-- Every operand write is aligned and none is to CMD. -/
theorem operandWrites_offsets :
    ∀ x ∈ operandWrites i d s1 s2 len ps c, x.1.toNat % 4 = 0 ∧ x.1.toNat / 4 ≠ 0 := by
  unfold operandWrites
  split_ifs <;> simp

theorem foldl_operandWrites (s : State) :
    (operandWrites i d s1 s2 len ps c).foldl (fun s x => writeRegister s x.1 x.2) s =
      { s with reg := { filterRegs i d s1 s2 len ps c s.reg with cmd := s.reg.cmd } } := by
  unfold operandWrites filterRegs
  split_ifs <;>
    simp only [List.cons_append, List.nil_append, List.foldl_cons, List.foldl_nil,
      writeRegister_src1, writeRegister_src2, writeRegister_dst, writeRegister_len,
      writeRegister_param, writeRegister_uconst0, writeRegister_uconst1, writeRegister_uconst2,
      writeRegister_uconst3]

end

/-- A statement that assembles to a filter's writes where its immediates fit does what 30_encoding.md
R65 says. -/
theorem issues_of_assemble {fit : Prop} [Decidable fit] {st : Statement} {n : Nat}
    {regs : Operands → Operands} {i : Instr} {d s1 s2 : Addr} {len : Word} {ps : List Byte}
    {c : BitVec 128}
    (hst : ∀ here, st.assemble here =
      if fit then some (filterWrites i d s1 s2 len ps c) else none)
    (hn : (operandWrites i d s1 s2 len ps c).length + 1 = n)
    (hregs : fit → ∀ r, regs r = filterRegs i d s1 s2 len ps c r) : Issues fit st n regs := by
  refine ⟨fun hfit before after s => ⟨filterWrites i d s1 s2 len ps c, ?_, ?_, ?_⟩,
    fun hfit here => (hst here).trans (if_neg hfit)⟩
  · exact (hst _).trans (if_pos hfit)
  · rw [filterWrites_eq, ← hn]
    simp
  · intro hp hi hprog hhpc
    have hdrop : s.prog.drop s.hpc =
        (operandWrites i d s1 s2 len ps c).map (fun x => opWrite x.1 x.2) ++
          opWrite 0x00 (encode i) :: after := by
      rw [hprog, hhpc, filterWrites_eq]
      simp
    have hrun := run_writes _ _ after hp hi (operandWrites_offsets i d s1 s2 len ps c) hdrop
    rw [hn, foldl_operandWrites, hhpc, Nat.add_assoc, hn] at hrun
    refine ⟨_, hrun, ?_, ?_, ?_⟩ <;> rw [hregs hfit]
    all_goals rfl

/-! ## The statements (30_encoding.md R63, R64) -/

/-- Settles O60, form by form: each statement assembles to its filter's writes where its immediates
fit, and the register file it names is the one those writes leave. -/
theorem filterStatementIssuesItsCommand : Obligations.FilterStatementIssuesItsCommand := by
  refine ⟨?_, ?_, ?_, ?_, ?_, ?_, ?_, ?_, ?_, ?_, ?_⟩
  · intro d s1 s2 len x hx
    fin_cases hx <;> exact issues_of_assemble (fun _ => rfl) rfl (fun _ _ => rfl)
  · intro d s len
    exact issues_of_assemble (fun _ => rfl) rfl (fun _ _ => rfl)
  · intro d s len c x hx
    fin_cases hx <;>
      exact issues_of_assemble (fun _ => fits_bind 8 c _) rfl
        (fun hc _ => by rw [← paramWord_one hc]; rfl)
  · intro d s len n x hx
    fin_cases hx <;>
      exact issues_of_assemble (fun _ => fits_bind 6 n _) rfl
        (fun _ _ => by simp only [filterRegs, encode, commandWord_eq_wordOf]; rfl)
  · intro d s len n c
    refine issues_of_assemble (fun _ => fits_fits_bind 6 n 8 c _) rfl (fun ⟨_, hc⟩ _ => ?_)
    rw [← paramWord_one hc]
    simp only [filterRegs, encode, commandWord_eq_wordOf]
    rfl
  · intro d s len a b
    exact issues_of_assemble (fun _ => fits_fits_bind 8 a 8 b _) rfl
      (fun ⟨ha, hb⟩ _ => by rw [← paramWord_two ha hb]; rfl)
  · intro d s len a b u v
    exact issues_of_assemble (fun _ => four_fits_bind 8 a b u v _) rfl
      (fun ⟨ha, hb, hu, _⟩ _ => by rw [← paramWord_four v ha hb hu]; rfl)
  · intro w d s len c x hx
    fin_cases hx <;>
      exact issues_of_assemble (fun _ => bppField_fits_bind w 128 c _) rfl
        (fun _ _ => by
          simp only [filterRegs, encode, commandWord_eq_wordOf]
          rw [constant_word c (k := 32) (by omega), constant_word c (k := 64) (by omega),
            constant_word c (k := 96) (by omega), constant_lowWord]
          rfl)
  · intro w d s len n x hx
    fin_cases hx <;>
      exact issues_of_assemble (fun _ => bppField_fits_bind w 6 n _) rfl
        (fun _ _ => by simp only [filterRegs, encode, commandWord_eq_wordOf]; rfl)
  · intro d s len
    exact issues_of_assemble (fun _ => rfl) rfl (fun _ _ => rfl)
  · intro d s len
    exact issues_of_assemble (fun _ => rfl) rfl (fun _ _ => rfl)

end Sys2Proof.Machine
end

section
/-! PROOFS. What an element of any filter reads, and what it writes where it reads no overwritten
byte (10_state.md R29; 20_memory.md R40, R41; 40_dual_source.md R70; 41_scalar.md R90; 42_unit.md
R112). -/

namespace Sys2Proof.Machine

open Sys2Proof.Claims

/-! ## The bytes of a clean element -/

/-- The bytes that the filter gives for the element `k` of `s`, and none for a command that is no
filter. -/
def elementBytes (i : Instr) (s : State) : List Byte :=
  match family i, s.plan with
  | .dual, _ => [dualMap s.params i (s.mem.read (bufAddr s.sh.src1 s.k))
      (s.mem.read (bufAddr s.sh.src2 s.k))]
  | .scalar, _ => [s.lutAt (s.mem.read (bufAddr s.sh.src1 s.k))]
  | .unit, .copy => [s.mem.read (bufAddr s.sh.src1 s.k)]
  | .unit, .op =>
    unitMap i s.cb (s.mem.readBytes s.sh.src1 (s.k * unitBytes i) (unitBytes i))
  | .neighborhood, _ | .illegal, _ => []

theorem elementBytes_dual {i : Instr} (s : State) (hi : family i = .dual) :
    elementBytes i s = [dualMap s.params i (s.mem.read (bufAddr s.sh.src1 s.k))
      (s.mem.read (bufAddr s.sh.src2 s.k))] := by
  simp [elementBytes, hi]

theorem elementBytes_scalar {i : Instr} (s : State) (hi : family i = .scalar) :
    elementBytes i s = [s.lutAt (s.mem.read (bufAddr s.sh.src1 s.k))] := by
  simp [elementBytes, hi]

theorem elementBytes_copy {i : Instr} {s : State} (hi : family i = .unit) (hp : s.plan = .copy) :
    elementBytes i s = [s.mem.read (bufAddr s.sh.src1 s.k)] := by
  simp [elementBytes, hi, hp]

theorem elementBytes_unit {i : Instr} {s : State} (hi : family i = .unit) (hp : s.plan = .op) :
    elementBytes i s =
      unitMap i s.cb (s.mem.readBytes s.sh.src1 (s.k * unitBytes i) (unitBytes i)) := by
  simp [elementBytes, hi, hp]

theorem elementWidth_of_byte {i : Instr} (p : Plan) (h : family i = .dual ∨ family i = .scalar) :
    elementWidth i p = 1 := by
  rcases h with h | h <;> simp [elementWidth, h]

theorem elementWidth_copy (i : Instr) : elementWidth i .copy = 1 := by simp [elementWidth]

theorem elementWidth_unit_op {i : Instr} (h : family i = .unit) :
    elementWidth i .op = unitBytes i := by simp [elementWidth, h]

theorem length_elementBytes {i : Instr} (s : State) (hi : isFilter i = true) :
    (elementBytes i s).length = elementWidth i s.plan := by
  rcases isFilter_cases hi with hf | hf | hf
  · rw [elementBytes_dual s hf, elementWidth_of_byte _ (.inl hf), List.length_singleton]
  · rw [elementBytes_scalar s hf, elementWidth_of_byte _ (.inr hf), List.length_singleton]
  · cases hp : s.plan with
    | copy => rw [elementBytes_copy hf hp, elementWidth_copy, List.length_singleton]
    | op =>
      rw [elementBytes_unit hf hp, elementWidth_unit_op hf, length_unitMap (length_readBytes ..)]

/-- A MODE 0 element reads both sources, or its filter does not look at the second
(40_dual_source.md R70, R75). -/
theorem readBuffers_dual (p : Config.Params) {i : Instr} (r : Operands) (hi : family i = .dual) :
    readBuffers p i r = [r.src1, r.src2] ∨
      (readBuffers p i r = [r.src1] ∧ ∀ a b b', dualMap p i a b = dualMap p i a b') := by
  cases i
  case mult => cases h : p.multSameSource <;> simp [readBuffers, dualMap, h]
  all_goals first
    | exact .inl rfl
    | cases hi

theorem plan_cases (s : State) : s.plan = .copy ∨ s.plan = .op := by
  cases s.plan <;> simp

/-- The addresses that the element `k` of `s` reads (40_dual_source.md R70; 42_unit.md R112). -/
def elementReads (i : Instr) (s : State) : List Addr :=
  (readBuffers s.params i s.sh).flatMap fun base =>
    (List.range (elementWidth i s.plan)).map fun j =>
      bufAddr base (s.k * elementWidth i s.plan + j)

theorem elementReads_byte {i : Instr} {s : State} (hw : elementWidth i s.plan = 1) :
    elementReads i s = (readBuffers s.params i s.sh).map fun base => bufAddr base s.k := by
  rw [elementReads, hw, List.map_eq_flatMap]
  simp

theorem elementReads_unit {i : Instr} {s : State} (hi : family i = .unit) (hp : s.plan = .op) :
    elementReads i s =
      (List.range (unitBytes i)).map fun j => bufAddr s.sh.src1 (s.k * unitBytes i + j) := by
  simp [elementReads, readBuffers_src1 _ _ (.inr hi), hp, elementWidth_unit_op hi]

theorem readsClean_iff (i : Instr) (s : State) :
    readsClean s i (s.k * elementWidth i s.plan) (elementWidth i s.plan) ↔
      ∀ a ∈ elementReads i s, ¬ s.overwritten (s.k * elementWidth i s.plan) a := by
  simp only [readsClean, elementReads, List.mem_flatMap, List.mem_map, List.mem_range]
  exact ⟨fun h a ⟨base, hb, j, hj, ha⟩ => ha ▸ h base hb j hj,
    fun h base hb j hj => h _ ⟨base, hb, j, hj, rfl⟩⟩

/-- What any filter does in RUN (10_state.md R29), with what its element reads and computes. -/
theorem exec_run_element {i : Instr} {s : State} (hi : isFilter i = true) (hp : s.phase = .run) :
    exec i s = .next
      (s.putElement (s.k * elementWidth i s.plan) (elementReads i s) (elementBytes i s)).advance := by
  rcases isFilter_cases hi with hf | hf | hf
  · have hw := elementWidth_of_byte s.plan (.inl hf)
    rw [exec_run_dual hf hp, elementReads_byte hw, elementBytes_dual s hf, hw, Nat.mul_one]
  · have hw := elementWidth_of_byte s.plan (.inr hf)
    rw [exec_run_scalar hf hp, elementReads_byte hw, elementBytes_scalar s hf, hw, Nat.mul_one,
      readBuffers_src1 _ _ (.inl hf)]
    rfl
  · rcases plan_cases s with hplan | hplan
    · have hw : elementWidth i s.plan = 1 := by rw [hplan, elementWidth_copy]
      rw [exec_run_copy hf hp hplan, elementReads_byte hw, elementBytes_copy hf hplan, hw,
        Nat.mul_one, readBuffers_src1 _ _ (.inr hf)]
      rfl
    · have hw : elementWidth i s.plan = unitBytes i := by rw [hplan, elementWidth_unit_op hf]
      rw [exec_run_unit hf hp hplan, elementReads_unit hf hplan, elementBytes_unit hf hplan, hw]

/-- An element that reads no overwritten byte of a command not raced with writes the filter's bytes
(20_memory.md R40, R43). -/
theorem exec_run_clean {i : Instr} {s : State} (hi : isFilter i = true) (hp : s.phase = .run)
    (hr : s.raced = false)
    (hc : readsClean s i (s.k * elementWidth i s.plan) (elementWidth i s.plan)) :
    exec i s =
      .next (s.putBytes (s.k * elementWidth i s.plan) (elementBytes i s)).advance := by
  have hspec : s.unspecified (s.k * elementWidth i s.plan) (elementReads i s) = false := by
    simpa [State.unspecified, hr] using (readsClean_iff i s).mp hc
  rw [exec_run_element hi hp, putElement_specified _ _ hspec]

/-- An element's bytes depend on the bytes it reads alone. -/
theorem elementBytes_congr {i : Instr} {s : State} {m : Memory}
    (h : ∀ a ∈ elementReads i s, m.read a = s.mem.read a) :
    elementBytes i { s with mem := m } = elementBytes i s := by
  cases hf : family i with
  | dual =>
    rw [elementReads_byte (elementWidth_of_byte _ (.inl hf))] at h
    rw [elementBytes_dual _ hf, elementBytes_dual _ hf]
    rcases readBuffers_dual s.params s.sh hf with hb | ⟨hb, hmap⟩
    · simp only [h (bufAddr s.sh.src1 s.k) (by simp [hb]),
        h (bufAddr s.sh.src2 s.k) (by simp [hb])]
    · simp only [h (bufAddr s.sh.src1 s.k) (by simp [hb])]
      rw [hmap]
  | scalar =>
    rw [elementReads_byte (elementWidth_of_byte _ (.inr hf)), readBuffers_src1 _ _ (.inl hf)] at h
    rw [elementBytes_scalar _ hf, elementBytes_scalar _ hf]
    simp only [h (bufAddr s.sh.src1 s.k) (by simp)]
    rfl
  | unit =>
    rcases plan_cases s with hp | hp
    · rw [elementReads_byte (by rw [hp, elementWidth_copy]), readBuffers_src1 _ _ (.inr hf)] at h
      rw [elementBytes_copy hf hp, elementBytes_copy (s := { s with mem := m }) hf hp]
      simp only [h (bufAddr s.sh.src1 s.k) (by simp)]
    · rw [elementReads_unit hf hp] at h
      rw [elementBytes_unit hf hp, elementBytes_unit (s := { s with mem := m }) hf hp]
      congr 1
      exact List.map_congr_left fun j hj => h _ (List.mem_map_of_mem hj)
  | neighborhood => simp [elementBytes, hf]
  | illegal => simp [elementBytes, hf]

/-- The rule of a clean element, apart from its filter's formula: the bytes it writes, and that it
leaves all else (10_state.md R29; 20_memory.md R41). -/
theorem element_of_clean {i : Instr} {s : State} (hi : isFilter i = true) (hp : s.phase = .run)
    (hr : s.raced = false)
    (hc : readsClean s i (s.k * elementWidth i s.plan) (elementWidth i s.plan)) :
    ∃ t, exec i s = .next t ∧
      (∀ j < elementWidth i s.plan,
        t.mem.read (bufAddr s.sh.dst (s.k * elementWidth i s.plan + j)) =
          (elementBytes i s).getD j 0) ∧
      OnlyElement s t (s.k * elementWidth i s.plan) (elementWidth i s.plan) ∧
      ElementLeaves s t := by
  have hw := elementWidth_le i s.plan
  have hlen := length_elementBytes s hi
  refine ⟨_, exec_run_clean hi hp hr hc, fun j hj => ?_, ?_⟩
  · rw [advance_mem, putBytes_mem]
    exact read_writeBytes_inside _ _ _ _ (by omega) (by omega)
  · obtain ⟨hleaves, honly⟩ := exec_run_next hp (exec_run_clean hi hp hr hc)
    exact ⟨honly, hleaves⟩

end Sys2Proof.Machine
end

section
/-! PROOFS. A whole command left to the engine, of any filter, without partial overlap: the validate
step, then its elements (10_state.md R29; 20_memory.md R39 to R41; 70_reset_and_hazards.md R161). -/

namespace Sys2Proof.Machine

open Sys2Proof.Claims

/-! ## Memory after the first elements -/

/-- Memory after the elements before `e` of the command that runs in `s`, each of which writes what
the filter gives of the bytes as they stood in `s`. -/
def memAfter (s : State) : Nat → Memory
  | 0 => s.mem
  | e + 1 => (memAfter s e).writeBytes s.sh.dst (e * elementWidth s.current s.plan)
      (elementBytes s.current { s with k := e })

/-- The state before element `e`. -/
def beforeElement (s : State) (e : Nat) : State := { s with k := e, mem := memAfter s e }

section
variable {s : State} (hi : isFilter s.current = true)
include hi

theorem memAfter_outside {e : Nat} (he : e * elementWidth s.current s.plan ≤ 2 ^ 32) {a : Addr}
    (ha : inBuffer s.sh.dst (e * elementWidth s.current s.plan) a = false) :
    (memAfter s e).read a = s.mem.read a := by
  induction e with
  | zero => rfl
  | succ e ih =>
    have hlen : (elementBytes s.current { s with k := e }).length = elementWidth s.current s.plan :=
      length_elementBytes { s with k := e } hi
    simp only [inBuffer, decide_eq_false_iff_not, Nat.succ_mul] at he ha ih
    rw [memAfter, read_writeBytes_outside _ _ _ _ _ (by omega), ih (by omega) (by omega)]
    rintro j hj rfl
    rw [bufOffset_bufAddr _ (by omega)] at ha
    omega

theorem memAfter_inside {n e j : Nat} (hn : n * elementWidth s.current s.plan ≤ 2 ^ 32)
    (he : e < n) (hj : j < elementWidth s.current s.plan) :
    (memAfter s n).read (bufAddr s.sh.dst (e * elementWidth s.current s.plan + j)) =
      (elementBytes s.current { s with k := e }).getD j 0 := by
  induction n with
  | zero => omega
  | succ n ih =>
    have hlen : (elementBytes s.current { s with k := n }).length = elementWidth s.current s.plan :=
      length_elementBytes { s with k := n } hi
    rw [Nat.succ_mul] at hn
    rw [memAfter]
    rcases Nat.lt_succ_iff_lt_or_eq.mp he with he | rfl
    · have hle := Nat.mul_le_mul_right (elementWidth s.current s.plan) he
      rw [Nat.succ_mul] at hle
      rw [read_writeBytes_outside _ _ _ _ _ (by omega), ih (by omega) he]
      intro l hl
      rw [Ne, bufAddr_inj (by omega) (by omega)]
      omega
    · exact read_writeBytes_inside _ _ _ _ (by omega) (by omega)

end

/-! ## A run of clean elements -/

/-- `s` is about to execute the first element of a command that is left to the engine and has no
partial overlap. -/
structure BeginsElements (s : State) : Prop where
  filter : isFilter s.current = true
  phase : s.phase = .run
  index : s.k = 0
  hasElement : 0 < s.count
  turns : s.inputs = []
  race : s.raced = false
  length : s.count * elementWidth s.current s.plan ≤ 2 ^ 32
  overlap : NoPartialOverlap s s.count (elementWidth s.current s.plan)

/-- Only the validate step is refused for its buffers (log 14). -/
theorem windowConflict_of_run {s : State} (hp : s.phase = .run) : s.windowConflict = false := by
  have hphase : (s.phase == .validate) = false := by rw [hp]; rfl
  unfold State.windowConflict
  split
  · simp only [hphase, Bool.false_and]
  · rfl

section
variable {s : State} (h : BeginsElements s)
include h

/-- An element of a run without partial overlap reads the bytes as they stood before the run
(20_memory.md R39). -/
theorem exec_beforeElement {e : Nat} (he : e < s.count) :
    exec s.current (beforeElement s e) =
      .next (State.advance { s with k := e, mem := memAfter s (e + 1) }) := by
  have hlen := (Nat.mul_le_mul_right (elementWidth s.current s.plan) he.le).trans h.length
  have hclean := h.overlap e he
  have hbytes : elementBytes s.current (beforeElement s e) =
      elementBytes s.current { s with k := e } :=
    elementBytes_congr (s := { s with k := e }) fun a ha =>
      memAfter_outside h.filter hlen (by
        simpa [State.overwritten] using
          (readsClean_iff s.current { s with k := e }).mp hclean a ha)
  rw [exec_run_clean (s := beforeElement s e) h.filter h.phase h.race hclean, hbytes]
  rfl

theorem step_beforeElement {e : Nat} (he : e < s.count) :
    step (beforeElement s e) =
      .next (State.advance { s with k := e, mem := memAfter s (e + 1) }) := by
  have hphase : (beforeElement s e).phase = .run := h.phase
  rw [step_of_noTurn (s := beforeElement s e) h.turns, if_neg (by simp [hphase]),
    engineTurn_of_noConflict (windowConflict_of_run hphase)]
  exact exec_beforeElement h he

theorem run_beforeElement {e : Nat} (he : e < s.count) :
    core.run e s = .next (beforeElement s e) := by
  induction e with
  | zero => rw [run_zero, beforeElement, memAfter, ← h.index]
  | succ e ih =>
    have hprev : e < s.count := by omega
    rw [run_snoc e (ih hprev), step_beforeElement h hprev, advance_more _ he.ne]
    rfl

/-- The last element completes the command (60_exceptions.md R131). -/
theorem run_elements :
    core.run s.count s = .next (State.succeed (beforeElement s s.count) false) := by
  obtain ⟨e, he⟩ := Nat.exists_eq_succ_of_ne_zero h.hasElement.ne'
  have hlast : e < s.count := by omega
  rw [he, run_snoc e (run_beforeElement h hlast), step_beforeElement h hlast,
    advance_last _ he.symm]
  rfl

end

/-! ## A whole command -/

/-- The state in which a command that validation lets run begins its elements (10_state.md R29). -/
def startOf (s : State) (p : Plan) (n : Nat) : State := (buildFor s.current s).startRun p n

@[simp] theorem startOf_phase (s : State) (p : Plan) (n : Nat) : (startOf s p n).phase = .run := rfl
@[simp] theorem startOf_plan (s : State) (p : Plan) (n : Nat) : (startOf s p n).plan = p := rfl
@[simp] theorem startOf_count (s : State) (p : Plan) (n : Nat) : (startOf s p n).count = n := rfl
@[simp] theorem startOf_k (s : State) (p : Plan) (n : Nat) : (startOf s p n).k = 0 := rfl

/-- It differs from the state in VALIDATE in the engine's own fields alone. -/
theorem startOf_frame (s : State) (p : Plan) (n : Nat) :
    startOf s p n = { s with
      phase := .run, plan := p, count := n, k := 0
      lut := (startOf s p n).lut, cb := (startOf s p n).cb } := by
  unfold startOf buildFor
  split
  · rfl
  · split <;> rfl
  all_goals rfl

@[simp] theorem startOf_sh (s : State) (p : Plan) (n : Nat) : (startOf s p n).sh = s.sh := by
  rw [startOf_frame]

@[simp] theorem startOf_mem (s : State) (p : Plan) (n : Nat) : (startOf s p n).mem = s.mem := by
  rw [startOf_frame]

@[simp] theorem startOf_params (s : State) (p : Plan) (n : Nat) :
    (startOf s p n).params = s.params := by rw [startOf_frame]

@[simp] theorem startOf_inputs (s : State) (p : Plan) (n : Nat) :
    (startOf s p n).inputs = s.inputs := by rw [startOf_frame]

@[simp] theorem startOf_raced (s : State) (p : Plan) (n : Nat) :
    (startOf s p n).raced = s.raced := by rw [startOf_frame]

@[simp] theorem startOf_current (s : State) (p : Plan) (n : Nat) :
    (startOf s p n).current = s.current := by
  simp only [State.current, startOf_sh]

section
variable {s : State} {p : Plan} {n : Nat} (h : Undisturbed s)
  (hv : validate s.current s.sh = .run p n)
include h hv

theorem step_validate_run : step s = .next (startOf s p n) := by
  obtain ⟨hp, ht, -, hw⟩ := h
  rw [step_of_noTurn ht, if_neg (by simp [hp]), engineTurn_of_noConflict hw, exec_validate _ hp, hv]
  rfl

theorem beginsElements_startOf (hc : NoPartialOverlap s n (elementWidth s.current p)) :
    BeginsElements (startOf s p n) := by
  obtain ⟨hi, hn, hlen⟩ := validate_run hv
  obtain ⟨-, hinputs, hraced, -⟩ := h
  exact {
    filter := by simpa using hi
    phase := startOf_phase s p n
    index := startOf_k s p n
    hasElement := by simpa using hn
    turns := (startOf_inputs s p n).trans hinputs
    race := (startOf_raced s p n).trans hraced
    length := by simpa using hlen.trans s.sh.len.isLt.le
    overlap := by simpa [NoPartialOverlap, readsClean, State.overwritten] using hc }

/-- A command that validation lets run, with no partial overlap, left to the engine: it succeeds,
each element's bytes are the filter's of the bytes as they stood before the command, and no other
byte changes (20_memory.md R39, R41). -/
theorem run_command (hc : NoPartialOverlap s n (elementWidth s.current p)) :
    ∃ t, core.run (1 + n) s = .next t ∧ Succeeded t ∧
      (∀ e < n, ∀ j < elementWidth s.current p,
        t.mem.read (bufAddr s.sh.dst (e * elementWidth s.current p + j)) =
          (elementBytes s.current { startOf s p n with k := e }).getD j 0) ∧
      ∀ a, inBuffer s.sh.dst (n * elementWidth s.current p) a = false →
        t.mem.read a = s.mem.read a := by
  have hb := beginsElements_startOf h hv hc
  have hrun := run_elements hb
  rw [startOf_count, ← run_succ n (step_validate_run h hv), Nat.add_comm] at hrun
  refine ⟨_, hrun, by simp [Succeeded, Status.succeeded], fun e he j hj => ?_, fun a ha => ?_⟩
  · have hj' : j < elementWidth (startOf s p n).current (startOf s p n).plan := by simpa using hj
    have hread := memAfter_inside hb.filter hb.length he hj'
    simpa [beforeElement] using hread
  · have hread := memAfter_outside hb.filter hb.length (a := a) (by simpa using ha)
    simpa [beforeElement] using hread

end

end Sys2Proof.Machine
end

section
/-! PROOFS. The rules of the MODE 0 filters: each one's byte function as the rule's formula, and what
every one of them shares, its command word, its validation, its element and its whole run
(40_dual_source.md R70 to R82). -/

namespace Sys2Proof.Machine

open Sys2Proof.Claims

/-! ## The command word -/

theorem wellFormed_of_isFilter {i : Instr} (h : isFilter i = true) : i.wellFormed = true := by
  cases i <;> first
    | rfl
    | cases h

/-- The word of a filter with opcode byte `16 * m + f`, in both directions (30_encoding.md R52). -/
theorem encoding_of_filter {i : Instr} {m : BitVec 2} {f b : BitVec 4} {n : BitVec 6}
    (hi : isFilter i = true) (h : encode i = commandWord m f b n) :
    encode i = wordOf (f.toNat + m.toNat * 2 ^ 4) b n ∧
      decode (wordOf (f.toNat + m.toNat * 2 ^ 4) b n) = i := by
  rw [← commandWord_eq_wordOf, ← h]
  exact ⟨rfl, decodeInvertsEncode i (wellFormed_of_isFilter hi)⟩

/-! ## What the MODE 0 filters share -/

/-- A MODE 0 command with valid buffers runs unless it is empty (60_exceptions.md R122). -/
theorem validate_dual_valid {i : Instr} {r : Operands} (hi : family i = .dual) (h1 : r.src1 ≠ 0)
    (h2 : r.src2 ≠ 0) (hd : r.dst ≠ 0) :
    validate i r = if r.len = 0 then .succeed else .run .op r.len.toNat := by
  rw [validate_dual r hi, if_neg]
  tauto

/-- The rule of a MODE 0 filter with FUNC `func`, from its formula alone (40_dual_source.md R70). -/
theorem dualRule {mk : BitVec 4 → BitVec 6 → Instr} {f : Config.Params → Nat → Nat → Nat}
    (func : BitVec 4) (hf : ∀ b n, family (mk b n) = .dual)
    (henc : ∀ b n, encode (mk b n) = commandWord 0 func b n)
    (hmap : ∀ p b n x y, (dualMap p (mk b n) x y).toNat = f p x.toNat y.toNat) :
    DualRule mk func.toNat f := by
  have hfilter : ∀ b n, isFilter (mk b n) = true := fun b n => by simp [isFilter, hf]
  constructor
  case encoding => exact fun b n => encoding_of_filter (hfilter b n) (henc b n)
  case nullFails =>
    intro b n s hp hnull
    have hnull : s.sh.src1 = 0 ∨ s.sh.dst = 0 ∨ s.sh.src2 = 0 := by tauto
    rw [exec_validate _ hp, validate_dual _ (hf b n), if_pos hnull]
    rfl
  case zeroLength =>
    intro b n s hp h1 h2 hd hlen
    rw [exec_validate _ hp, validate_dual_valid (hf b n) h1 h2 hd, if_pos hlen]
    rfl
  case starts =>
    intro b n s hp h1 h2 hd hlen
    refine ⟨s.startRun .op s.sh.len.toNat, ?_, by constructor <;> simp⟩
    rw [exec_validate _ hp, validate_dual_valid (hf b n) h1 h2 hd, if_neg hlen]
    simp [State.settle, buildFor, hf]
  case element =>
    intro b n s hp hr hc
    have hw : elementWidth (mk b n) s.plan = 1 := elementWidth_of_byte _ (.inl (hf b n))
    obtain ⟨t, he, hread, honly, hleaves⟩ :=
      element_of_clean (hfilter b n) hp hr (by simpa only [hw, Nat.mul_one] using hc)
    rw [hw, Nat.mul_one] at hread honly
    refine ⟨t, he, ?_, honly, hleaves⟩
    have hbyte := hread 0 one_pos
    rw [Nat.add_zero, elementBytes_dual s (hf b n), List.getD_cons_zero] at hbyte
    rw [hbyte, hmap]

/-- Settles O56: a MODE 0 command's elements are single bytes, each the filter of the source bytes
that `run_command` reads before the command. -/
theorem dualCommandWritesEveryByte : Obligations.DualCommandWritesEveryByte := by
  intro s h hf h1 h2 hd hlen hc
  have hv : validate s.current s.sh = .run .op s.sh.len.toNat := by
    rw [validate_dual_valid hf h1 h2 hd, if_neg hlen]
  have hw : elementWidth s.current .op = 1 := elementWidth_of_byte _ (.inl hf)
  obtain ⟨t, hrun, hsucc, hread, hframe⟩ := run_command h hv (by rwa [hw])
  simp only [hw, Nat.mul_one] at hread hframe
  refine ⟨t, hrun, hsucc, fun i hi => ?_, hframe⟩
  have hbyte := hread i hi 0 one_pos
  rw [Nat.add_zero, elementBytes_dual _ hf, List.getD_cons_zero] at hbyte
  simpa using hbyte

/-! ## The byte functions as the rules' formulas -/

theorem toNat_addBytes (a b : Byte) : (addBytes a b).toNat = min 255 (a.toNat + b.toNat) := by
  have h : ((addBytes a b).toNat : Int) = _ := toNat_sat8 (a.toNat + b.toNat)
  omega

theorem toNat_meanBytes (a b : Byte) : (meanBytes a b).toNat = (a.toNat + b.toNat + 1) / 2 := by
  have ha := byte_le a
  have hb := byte_le b
  rw [meanBytes, toNat_u8]
  omega

theorem toNat_subBytes (a b : Byte) : (subBytes a b).toNat = a.toNat - b.toNat := by
  have ha := byte_le a
  have h : ((subBytes a b).toNat : Int) = _ := toNat_sat8 ((a.toNat : Int) - b.toNat)
  omega

theorem toNat_absDiffBytes (a b : Byte) :
    (absDiffBytes a b).toNat = max a.toNat b.toNat - min a.toNat b.toNat := by
  have ha := byte_le a
  have hb := byte_le b
  rw [absDiffBytes, toNat_u8]
  omega

theorem toNat_multUnboundBytes (a b : Byte) :
    (multUnboundBytes a b).toNat = a.toNat * b.toNat % 256 := toNat_u8 _

theorem toNat_divBytes (a b : Byte) :
    (divBytes a b).toNat =
      if b.toNat = 0 then 0 else if b.toNat ≤ a.toNat then 255 else 255 * a.toNat / b.toNat := by
  by_cases hb : b = 0
  · subst hb
    rfl
  have hb' : b.toNat ≠ 0 := fun h => hb (BitVec.eq_of_toNat_eq h)
  rw [if_neg hb']
  split
  next hle => exact toNat_divBytes_of_le hb hle
  next hlt => exact toNat_divBytes_of_lt (not_le.mp hlt)

/-- `Mult` squares the Src1 byte under `MULT_SAME_SOURCE` (40_dual_source.md R75). -/
theorem toNat_dualMap_mult (p : Config.Params) (b : BitVec 4) (n : BitVec 6) (x y : Byte) :
    (dualMap p (.mult b n) x y).toNat =
      x.toNat * (if p.multSameSource then x.toNat else y.toNat) / 255 := by
  cases h : p.multSameSource <;> simp [dualMap, h, toNat_multBytes]

/-! ## The filters -/

/-- Settles O5: saturation at 255 of a sum that is never negative. -/
theorem addSaturates : Obligations.AddSaturates :=
  dualRule 0 (fun _ _ => rfl) (fun _ _ => rfl) fun _ _ _ => toNat_addBytes

/-- Settles O6: the rounded average of two bytes needs no narrowing. -/
theorem meanRoundsUp : Obligations.MeanRoundsUp :=
  dualRule 1 (fun _ _ => rfl) (fun _ _ => rfl) fun _ _ _ => toNat_meanBytes

/-- Settles O7: saturation at 0 of a difference that is never above 255. -/
theorem subSaturatesAtZero : Obligations.SubSaturatesAtZero :=
  dualRule 2 (fun _ _ => rfl) (fun _ _ => rfl) fun _ _ _ => toNat_subBytes

/-- Settles O8: the absolute value of the difference is the greater byte less the smaller. -/
theorem absDiffIsTheDistance : Obligations.AbsDiffIsTheDistance :=
  dualRule 3 (fun _ _ => rfl) (fun _ _ => rfl) fun _ _ _ => toNat_absDiffBytes

/-- Settles O9, by the two values of `MULT_SAME_SOURCE`. -/
theorem multIsTheNormalizedProduct : Obligations.MultIsTheNormalizedProduct :=
  dualRule 4 (fun _ _ => rfl) (fun _ _ => rfl) toNat_dualMap_mult

/-- Settles O10: narrowing keeps the product modulo 256. -/
theorem multUnboundWraps : Obligations.MultUnboundWraps :=
  dualRule 5 (fun _ _ => rfl) (fun _ _ => rfl) fun _ _ _ => toNat_multUnboundBytes

/-- Settles O11: the complement of the product of complements, over 255, is a byte. -/
theorem multInvScreens : Obligations.MultInvScreens :=
  dualRule 6 (fun _ _ => rfl) (fun _ _ => rfl) fun _ _ _ => toNat_multInvBytes

/-- Settles O12: the clamp to 255 never binds, in the filters as in the formulas. -/
theorem multDivby2And4ScaleTheProduct : Obligations.MultDivby2And4ScaleTheProduct := by
  refine ⟨dualRule 7 (fun _ _ => rfl) (fun _ _ => rfl) fun _ _ _ x y => ?_,
    dualRule 8 (fun _ _ => rfl) (fun _ _ => rfl) fun _ _ _ x y => ?_⟩
  · have h := byte_mul_le x y
    exact (toNat_multDivby2Bytes x y).trans (by omega)
  · have h := byte_mul_le x y
    exact (toNat_multDivby4Bytes x y).trans (by omega)

/-- Settles O13: the bitwise operations on bytes are those on their numbers. -/
theorem bitAndAndBitOrOfBytes : Obligations.BitAndAndBitOrOfBytes :=
  ⟨dualRule 9 (fun _ _ => rfl) (fun _ _ => rfl) fun _ _ _ => BitVec.toNat_and,
    dualRule 10 (fun _ _ => rfl) (fun _ _ => rfl) fun _ _ _ => BitVec.toNat_or⟩

/-- Settles O14, by the rule's three cases. -/
theorem divByZeroGivesZero : Obligations.DivByZeroGivesZero :=
  dualRule 11 (fun _ _ => rfl) (fun _ _ => rfl) fun _ _ _ => toNat_divBytes

end Sys2Proof.Machine
end

section
/-! PROOFS. The rules of the MODE 1 filters: each one's byte function as the rule's formula, and what
every one of them shares, its command word, its validation, its LUT, its element and its whole run
(41_scalar.md R90 to R102). -/

namespace Sys2Proof.Machine

open Sys2Proof.Claims

/-! ## What the MODE 1 filters share -/

/-- A MODE 1 command with valid buffers and bytes to write (60_exceptions.md R122). -/
theorem validate_scalar_valid {i : Instr} {r : Operands} (hi : family i = .scalar)
    (h1 : r.src1 ≠ 0) (hd : r.dst ≠ 0) (hlen : r.len ≠ 0) :
    validate i r =
      if shiftOutOfRange i = true then .fail .outOfRange
      else if degenerate i r = true then .succeed
      else .run .op r.len.toNat := by
  rw [validate_scalar r hi, if_neg (by tauto), if_neg hlen]

/-- The table that a MODE 1 command fills is its mapping (10_state.md R23). -/
theorem buildFor_lutAt {i : Instr} (s : State) (hi : family i = .scalar) (v : Byte) :
    (buildFor i s).lutAt v = scalarMap i s.sh v := by
  rw [buildFor_scalar s hi, buildLut_lutAt]

/-- The rule of a MODE 1 filter with FUNC `func`, from its range, its parameters without a mapping and
its formula alone (41_scalar.md R90). -/
theorem scalarRule {mk : BitVec 4 → BitVec 6 → Instr} {bad : BitVec 6 → Prop}
    {noMap : Operands → Prop} {f : BitVec 6 → Operands → Nat → Nat} (func : BitVec 4)
    (hf : ∀ b n, family (mk b n) = .scalar)
    (henc : ∀ b n, encode (mk b n) = commandWord 1 func b n)
    (hbad : ∀ b n, shiftOutOfRange (mk b n) = true ↔ bad n)
    (hno : ∀ b n r, degenerate (mk b n) r = true ↔ noMap r)
    (hmap : ∀ b n r v, (scalarMap (mk b n) r v).toNat = f n r v.toNat) :
    ScalarRule mk (func.toNat + 16) bad noMap f := by
  have hfilter : ∀ b n, isFilter (mk b n) = true := fun b n => by simp [isFilter, hf]
  constructor
  case encoding => exact fun b n => encoding_of_filter (hfilter b n) (henc b n)
  case nullFails =>
    intro b n s hp hnull
    rw [exec_validate _ hp, validate_scalar _ (hf b n), if_pos hnull]
    rfl
  case zeroLength =>
    intro b n s hp h1 hd hlen
    rw [exec_validate _ hp, validate_scalar _ (hf b n), if_neg (by tauto), if_pos hlen]
    rfl
  case outOfRange =>
    intro b n s hp h1 hd hlen hb
    rw [exec_validate _ hp, validate_scalar_valid (hf b n) h1 hd hlen, if_pos ((hbad b n).mpr hb)]
    rfl
  case noMapping =>
    intro b n s hp h1 hd hlen hb hm
    rw [exec_validate _ hp, validate_scalar_valid (hf b n) h1 hd hlen, if_neg (by rwa [hbad]),
      if_pos ((hno b n _).mpr hm)]
    rfl
  case starts =>
    intro b n s hp h1 hd hlen hb hm
    refine ⟨(buildFor (mk b n) s).startRun .op s.sh.len.toNat, ?_, ?_, ?_, fun v => ?_⟩
    · rw [exec_validate _ hp, validate_scalar_valid (hf b n) h1 hd hlen, if_neg (by rwa [hbad]),
        if_neg (by rwa [hno])]
      rfl
    · rw [buildFor_scalar s (hf b n)]
      constructor <;> simp
    · rw [buildFor_scalar s (hf b n)]
      simp
    · rw [startRun_lutAt, buildFor_lutAt s (hf b n), hmap]
  case element =>
    intro b n s hp hr hc hlut
    have hw : elementWidth (mk b n) s.plan = 1 := elementWidth_of_byte _ (.inr (hf b n))
    obtain ⟨t, he, hread, honly, hleaves⟩ :=
      element_of_clean (hfilter b n) hp hr (by simpa only [hw, Nat.mul_one] using hc)
    rw [hw, Nat.mul_one] at hread honly
    refine ⟨t, he, ?_, honly, hleaves⟩
    have hbyte := hread 0 one_pos
    rw [Nat.add_zero, elementBytes_scalar s (hf b n), List.getD_cons_zero] at hbyte
    rw [hbyte, hlut]

/-- A filter without a range and with a mapping for every parameter (60_exceptions.md R127, R128). -/
theorem scalarRule_total {mk : BitVec 4 → BitVec 6 → Instr} {f : BitVec 6 → Operands → Nat → Nat}
    (func : BitVec 4) (hf : ∀ b n, family (mk b n) = .scalar)
    (henc : ∀ b n, encode (mk b n) = commandWord 1 func b n)
    (hbad : ∀ b n, shiftOutOfRange (mk b n) = false) (hno : ∀ b n r, degenerate (mk b n) r = false)
    (hmap : ∀ b n r v, (scalarMap (mk b n) r v).toNat = f n r v.toNat) :
    ScalarRule mk (func.toNat + 16) never never f :=
  scalarRule func hf henc (fun b n => by simp [hbad, never]) (fun b n r => by simp [hno, never]) hmap

/-- A byte shift, whose N is at most 8 (60_exceptions.md R127). -/
theorem scalarRule_shift {mk : BitVec 4 → BitVec 6 → Instr} {f : BitVec 6 → Operands → Nat → Nat}
    (func : BitVec 4) (hf : ∀ b n, family (mk b n) = .scalar)
    (henc : ∀ b n, encode (mk b n) = commandWord 1 func b n)
    (hbad : ∀ b n, shiftOutOfRange (mk b n) = decide (8 < n.toNat))
    (hno : ∀ b n r, degenerate (mk b n) r = false)
    (hmap : ∀ b n r v, (scalarMap (mk b n) r v).toNat = f n r v.toNat) :
    ScalarRule mk (func.toNat + 16) (fun n => 8 < n.toNat) never f :=
  scalarRule func hf henc (fun b n => by simp [hbad]) (fun b n r => by simp [hno, never]) hmap

/-- Settles O57: a MODE 1 command's elements are single bytes, each the LUT entry of the source byte
that `run_command` reads before the command, and the LUT holds the filter's mapping. -/
theorem scalarCommandMapsEveryByte : Obligations.ScalarCommandMapsEveryByte := by
  intro s h hf hv hc
  have hw : elementWidth s.current .op = 1 := elementWidth_of_byte _ (.inr hf)
  obtain ⟨t, hrun, hsucc, hread, hframe⟩ := run_command h hv (by rwa [hw])
  simp only [hw, Nat.mul_one] at hread hframe
  refine ⟨t, hrun, hsucc, fun i hi => ?_, hframe⟩
  have hbyte := hread i hi 0 one_pos
  rw [Nat.add_zero, elementBytes_scalar _ hf, List.getD_cons_zero] at hbyte
  simp only [startOf_mem, startOf_sh] at hbyte
  exact hbyte.trans (buildFor_lutAt s hf _)

/-! ## The PARAM bytes as the rules read them (30_encoding.md R55) -/

theorem toNat_p0 (r : Operands) : (p0 r).toNat = param r 0 := by
  simp [toNat_params, param]

theorem toNat_p1 (r : Operands) : (p1 r).toNat = param r 1 := by
  simp [toNat_params, param]

theorem toNat_p2 (r : Operands) : (p2 r).toNat = param r 2 := by
  simp [toNat_params, param]

theorem toNat_p3 (r : Operands) : (p3 r).toNat = param r 3 := by
  simp [toNat_params, param]

/-! ## The byte functions as the rules' formulas -/

theorem toNat_negationByte (s : Byte) : (negationByte s).toNat = 255 - s.toNat := by
  rw [negationByte, toNat_u8]
  omega

/-- The copy at `C == 0` is what the sum gives there. -/
theorem toNat_addByteByte (c s : Byte) :
    (addByteByte c s).toNat = min 255 (s.toNat + c.toNat) := by
  have hs := byte_le s
  unfold addByteByte
  split
  next hc =>
    subst hc
    simpa using hs
  next =>
    have h := toNat_sat8 (s.toNat + c.toNat)
    omega

theorem toNat_addByteToHalfByte (c s : Byte) :
    (addByteToHalfByte c s).toNat = min 255 (s.toNat / 2 + c.toNat) := by
  have h : ((addByteToHalfByte c s).toNat : Int) = _ := toNat_sat8 (s.toNat / 2 + c.toNat : Nat)
  omega

/-- The copy at `C == 0` is what the difference gives there. -/
theorem toNat_subByteByte (c s : Byte) : (subByteByte c s).toNat = s.toNat - c.toNat := by
  unfold subByteByte
  split
  next hc =>
    subst hc
    rfl
  next =>
    have hs := byte_le s
    have h := toNat_sat8 ((s.toNat : Int) - c.toNat)
    omega

theorem toNat_multByByteByte (c s : Byte) :
    (multByByteByte c s).toNat = mbb c.toNat s.toNat := by
  unfold multByByteByte mbb
  by_cases hc : c = 1
  · subst hc
    rfl
  have hc' : c.toNat ≠ 1 := fun h => hc (BitVec.eq_of_toNat_eq h)
  have hmul := byte_mul_le s c
  rw [if_neg hc, if_neg hc', toNat_u8]
  omega

theorem toNat_shiftRightByte (n : Nat) (s : Byte) :
    (shiftRightByte n s).toNat = s.toNat / 2 ^ n := by
  have hle := (Nat.div_le_self s.toNat (2 ^ n)).trans_lt s.isLt
  rw [shiftRightByte, toNat_u8, Nat.shiftRight_eq_div_pow, Nat.mod_eq_of_lt hle]

theorem toNat_shiftRightMultByte (n : Nat) (c s : Byte) :
    (shiftRightMultByte n c s).toNat = mbb c.toNat (s.toNat / 2 ^ n) := by
  rw [shiftRightMultByte, toNat_multByByteByte, toNat_shiftRightByte]

theorem toNat_shiftLeftSatByte (n : Nat) (s : Byte) :
    (shiftLeftSatByte n s).toNat = min 255 (s.toNat * 2 ^ n) := by
  have h : ((shiftLeftSatByte n s).toNat : Int) = _ := toNat_sat8 (s.toNat <<< n : Nat)
  rw [Nat.shiftLeft_eq] at h
  omega

theorem toNat_shiftLeftWrapByte (n : Nat) (s : Byte) :
    (shiftLeftWrapByte n s).toNat = s.toNat * 2 ^ n % 256 := by
  rw [shiftLeftWrapByte, toNat_u8, Nat.shiftLeft_eq]

theorem toNat_binarizeByte (t s : Byte) :
    (binarizeByte t s).toNat = if t.toNat ≤ s.toNat then 255 else 0 := by
  unfold binarizeByte
  split <;> rfl

theorem toNat_clipByte (tmin tmax s : Byte) :
    (clipByte tmin tmax s).toNat =
      if s.toNat < tmin.toNat then tmin.toNat
      else if tmax.toNat < s.toNat then tmax.toNat else s.toNat := by
  rw [clipByte, apply_ite BitVec.toNat, apply_ite BitVec.toNat]

/-- Floor division is the floor of the rational quotient, for a divisor of either sign
(00_scope.md R6). -/
theorem fdiv_eq_floor (a d : ℤ) : a.fdiv d = ⌊(a : ℚ) / d⌋ := by
  have hnonneg : ∀ x y : ℤ, 0 ≤ y → x.fdiv y = ⌊(x : ℚ) / y⌋ := fun x y hy => by
    rw [Int.fdiv_eq_ediv_of_nonneg x hy, Int.floor_div_cast_of_nonneg hy, Int.floor_intCast]
  rcases le_total 0 d with hd | hd
  · exact hnonneg a d hd
  · rw [← Int.neg_fdiv_neg, hnonneg (-a) (-d) (Int.neg_nonneg.mpr hd), Int.cast_neg, Int.cast_neg,
      neg_div_neg_eq]

theorem toNat_normalizeByte (cmin cmax nmin nmax s : Byte) :
    (normalizeByte cmin cmax nmin nmax s).toNat =
      normalized cmin.toNat cmax.toNat nmin.toNat nmax.toNat s.toNat := by
  have h : ((normalizeByte cmin cmax nmin nmax s).toNat : ℤ) = _ := toNat_sat8 _
  rw [fdiv_eq_floor, ← Int.floor_natCast_add] at h
  push_cast at h
  rw [normalized, ← h, Int.toNat_natCast]

/-- `Cmax` and `Cmin` are equal as bytes where they are as numbers (60_exceptions.md R128). -/
theorem degenerate_normalizeLinear (b : BitVec 4) (n : BitVec 6) (r : Operands) :
    degenerate (.normalizeLinear b n) r = true ↔ param r 1 = param r 0 := by
  rw [← toNat_p0, ← toNat_p1, BitVec.toNat_inj]
  exact beq_iff_eq

/-! ## The filters -/

/-- Settles O15: the complement of a byte needs no narrowing. -/
theorem bitNegationComplements : Obligations.BitNegationComplements :=
  scalarRule_total 0 (fun _ _ => rfl) (fun _ _ => rfl) (fun _ _ => rfl) (fun _ _ _ => rfl)
    fun _ _ _ => toNat_negationByte

/-- Settles O16: saturation at 255 of a sum that is never negative. -/
theorem addByteSaturates : Obligations.AddByteSaturates :=
  scalarRule_total 1 (fun _ _ => rfl) (fun _ _ => rfl) (fun _ _ => rfl) (fun _ _ _ => rfl)
    fun _ _ r s => toNat_p0 r ▸ toNat_addByteByte (p0 r) s

/-- Settles O17: the same saturation, of the halved byte. -/
theorem addByteToHalfHalvesFirst : Obligations.AddByteToHalfHalvesFirst :=
  scalarRule_total 2 (fun _ _ => rfl) (fun _ _ => rfl) (fun _ _ => rfl) (fun _ _ _ => rfl)
    fun _ _ r s => toNat_p0 r ▸ toNat_addByteToHalfByte (p0 r) s

/-- Settles O18: saturation at 0 of a difference that is never above 255. -/
theorem subByteSaturatesAtZero : Obligations.SubByteSaturatesAtZero :=
  scalarRule_total 3 (fun _ _ => rfl) (fun _ _ => rfl) (fun _ _ => rfl) (fun _ _ _ => rfl)
    fun _ _ r s => toNat_p0 r ▸ toNat_subByteByte (p0 r) s

/-- Settles O19, by the identity at `C == 1` and the quotient elsewhere, which is a byte. -/
theorem multByByteWithIdentity : Obligations.MultByByteWithIdentity :=
  scalarRule_total 4 (fun _ _ => rfl) (fun _ _ => rfl) (fun _ _ => rfl) (fun _ _ _ => rfl)
    fun _ _ r s => toNat_p0 r ▸ toNat_multByByteByte (p0 r) s

/-- Settles O20: a logical right shift is a quotient, at most the byte itself. -/
theorem shiftRightIsLogical : Obligations.ShiftRightIsLogical :=
  scalarRule_shift 5 (fun _ _ => rfl) (fun _ _ => rfl) (fun _ _ => rfl) (fun _ _ _ => rfl)
    fun _ n _ => toNat_shiftRightByte n.toNat

/-- Settles O21: the shift's quotient, through the whole multiply stage. -/
theorem shiftRightThenMultiply : Obligations.ShiftRightThenMultiply :=
  scalarRule_shift 6 (fun _ _ => rfl) (fun _ _ => rfl) (fun _ _ => rfl) (fun _ _ _ => rfl)
    fun _ n r s => toNat_p0 r ▸ toNat_shiftRightMultByte n.toNat (p0 r) s

/-- Settles O22: a left shift is a product, saturated at 255. -/
theorem shiftLeftSaturates : Obligations.ShiftLeftSaturates :=
  scalarRule_shift 7 (fun _ _ => rfl) (fun _ _ => rfl) (fun _ _ => rfl) (fun _ _ _ => rfl)
    fun _ n _ => toNat_shiftLeftSatByte n.toNat

/-- Settles O23: the same product, kept modulo 256. -/
theorem shiftLeftByteWraps : Obligations.ShiftLeftByteWraps :=
  scalarRule_shift 8 (fun _ _ => rfl) (fun _ _ => rfl) (fun _ _ => rfl) (fun _ _ _ => rfl)
    fun _ n _ => toNat_shiftLeftWrapByte n.toNat

/-- Settles O24, by the two sides of the threshold. -/
theorem binarizeIsInclusive : Obligations.BinarizeIsInclusive :=
  scalarRule_total 9 (fun _ _ => rfl) (fun _ _ => rfl) (fun _ _ => rfl) (fun _ _ _ => rfl)
    fun _ _ r s => toNat_p0 r ▸ toNat_binarizeByte (p0 r) s

/-- Settles O25: the filter tests the bounds in the rule's order. -/
theorem clipToRangeTestsLowerFirst : Obligations.ClipToRangeTestsLowerFirst :=
  scalarRule_total 10 (fun _ _ => rfl) (fun _ _ => rfl) (fun _ _ => rfl) (fun _ _ _ => rfl)
    fun _ _ r s => toNat_p0 r ▸ toNat_p1 r ▸ toNat_clipByte (p0 r) (p1 r) s

/-- Settles O26: floor division is the floor of the rational quotient, to which the whole `Nmin` is
added, and the clamps are the same. -/
theorem normalizeLinearIsTheFlooredRemap : Obligations.NormalizeLinearIsTheFlooredRemap :=
  scalarRule 11 (fun _ _ => rfl) (fun _ _ => rfl) (fun _ _ => by simp [shiftOutOfRange, never])
    degenerate_normalizeLinear fun _ _ r s =>
      toNat_p0 r ▸ toNat_p1 r ▸ toNat_p2 r ▸ toNat_p3 r ▸
        toNat_normalizeByte (p0 r) (p1 r) (p2 r) (p3 r) s

end Sys2Proof.Machine
end

section
/-! PROOFS. The rules of the MODE 2 filters: each one's unit function as the rule's formula, and
what every one of them shares, its command word, its validation, its constant bytes, its element and
its whole run (42_unit.md R110 to R116). -/

namespace Sys2Proof.Machine

open Sys2Proof.Claims

/-! ## A whole command -/

/-- The bytes of a buffer, from what each one is. -/
theorem readBytes_eq {m : Memory} {base : Addr} {off n : Nat} {u : List Byte} (hu : u.length = n)
    (h : ∀ j < n, m.read (bufAddr base (off + j)) = u.getD j 0) :
    m.readBytes base off n = u := by
  refine List.ext_getElem (by rw [length_readBytes, hu]) fun j hj hj' => ?_
  rw [length_readBytes] at hj
  rw [← List.getD_eq_getElem _ 0, getD_readBytes _ _ _ _ hj, h j hj, List.getD_eq_getElem]

/-- A command that runs has the constant bytes of its rule, where its filter uses them
(42_unit.md R111). -/
theorem unitMap_buildFor {i : Instr} (s : State) {u : List Byte} (hu : u.length = unitBytes i) :
    unitMap i (buildFor i s).cb u =
      unitMap i (constantBytes (cu s.sh (unitBytes i)) (unitBytes i) s.cb) u :=
  unitMap_congr hu fun hc j _ => by rw [buildFor_constant s hc, buildCb_cb]

@[simp] theorem startOf_cb (s : State) (p : Plan) (n : Nat) :
    (startOf s p n).cb = (buildFor s.current s).cb := rfl

/-- Under the COPY plan of MODE 2 the elements are all the bytes (42_unit.md R112). -/
theorem validate_unit_copy {i : Instr} {r : Operands} {n : Nat} (hf : family i = .unit)
    (h : validate i r = .run .copy n) : n = r.len.toNat := by
  rw [validate_unit r hf] at h
  split_ifs at h <;> cases h
  rfl

/-- Settles O58: `run_command` reads the source as it stood before the command; under COPY an
element is one byte, and under OP one of the whole units that validation counts. -/
theorem unitCommandMapsEveryUnit : Obligations.UnitCommandMapsEveryUnit := by
  intro s p n h hf hv hc
  obtain ⟨t, hrun, hsucc, hread, hframe⟩ := run_command h hv hc
  refine ⟨t, hrun, hsucc, ?copy, ?op, hframe⟩
  case copy =>
    rintro rfl i hi
    have hbyte := hread i (validate_unit_copy hf hv ▸ hi) 0 (elementWidth_pos _ _)
    rw [elementBytes_copy hf (by simp), List.getD_cons_zero] at hbyte
    simpa [elementWidth_copy] using hbyte
  case op =>
    rintro rfl k hk
    rw [elementWidth_unit_op hf] at hread
    refine readBytes_eq (length_unitMap (by simp)) fun j hj => ?_
    rw [hread k (validate_unit_op hf hv ▸ hk) j hj, elementBytes_unit hf (by simp),
      ← unitMap_buildFor s (by simp)]
    simp only [startOf_sh, startOf_mem, startOf_cb]

/-! ## The constant bytes as the rules read them (42_unit.md R111) -/

theorem toNat_unitByte_cu (r : Operands) (w j : Nat) :
    (unitByte (cu r w) w j).toNat = constantByte r w j := by
  rw [toNat_unitByte, cu, toNat_uc, constantByte, show 2 ^ 8 = 256 from rfl]

/-- A value is its unit's bytes, so it is 0 where all of them are. -/
theorem cu_eq_zero_iff (r : Operands) (w : Nat) :
    cu r w = 0 ↔ ∀ j < w, constantByte r w j = 0 := by
  simp only [← toNat_unitByte_cu]
  constructor
  · intro h j _
    simp [h, unitByte]
  · intro h
    have hvalue : ofUnit (toUnit (cu r w) w) = cu r w :=
      (ofUnit_toUnit _ w).trans (Nat.mod_mod _ _)
    rw [ofUnit_eq_unitValue, length_toUnit,
      unitValue_congr (u' := fun _ => 0) fun j hj => by rw [getD_toUnit _ _ hj, h j hj]] at hvalue
    simpa [unitValue] using hvalue.symm

/-- The table that AddUint and SubUint fill is the rule's constant. -/
theorem buildFor_constantByte {i : Instr} (s : State) (hc : usesConstant i = true) {j : Nat}
    (hj : j < unitBytes i) :
    ((buildFor i s).cb.getD j 0).toNat = constantByte s.sh (unitBytes i) j := by
  rw [buildFor_constant s hc, buildCb_cb, getD_constantBytes _ _ _ hj (unitBytes_le i),
    toNat_unitByte_cu]

/-! ## What the MODE 2 filters share -/

/-- A MODE 2 command with valid buffers and bytes to write (60_exceptions.md R122). -/
theorem validate_unit_valid {i : Instr} {r : Operands} (hi : family i = .unit)
    (h1 : r.src1 ≠ 0) (hd : r.dst ≠ 0) (hlen : r.len ≠ 0) :
    validate i r =
      if shiftOutOfRange i = true then .fail .outOfRange
      else if copyShortcut i r = true then .run .copy r.len.toNat
      else if r.len.toNat / unitBytes i = 0 then .succeed
      else .run .op (r.len.toNat / unitBytes i) := by
  rw [validate_unit r hi, if_neg (by tauto), if_neg hlen]

/-- A MODE 2 command fills `cb` or nothing (10_state.md R24). -/
theorem buildFor_unit {i : Instr} (s : State) (hi : family i = .unit) :
    buildFor i s = if usesConstant i = true then s.buildCb (unitBytes i) else s := by
  simp [buildFor, hi]

theorem startsRun_unit {i : Instr} (s : State) (hi : family i = .unit) (p : Plan) (n : Nat) :
    StartsRun s ((buildFor i s).startRun p n) p n ∧ ((buildFor i s).startRun p n).lut = s.lut := by
  rw [buildFor_unit s hi]
  split <;> exact ⟨by constructor <;> simp, by simp⟩

/-- The rule of a MODE 2 filter with FUNC `func`, from its range, its copy shortcut, whether it uses
the constant, and its formula alone (42_unit.md R112). -/
theorem unitRule {mk : BitVec 4 → BitVec 6 → Instr} {bad : BitVec 6 → Prop}
    {copies : BitVec 4 → BitVec 6 → Operands → Prop} {constant : Prop}
    {g : Nat → BitVec 6 → Operands → (Nat → Nat) → Nat → Nat} (func : BitVec 4)
    (hf : ∀ b n, family (mk b n) = .unit) (hw : ∀ b n, unitBytes (mk b n) = b.toNat + 1)
    (henc : ∀ b n, encode (mk b n) = commandWord 2 func b n)
    (hbad : ∀ b n, shiftOutOfRange (mk b n) = true ↔ bad n)
    (hcopies : ∀ b n r, copyShortcut (mk b n) r = true ↔ copies b n r)
    (hconst : constant → ∀ b n, usesConstant (mk b n) = true)
    (hmap : ∀ b n r cb (m : Memory) base off,
      (constant → ∀ j < b.toNat + 1, (cb.getD j 0).toNat = constantByte r (b.toNat + 1) j) →
      ∀ j < b.toNat + 1,
        ((unitMap (mk b n) cb (m.readBytes base off (b.toNat + 1))).getD j 0).toNat =
          g (b.toNat + 1) n r (fun i => (m.read (bufAddr base (off + i))).toNat) j) :
    UnitRule mk (func.toNat + 32) bad copies constant g := by
  have hfilter : ∀ b n, isFilter (mk b n) = true := fun b n => by simp [isFilter, hf]
  constructor
  case encoding => exact fun b n => encoding_of_filter (hfilter b n) (henc b n)
  case nullFails =>
    intro b n s hp hnull
    rw [exec_validate _ hp, validate_unit _ (hf b n), if_pos hnull]
    rfl
  case zeroLength =>
    intro b n s hp h1 hd hlen
    rw [exec_validate _ hp, validate_unit _ (hf b n), if_neg (by tauto), if_pos hlen]
    rfl
  case outOfRange =>
    intro b n s hp h1 hd hlen hb
    rw [exec_validate _ hp, validate_unit_valid (hf b n) h1 hd hlen, if_pos ((hbad b n).mpr hb)]
    rfl
  case shortBuffer =>
    intro b n s hp h1 hd hlen hb hc hshort
    rw [exec_validate _ hp, validate_unit_valid (hf b n) h1 hd hlen, hw,
      if_neg (by rwa [hbad]), if_neg (by rwa [hcopies]), if_pos (Nat.div_eq_of_lt hshort)]
    rfl
  case startsCopy =>
    intro b n s hp h1 hd hlen hb hc
    refine ⟨(buildFor (mk b n) s).startRun .copy s.sh.len.toNat, ?_, startsRun_unit s (hf b n) _ _⟩
    rw [exec_validate _ hp, validate_unit_valid (hf b n) h1 hd hlen, if_neg (by rwa [hbad]),
      if_pos ((hcopies b n _).mpr hc)]
    rfl
  case startsUnits =>
    intro b n s hp h1 hd hlen hb hc hunit
    have hpos := (Nat.div_pos hunit b.toNat.succ_pos).ne'
    obtain ⟨hstarts, hlut⟩ := startsRun_unit s (hf b n) .op (s.sh.len.toNat / (b.toNat + 1))
    refine ⟨_, ?_, hstarts, hlut, fun hk j hj => ?_⟩
    · rw [exec_validate _ hp, validate_unit_valid (hf b n) h1 hd hlen, hw,
        if_neg (by rwa [hbad]), if_neg (by rwa [hcopies]), if_neg hpos]
      rfl
    · rw [← hw b n] at hj ⊢
      exact buildFor_constantByte s (hconst hk b n) hj
  case copyElement =>
    intro b n s hp hplan hr hc
    have hwidth : elementWidth (mk b n) s.plan = 1 := by rw [hplan, elementWidth_copy]
    obtain ⟨t, he, hread, honly, hleaves⟩ :=
      element_of_clean (hfilter b n) hp hr (by simpa only [hwidth, Nat.mul_one] using hc)
    rw [hwidth, Nat.mul_one] at hread honly
    refine ⟨t, he, ?_, honly, hleaves⟩
    have hbyte := hread 0 one_pos
    rwa [Nat.add_zero, elementBytes_copy (hf b n) hplan, List.getD_cons_zero] at hbyte
  case unitElement =>
    intro b n s hp hplan hr hc hcb
    have hwidth : elementWidth (mk b n) s.plan = b.toNat + 1 := by
      rw [hplan, elementWidth_unit_op (hf b n), hw]
    obtain ⟨t, he, hread, honly, hleaves⟩ :=
      element_of_clean (hfilter b n) hp hr (by rwa [hwidth])
    rw [hwidth] at hread honly
    refine ⟨t, he, fun j hj => ?_, honly, hleaves⟩
    rw [hread j hj, elementBytes_unit (hf b n) hplan, hw]
    exact hmap b n s.sh s.cb s.mem _ _ hcb j hj

/-- A filter that combines each byte of the unit with its constant byte (42_unit.md R113, R114). -/
theorem unitRule_constant {mk : BitVec 4 → BitVec 6 → Instr} {f : Byte → Byte → Byte}
    {g : Nat → Nat → Nat} (func : BitVec 4) (hf : ∀ b n, family (mk b n) = .unit)
    (hw : ∀ b n, unitBytes (mk b n) = b.toNat + 1)
    (henc : ∀ b n, encode (mk b n) = commandWord 2 func b n)
    (hbad : ∀ b n, shiftOutOfRange (mk b n) = false)
    (hcopies : ∀ b n r, copyShortcut (mk b n) r = (cu r (b.toNat + 1) == 0))
    (hconst : ∀ b n, usesConstant (mk b n) = true)
    (hmap : ∀ b n cb u, unitMap (mk b n) cb u = u.mapIdx fun j x => f x (cb.getD j 0))
    (hbyte : ∀ x y, (f x y).toNat = g x.toNat y.toNat) :
    UnitRule mk (func.toNat + 32) never
      (fun b _ r => ∀ j < b.toNat + 1, constantByte r (b.toNat + 1) j = 0) True
      fun w _ r u j => g (u j) (constantByte r w j) :=
  unitRule func hf hw henc (fun b n => by simp [hbad, never])
    (fun b n r => by rw [hcopies, beq_iff_eq, cu_eq_zero_iff]) (fun _ => hconst)
    fun b n r cb m base off hcb j hj => by
      rw [hmap, getD_mapIdx _ (by rwa [length_readBytes]), getD_readBytes _ _ _ _ hj, hbyte,
        hcb trivial j hj]

/-- The integer of a unit read from a buffer (20_memory.md R35). -/
theorem ofUnit_readBytes (m : Memory) (base : Addr) (off w : Nat) :
    ofUnit (m.readBytes base off w) =
      unitValue w fun j => (m.read (bufAddr base (off + j))).toNat := by
  rw [ofUnit_eq_unitValue, length_readBytes]
  exact unitValue_congr fun j hj => by rw [getD_readBytes _ _ _ _ hj]

/-- A filter that maps the unit's integer, with N at most 32 (42_unit.md R115, R116;
60_exceptions.md R127). -/
theorem unitRule_shift {mk : BitVec 4 → BitVec 6 → Instr} {f : Nat → Nat → Nat → Nat}
    (func : BitVec 4) (hf : ∀ b n, family (mk b n) = .unit)
    (hw : ∀ b n, unitBytes (mk b n) = b.toNat + 1)
    (henc : ∀ b n, encode (mk b n) = commandWord 2 func b n)
    (hbad : ∀ b n, shiftOutOfRange (mk b n) = decide (32 < n.toNat))
    (hcopies : ∀ b n r, copyShortcut (mk b n) r = (n.toNat == 0))
    (hmap : ∀ b n cb u, unitMap (mk b n) cb u =
      toUnit (f (b.toNat + 1) n.toNat (ofUnit u)) (b.toNat + 1)) :
    UnitRule mk (func.toNat + 32) (fun n => 32 < n.toNat) (fun _ n _ => n.toNat = 0) False
      fun w n _ u j => f w n.toNat (unitValue w u) / 2 ^ (8 * (w - 1 - j)) % 256 :=
  unitRule func hf hw henc (fun b n => by simp [hbad]) (fun b n r => by rw [hcopies, beq_iff_eq])
    False.elim fun b n r cb m base off _ j hj => by
      rw [hmap, getD_toUnit _ _ hj, toNat_unitByte, ofUnit_readBytes]

/-! ## The filters -/

/-- Settles O27: each byte with its constant byte, as `Add` of two bytes. -/
theorem addUintSaturatesEachByte : Obligations.AddUintSaturatesEachByte :=
  unitRule_constant (f := addBytes) (g := fun x c => min 255 (x + c)) 0 (fun _ _ => rfl)
    (fun _ _ => rfl) (fun _ _ => rfl) (fun _ _ => rfl) (fun _ _ _ => rfl) (fun _ _ => rfl)
    (fun _ _ _ _ => rfl) toNat_addBytes

/-- Settles O28: each byte with its constant byte, as `Sub` of two bytes. -/
theorem subUintSaturatesEachByte : Obligations.SubUintSaturatesEachByte :=
  unitRule_constant (f := subBytes) (g := fun x c => x - c) 1 (fun _ _ => rfl)
    (fun _ _ => rfl) (fun _ _ => rfl) (fun _ _ => rfl) (fun _ _ _ => rfl) (fun _ _ => rfl)
    (fun _ _ _ _ => rfl) toNat_subBytes

/-- Settles O29: a left shift of the unit's integer is a product, kept modulo its width. -/
theorem shiftLeftUintShiftsTheUnit : Obligations.ShiftLeftUintShiftsTheUnit :=
  unitRule_shift (f := fun w n v => v * 2 ^ n % 2 ^ (8 * w)) 2 (fun _ _ => rfl) (fun _ _ => rfl)
    (fun _ _ => rfl) (fun _ _ => rfl) (fun _ _ _ => rfl) fun b n _ u => by
      rw [← Nat.shiftLeft_eq]
      rfl

/-- Settles O30: a logical right shift of the unit's integer is a quotient. -/
theorem shiftRightUintShiftsTheUnit : Obligations.ShiftRightUintShiftsTheUnit :=
  unitRule_shift (f := fun _ n v => v / 2 ^ n) 3 (fun _ _ => rfl) (fun _ _ => rfl)
    (fun _ _ => rfl) (fun _ _ => rfl) (fun _ _ _ => rfl) fun b n _ u => by
      rw [← Nat.shiftRight_eq_div_pow]
      rfl

end Sys2Proof.Machine
end

section
/-! PROOFS. How a command ends without running, and how it starts: what `fail` and `succeed` leave in
STATUS, the reserved commands, the order of the validate step's tests, and the parameter values that
make a MODE 1 filter a copy (60_exceptions.md R121 to R131). -/

namespace Sys2Proof.Machine

open Sys2Proof.Claims

/-! ## STATUS after a command (60_exceptions.md R121, R131) -/

theorem statusWord_fail (s : State) (code : ECode) :
    statusWord (s.fail code) =
      0x06 + code.code.setWidth 32 <<< 4 + if s.status.drop then 0x100 else 0 := by
  cases hd : s.status.drop <;> cases code <;>
    simp [statusWord, Status.failed, State.busy, ECode.code, hd]

theorem statusWord_succeed (s : State) (noop : Bool) :
    statusWord (s.succeed noop) =
      (if noop then 0x0A else 0x02) + if s.status.drop then 0x100 else 0 := by
  cases hd : s.status.drop <;> cases noop <;>
    simp [statusWord, Status.succeeded, State.busy, ECode.code, hd]

/-- Settles O34: the six outcomes are four codes of `fail` and the two values of `succeed`'s NOOP. -/
theorem completionReportsTheOutcome : Obligations.CompletionReportsTheOutcome := by
  intro s
  exact ⟨fun _ => rfl, fun _ => rfl, statusWord_fail s .invalidArg, statusWord_fail s .outOfRange,
    statusWord_fail s .notImplemented, statusWord_fail s .illegalCmd, statusWord_succeed s true,
    statusWord_succeed s false⟩

/-! ## The validate step by its verdict (10_state.md R29) -/

section
variable {i : Instr} {s : State} (hp : s.phase = .validate)
include hp

theorem exec_of_validate_fail {code : ECode} (hv : validate i s.sh = .fail code) :
    exec i s = .next (s.fail code) := by
  rw [exec_validate i hp, hv]
  rfl

theorem exec_of_validate_succeed (hv : validate i s.sh = .succeed) :
    exec i s = .next (s.succeed true) := by
  rw [exec_validate i hp, hv]
  rfl

theorem exec_of_validate_run {p : Plan} {n : Nat} (hv : validate i s.sh = .run p n) :
    exec i s = .next ((buildFor i s).startRun p n) := by
  rw [exec_validate i hp, hv]
  rfl

end

/-- Filling the tables changes nothing that the move to RUN must keep. -/
theorem startsRun_buildFor (i : Instr) (s : State) (p : Plan) (n : Nat) :
    StartsRun s ((buildFor i s).startRun p n) p n := by
  obtain ⟨hreg, hsh, hmem, hirq, -, hparams, hinputs, hprog, hhpc, ht, hdraws, hraced, hpre⟩ :=
    settle_frame i s (.run p n)
  exact {
    phase := rfl
    plan := rfl
    count := rfl
    index := rfl
    registers := ⟨hreg, settle_run_status i s p n, hirq, hsh⟩
    memory := hmem
    host := ⟨hparams, hinputs, hprog, hhpc, ht⟩
    race := ⟨hdraws, hraced, hpre⟩ }

theorem starts_of_validate_run {i : Instr} {s : State} (hp : s.phase = .validate) {p : Plan}
    {n : Nat} (hv : validate i s.sh = .run p n) : ∃ t, exec i s = .next t ∧ StartsRun s t p n :=
  ⟨_, exec_of_validate_run hp hv, startsRun_buildFor i s p n⟩

/-! ## Reserved commands (60_exceptions.md R123, R124) -/

theorem exec_illegal {i : Instr} {s : State} (hp : s.phase = .validate)
    (hi : family i = .illegal) : exec i s = .next (s.fail .illegalCmd) :=
  exec_of_validate_fail hp (validate_illegal s.sh hi)

theorem exec_neighborhood {i : Instr} {s : State} (hp : s.phase = .validate)
    (hi : family i = .neighborhood) : exec i s = .next (s.fail .notImplemented) :=
  exec_of_validate_fail hp (validate_neighborhood s.sh hi)

/-- No other command is refused as illegal (60_exceptions.md R122). -/
theorem illegal_of_validate {i : Instr} {r : Operands} (hv : validate i r = .fail .illegalCmd) :
    family i = .illegal := by
  unfold validate at hv
  split_ifs at hv with hi
  · exact hi
  all_goals cases hv

/-- Settles O31: the reserved rows are those of two families, and ILLEGAL_CMD comes from the test of
the family alone. -/
theorem reservedCommandsFail : Obligations.ReservedCommandsFail := by
  intro s hp
  refine ⟨fun f b n => ⟨exec_illegal hp rfl, exec_illegal hp rfl, exec_illegal hp rfl⟩,
    fun f b n => exec_illegal hp rfl, fun w => exec_illegal hp rfl,
    fun f b n => exec_neighborhood hp rfl, fun i t h hcode hbefore => ?_⟩
  cases hv : validate i s.sh with
  | fail code =>
    cases (exec_of_validate_fail hp hv).symm.trans h
    cases (hcode : code = .illegalCmd)
    exact illegal_of_validate hv
  | succeed =>
    cases (exec_of_validate_succeed hp hv).symm.trans h
    cases hcode
  | run p n =>
    obtain ⟨u, hu, hstarts⟩ := starts_of_validate_run hp hv
    cases hu.symm.trans h
    obtain ⟨-, hstatus, -⟩ := hstarts.registers
    exact absurd (hstatus ▸ hcode) hbefore

/-! ## The tests of R122 as the spec states them -/

/-- A byte shift by more than 8 (60_exceptions.md R127). -/
def ByteShiftTooFar (i : Instr) : Prop :=
  ∃ b n, 8 < n.toNat ∧ i ∈ ([.shiftRight b n, .shiftRightAndMultByByte b n, .shiftLeft b n,
    .shiftLeftByte b n] : List Instr)

/-- A unit shift by more than 32 (60_exceptions.md R127). -/
def UnitShiftTooFar (i : Instr) : Prop :=
  ∃ b n, 32 < n.toNat ∧ i ∈ ([.shiftLeftUint b n, .shiftRightUint b n] : List Instr)

/-- A `NormalizeLinear` without a mapping (60_exceptions.md R128). -/
def NoMapping (i : Instr) (r : Operands) : Prop :=
  (∃ b n, i = .normalizeLinear b n) ∧ param r 1 = param r 0

/-- A MODE 2 command whose parameters make it a copy (60_exceptions.md R130). -/
def CopiesUnits (i : Instr) (r : Operands) : Prop :=
  (∃ b n, i ∈ ([.addUint b n, .subUint b n] : List Instr) ∧
    ∀ j < b.toNat + 1, constantByte r (b.toNat + 1) j = 0) ∨
  ∃ b, i ∈ ([.shiftLeftUint b 0, .shiftRightUint b 0] : List Instr)

theorem ByteShiftTooFar.scalar {i : Instr} (h : ByteShiftTooFar i) : family i = .scalar := by
  obtain ⟨b, n, -, hi⟩ := h
  fin_cases hi <;> rfl

theorem UnitShiftTooFar.unit {i : Instr} (h : UnitShiftTooFar i) : family i = .unit := by
  obtain ⟨b, n, -, hi⟩ := h
  fin_cases hi <;> rfl

theorem NoMapping.inRange {i : Instr} {r : Operands} (h : NoMapping i r) :
    shiftOutOfRange i = false := by
  obtain ⟨⟨b, n, rfl⟩, -⟩ := h
  rfl

theorem shiftOutOfRange_iff (i : Instr) :
    shiftOutOfRange i = true ↔ ByteShiftTooFar i ∨ UnitShiftTooFar i := by
  cases i <;>
    simp [shiftOutOfRange, ByteShiftTooFar, UnitShiftTooFar, shiftN, Config.shiftMaxByte,
      Config.shiftMaxUnit]

theorem shiftOutOfRange_unit_iff {i : Instr} (hf : family i = .unit) :
    shiftOutOfRange i = true ↔ UnitShiftTooFar i :=
  (shiftOutOfRange_iff i).trans (or_iff_right fun h => nomatch hf.symm.trans h.scalar)

theorem shiftOutOfRange_byte_iff {i : Instr} (hf : family i ≠ .unit) :
    shiftOutOfRange i = true ↔ ByteShiftTooFar i :=
  (shiftOutOfRange_iff i).trans (or_iff_left fun h => hf h.unit)

theorem degenerate_iff (i : Instr) (r : Operands) : degenerate i r = true ↔ NoMapping i r := by
  cases i
  case normalizeLinear b n => simp [degenerate_normalizeLinear, NoMapping]
  all_goals simp [degenerate, NoMapping]

theorem copyShortcut_iff (i : Instr) (r : Operands) :
    copyShortcut i r = true ↔ CopiesUnits i r := by
  cases i
  case shiftLeftUint b n => simp [copyShortcut, CopiesUnits, shiftN, BitVec.toNat_eq]
  case shiftRightUint b n => simp [copyShortcut, CopiesUnits, shiftN, BitVec.toNat_eq]
  all_goals simp [copyShortcut, CopiesUnits, bpp, cu_eq_zero_iff]

/-! ## The order of the tests (60_exceptions.md R122) -/

/-- The verdict of a filter, test by test. -/
theorem validate_filter {i : Instr} (r : Operands) (hi : isFilter i = true) :
    validate i r =
      if nullBuffer i r = true then .fail .invalidArg
      else if r.len = 0 then .succeed
      else if shiftOutOfRange i = true then .fail .outOfRange
      else if degenerate i r = true then .succeed
      else if family i = .unit then
        if copyShortcut i r = true then .run .copy r.len.toNat
        else if r.len.toNat / unitBytes i = 0 then .succeed
        else .run .op (r.len.toNat / unitBytes i)
      else .run .op r.len.toNat := by
  rcases isFilter_cases hi with hf | hf | hf <;> simp [validate, hf]

/-- Settles O32: the verdict of a filter is a chain of tests, each of which is the spec's; a command
that passes all that stop it starts. -/
theorem validationOrder : Obligations.ValidationOrder := by
  intro i s hp byteShift unitShift noMap copies null
  have hnull_iff : nullBuffer i s.sh = true ↔ null := nullBuffer_iff i s.sh
  have hcopies_iff : copyShortcut i s.sh = true ↔ copies := copyShortcut_iff i s.sh
  have hunit : ¬ null → s.sh.len ≠ 0 → family i = .unit → ¬ unitShift →
      validate i s.sh =
        if copyShortcut i s.sh = true then .run .copy s.sh.len.toNat
        else if s.sh.len.toNat / unitBytes i = 0 then .succeed
        else .run .op (s.sh.len.toNat / unitBytes i) := fun hnull hlen hf hshift => by
    rw [validate_unit_valid hf (mt .inl hnull) (mt (.inr ∘ .inl) hnull) hlen,
      if_neg (mt (shiftOutOfRange_unit_iff hf).mp hshift)]
  refine ⟨exec_illegal hp, exec_neighborhood hp, fun hi hnull => ?null,
    fun hi hnull hlen => ?empty, fun hi hnull hlen hshift => ?outOfRange,
    fun hi hnull hlen hmap => ?noMap, fun hf hnull hlen hshift hcopy => ?copy,
    fun hf hnull hlen hshift hcopy hshort => ?short,
    fun hf hnull hlen hshift hcopy hfull => ?units, fun hf hnull hlen hshift hmap => ?bytes⟩
  case null =>
    apply exec_of_validate_fail hp
    rw [validate_filter _ hi, if_pos (hnull_iff.mpr hnull)]
  case empty =>
    apply exec_of_validate_succeed hp
    rw [validate_filter _ hi, if_neg (mt hnull_iff.mp hnull), if_pos hlen]
  case outOfRange =>
    apply exec_of_validate_fail hp
    rw [validate_filter _ hi, if_neg (mt hnull_iff.mp hnull), if_neg hlen,
      if_pos ((shiftOutOfRange_iff i).mpr hshift)]
  case noMap =>
    apply exec_of_validate_succeed hp
    rw [validate_filter _ hi, if_neg (mt hnull_iff.mp hnull), if_neg hlen,
      if_neg (Bool.eq_false_iff.mp (NoMapping.inRange hmap)),
      if_pos ((degenerate_iff i s.sh).mpr hmap)]
  case copy =>
    apply starts_of_validate_run hp
    rw [hunit hnull hlen hf hshift, if_pos (hcopies_iff.mpr hcopy)]
  case short =>
    apply exec_of_validate_succeed hp
    rw [hunit hnull hlen hf hshift, if_neg (mt hcopies_iff.mp hcopy),
      if_pos (Nat.div_eq_of_lt hshort)]
  case units =>
    have hpos := (Nat.div_pos hfull (unitBytes_pos i)).ne'
    apply starts_of_validate_run hp
    rw [hunit hnull hlen hf hshift, if_neg (mt hcopies_iff.mp hcopy), if_neg hpos]
  case bytes =>
    have hi : isFilter i = true := by rcases hf with hf | hf <;> simp [isFilter, hf]
    have hbyte : family i ≠ .unit := by rcases hf with hf | hf <;> simp [hf]
    apply starts_of_validate_run hp
    rw [validate_filter _ hi, if_neg (mt hnull_iff.mp hnull), if_neg hlen,
      if_neg (mt (shiftOutOfRange_byte_iff hbyte).mp hshift),
      if_neg (mt (degenerate_iff i s.sh).mp hmap), if_neg hbyte]

/-! ## The copy shortcuts of MODE 1 (60_exceptions.md R130) -/

/-- Where a MODE 1 filter's formula is the identity, so is the LUT it runs with (41_scalar.md R90). -/
theorem starts_identity {mk : BitVec 4 → BitVec 6 → Instr} {op : Nat} {bad : BitVec 6 → Prop}
    {f : BitVec 6 → Operands → Nat → Nat} (hrule : ScalarRule mk op bad never f) (b : BitVec 4)
    {n : BitVec 6} {s : State} (hp : s.phase = .validate) (h1 : s.sh.src1 ≠ 0)
    (hd : s.sh.dst ≠ 0) (hlen : s.sh.len ≠ 0) (hbad : ¬ bad n)
    (hf : ∀ v ≤ 255, f n s.sh v = v) :
    ∃ t, exec (mk b n) s = .next t ∧ StartsRun s t .op s.sh.len.toNat ∧ ∀ v, t.lutAt v = v := by
  obtain ⟨t, he, hstarts, -, hlut⟩ := hrule.starts b n s hp h1 hd hlen hbad id
  exact ⟨t, he, hstarts, fun v => BitVec.eq_of_toNat_eq ((hlut v).trans (hf _ (byte_le v)))⟩

/-- Settles O33, filter by filter: at these values each rule's formula is the identity on bytes. -/
theorem copyShortcutsCopy : Obligations.CopyShortcutsCopy := by
  intro b n s hp h1 hd hlen identity
  refine ⟨fun hc => ⟨?_, ?_⟩, fun hc => ⟨?_, ?_⟩, ?_, ?_, ?_⟩
  · exact starts_identity addByteSaturates b hp h1 hd hlen id fun v hv => by
      simpa [hc] using hv
  · exact starts_identity subByteSaturatesAtZero b hp h1 hd hlen id fun v _ => by simp [hc]
  · exact starts_identity multByByteWithIdentity b hp h1 hd hlen id fun v _ => by simp [hc, mbb]
  · exact starts_identity shiftRightThenMultiply b hp h1 hd hlen (by simp) fun v _ => by
      simp [hc, mbb]
  · exact starts_identity shiftRightIsLogical b hp h1 hd hlen (by simp) fun v _ => by simp
  · exact starts_identity shiftLeftSaturates b hp h1 hd hlen (by simp) fun v hv => by
      simpa using hv
  · exact starts_identity shiftLeftByteWraps b hp h1 hd hlen (by simp) fun v hv => by
      simpa using Nat.lt_succ_of_le hv

end Sys2Proof.Machine
end

section
/-! PROOFS. When the interrupt output is high (60_exceptions.md R133), and that no state which meets
the invariant faults (60_exceptions.md R120). -/

namespace Sys2Proof.Machine

/-! ## The interrupt (10_state.md R26; 60_exceptions.md R133) -/

/-- A command is over only with DONE set (60_exceptions.md R121, R131). -/
theorem exec_done {i : Instr} {s t : State} (hp : s.phase ≠ .idle) (h : exec i s = .next t)
    (ht : t.phase = .idle) : t.status.done = true := by
  cases hphase : s.phase with
  | idle => exact absurd hphase hp
  | validate =>
    cases hv : validate i s.sh with
    | fail code =>
      cases (exec_of_validate_fail hphase hv).symm.trans h
      rfl
    | succeed =>
      cases (exec_of_validate_succeed hphase hv).symm.trans h
      rfl
    | run p n =>
      cases (exec_of_validate_run hphase hv).symm.trans h
      cases ht
  | run =>
    obtain ⟨hleaves, -⟩ := exec_run_next hphase h
    by_cases hk : s.k + 1 = s.count
    · obtain ⟨-, hdone, -⟩ := hleaves.last hk
      exact hdone
    · obtain ⟨hrun, -⟩ := hleaves.more hk
      cases hrun.symm.trans ht

theorem writeCmd_irq_busy {s : State} (hp : s.phase ≠ .idle) (v : Word) :
    (writeCmd s v).irq = s.irq := by
  rw [writeCmd_busy hp]
  rfl

theorem accept_irq (s : State) (v : Word) : (s.accept v).irq = false := by
  simp [State.irq, Status.accepted]

theorem writeOneToClear_irq (s : State) {v : Word} (hv : v.getLsbD 1 = true) :
    ({ s with status := s.status.writeOneToClear v } : State).irq = false := by
  simp [State.irq, Status.writeOneToClear, hv]

/-- Settles O43, event by event: each sets or clears one of DONE and IRQ_EN. -/
theorem interruptFollowsDoneAndEnable : Obligations.InterruptFollowsDoneAndEnable := by
  intro s
  refine ⟨fun i t hp h ht => ?complete, fun t h => ?enable, fun t h => ?acknowledge,
    fun v t hp h => ?accept, fun v t hp h => ?drop, fun t h => ?reset⟩
  case complete =>
    obtain ⟨-, -, hirq, -⟩ := execFrame i s t h
    rw [State.irq, exec_done hp h ht, hirq, Bool.and_true]
  case enable =>
    cases h
    exact Bool.true_and _
  case acknowledge =>
    cases h
    exact writeOneToClear_irq s rfl
  case accept =>
    cases h
    exact (congrArg State.irq (writeCmd_idle hp v)).trans (accept_irq s v)
  case drop =>
    cases h
    exact writeCmd_irq_busy hp v
  case reset =>
    cases h
    rfl

/-! ## No fault (60_exceptions.md R120) -/

/-- Only a command that validation let run is in RUN, and such a command has an element (log 16). -/
theorem Inv.exec_next {s : State} (h : Inv s) : ∃ t, exec s.current s = .next t := by
  cases hp : s.phase with
  | idle => exact ⟨_, exec_idle _ hp⟩
  | validate => exact ⟨_, exec_validate _ hp⟩
  | run =>
    obtain ⟨hi, -⟩ := validate_run (h.validated hp)
    exact ⟨_, exec_run_element hi hp⟩

theorem Inv.engineTurn_not_fault {s : State} (h : Inv s) (f : Fault) : engineTurn s ≠ .fault f := by
  obtain ⟨t, ht⟩ := h.exec_next
  unfold engineTurn
  split
  · nofun
  · simp [ht]

theorem programTurn_not_fault (s : State) (f : Fault) : programTurn s ≠ .fault f := by
  unfold programTurn
  split
  case h_2 => exact hostMove_not_fault _ _ f
  all_goals nofun

/-- Settles O53, by whose turn the step is; on the engine's, the invariant gives every command in RUN
an element. -/
theorem invariantStatesNeverFault : Obligations.InvariantStatesNeverFault := by
  intro s hinv
  refine ⟨fun f => ?_, fun hi hp hw => ?_⟩
  · obtain ⟨rest, e | e | ⟨m, e⟩⟩ := step_cases s <;> rw [e]
    · exact Inv.engineTurn_not_fault (s := { s with inputs := rest }) { hinv with } f
    · exact programTurn_not_fault _ f
    · exact hostMove_not_fault m _ f
  · rw [step_of_noTurn hi, if_neg hp, engineTurn_of_noConflict hw]
    exact hinv.exec_next

end Sys2Proof.Machine
end

section
/-! PROOFS. A command left to the engine is in progress for exactly `1 + count` steps, whatever its
elements read (10_state.md R29; 70_reset_and_hazards.md R161). -/

namespace Sys2Proof.Machine

open Sys2Proof.Claims

/-- The command in progress in `s`, left to the engine, completes with step `1 + n` and no
earlier. -/
def CompletesAfter (s : State) (n : Nat) : Prop :=
  (∃ t : State, core.run (1 + n) s = .next t ∧ t.phase = .idle ∧ t.status.done = true) ∧
    ∀ m ≤ n, ∃ u : State, core.run m s = .next u ∧ u.phase ≠ .idle ∧
      u.status.done = s.status.done

/-- With no turn waiting, the step of a command in progress is its engine step. -/
theorem step_of_busy {s : State} (hi : s.inputs = []) (hp : s.phase ≠ .idle)
    (hw : s.windowConflict = false) : step s = exec s.current s := by
  rw [step_of_noTurn hi, if_neg hp, engineTurn_of_noConflict hw]

theorem completesAfter_zero {s t : State} (hi : s.inputs = []) (hp : s.phase ≠ .idle)
    (hw : s.windowConflict = false) (he : exec s.current s = .next t) (ht : t.phase = .idle) :
    CompletesAfter s 0 := by
  refine ⟨⟨t, ?_, ht, exec_done hp he ht⟩, fun m hm => ⟨s, ?_, hp, rfl⟩⟩
  · rw [Nat.add_comm, run_succ 0 ((step_of_busy hi hp hw).trans he), run_zero]
  · rw [Nat.le_zero.mp hm, run_zero]

/-! ## From element to element -/

/-- `u` is about to execute element `e` of the `n` elements of the command that `s` holds, and no
turn is waiting. -/
structure AtElement (s : State) (n e : Nat) (u : State) : Prop where
  phase : u.phase = .run
  index : u.k = e
  count : u.count = n
  shadow : u.sh = s.sh
  turns : u.inputs = []
  status : u.status = s.status

section
variable {s u : State} {n e : Nat} (hf : isFilter s.current = true) (h : AtElement s n e u)
include hf h

theorem AtElement.step_leaves : ∃ t, step u = .next t ∧ ElementLeaves u t := by
  have hcurrent : u.current = s.current := by rw [State.current, State.current, h.shadow]
  obtain ⟨t, he, hleaves, -⟩ :=
    elementRunsWhateverItReads u.current u (by rwa [hcurrent]) h.phase
  have hstep := step_of_busy h.turns (by simp [h.phase]) (windowConflict_of_run h.phase)
  exact ⟨t, hstep.trans he, hleaves⟩

/-- An element that is not the last leads to the next one (10_state.md R29). -/
theorem AtElement.step_more (hn : e + 1 < n) : ∃ t, step u = .next t ∧ AtElement s n (e + 1) t := by
  obtain ⟨t, hstep, hleaves⟩ := h.step_leaves hf
  obtain ⟨hphase, hstatus⟩ := hleaves.more (by rw [h.index, h.count]; exact hn.ne)
  obtain ⟨hsh, -, hcount, -⟩ := hleaves.engine
  obtain ⟨-, hinputs, -⟩ := hleaves.host
  exact ⟨t, hstep, {
    phase := hphase
    index := by rw [hleaves.index, h.index]
    count := hcount.trans h.count
    shadow := hsh.trans h.shadow
    turns := hinputs.trans h.turns
    status := hstatus.trans h.status }⟩

/-- The last element completes the command (60_exceptions.md R131). -/
theorem AtElement.step_last (hn : e + 1 = n) :
    ∃ t, step u = .next t ∧ t.phase = .idle ∧ t.status.done = true := by
  obtain ⟨t, hstep, hleaves⟩ := h.step_leaves hf
  obtain ⟨hphase, hdone, -⟩ := hleaves.last (by rw [h.index, h.count, hn])
  exact ⟨t, hstep, hphase, hdone⟩

end

/-! ## From the validate step to the last element -/

section
variable {s : State} {p : Plan} {n : Nat} (hp : s.phase = .validate) (hi : s.inputs = [])
  (hw : s.windowConflict = false) (hv : validate s.current s.sh = .run p n)
include hp hi hw hv

/-- The validate step of a command that runs leads to its element 0 (10_state.md R29). -/
theorem atElement_zero : ∃ u, step s = .next u ∧ AtElement s n 0 u := by
  obtain ⟨u, he, hstarts⟩ := starts_of_validate_run hp hv
  obtain ⟨-, hstatus, -, hsh⟩ := hstarts.registers
  obtain ⟨-, hinputs, -⟩ := hstarts.host
  exact ⟨u, (step_of_busy hi (by simp [hp]) hw).trans he, {
    phase := hstarts.phase
    index := hstarts.index
    count := hstarts.count
    shadow := hsh
    turns := hinputs.trans hi
    status := hstatus }⟩

theorem run_atElement {e : Nat} (he : e < n) :
    ∃ u, core.run (e + 1) s = .next u ∧ AtElement s n e u := by
  obtain ⟨hf, -⟩ := validate_run hv
  induction e with
  | zero =>
    obtain ⟨u, hstep, hu⟩ := atElement_zero hp hi hw hv
    exact ⟨u, run_succ 0 hstep, hu⟩
  | succ e ih =>
    obtain ⟨u, hrun, hu⟩ := ih (by omega)
    obtain ⟨t, hstep, ht⟩ := hu.step_more hf he
    exact ⟨t, (run_snoc _ hrun).trans hstep, ht⟩

theorem completesAfter_run : CompletesAfter s n := by
  obtain ⟨hf, hn, -⟩ := validate_run hv
  refine ⟨?_, fun m hm => ?_⟩
  · have hlast : n - 1 + 1 = n := Nat.sub_add_cancel hn
    obtain ⟨u, hrun, hu⟩ := run_atElement hp hi hw hv (Nat.sub_one_lt hn.ne')
    obtain ⟨t, hstep, ht⟩ := hu.step_last hf hlast
    rw [hlast] at hrun
    rw [Nat.add_comm]
    exact ⟨t, (run_snoc n hrun).trans hstep, ht⟩
  · cases m with
    | zero => exact ⟨s, run_zero s, by simp [hp], rfl⟩
    | succ e =>
      obtain ⟨u, hrun, hu⟩ := run_atElement hp hi hw hv hm
      exact ⟨u, hrun, by simp [hu.phase], by rw [hu.status]⟩

end

/-- Settles O55, by the verdict: a failure and a no-op end with the validate step, and a command that
runs is at element `e` after `1 + e` steps. -/
theorem commandTakesOnePlusCountSteps : Obligations.CommandTakesOnePlusCountSteps := by
  intro s hp hi hw
  have hbusy : s.phase ≠ .idle := by simp [hp]
  cases hv : validate s.current s.sh with
  | fail code => exact completesAfter_zero hi hbusy hw (exec_of_validate_fail hp hv) rfl
  | succeed => exact completesAfter_zero hi hbusy hw (exec_of_validate_succeed hp hv) rfl
  | run p n => exact completesAfter_run hp hi hw hv

end Sys2Proof.Machine
end

section
/-! PROOFS. Writes to the operand registers and to CTRL, the reset input and the state after reset
(70_reset_and_hazards.md R150, R151, R156). -/

namespace Sys2Proof.Machine

/-! ## Operand registers and CTRL (10_state.md R14 to R18; 70_reset_and_hazards.md R156) -/

/-- A write past CTRL changes the register file alone, and CMD not in it. -/
theorem writeRegister_operand (s : State) {off : BitVec 6} (v : Word) (h : 3 ≤ off.toNat / 4) :
    ∃ r, r.cmd = s.reg.cmd ∧ writeRegister s off v = { s with reg := r } := by
  unfold writeRegister
  split
  case h_1 | h_2 | h_3 => omega
  all_goals exact ⟨_, by rfl, rfl⟩

theorem readRegister_writeRegister_same (s : State) {off : BitVec 6} (v : Word)
    (hlo : 3 ≤ off.toNat / 4) (hhi : off.toNat / 4 < 12) :
    readRegister (writeRegister s off v) off = v := by
  unfold writeRegister readRegister
  interval_cases off.toNat / 4 <;> rfl

/-- CTRL reads as IRQ_EN alone (10_state.md R14). -/
theorem ctrlWord_irqEn (s : State) (v : Word) :
    ctrlWord { s with irqEn := v.getLsbD 0 } = v &&& 1 := by
  unfold ctrlWord
  ext j hj
  rw [BitVec.getElem_append]
  split
  · obtain rfl : j = 0 := by omega
    simp
  · have hj0 : j ≠ 0 := by omega
    simp [hj0]

/-- Settles O40: a written register reads back its value, every other register what it read
before. -/
theorem operandWritesTakeEffectAtOnce : Obligations.OperandWritesTakeEffectAtOnce := by
  intro s v
  refine ⟨fun off hoff => ?_, fun r w => rfl, _, rfl, rfl, ctrlWord_irqEn s v, rfl⟩
  have hoperand : ∀ off ∈ ([0x0C, 0x10, 0x14, 0x18, 0x1C, 0x20, 0x24, 0x28, 0x2C] :
      List (BitVec 6)), off.toNat % 4 = 0 ∧ 3 ≤ off.toNat / 4 ∧ off.toNat / 4 < 12 := by decide
  obtain ⟨halign, hlo, hhi⟩ := hoperand off hoff
  obtain ⟨r, hcmd, hr⟩ := writeRegister_operand s v hlo
  rw [hostMove_writeReg_word halign, hr]
  refine ⟨r, rfl, hcmd, fun x hx => ?_⟩
  rw [← hr]
  split
  case isTrue heq => rw [heq, readRegister_writeRegister_same s v hlo hhi]
  case isFalse hne =>
    exact readRegister_writeRegister_other s v (by omega) fun h =>
      hne (BitVec.eq_of_toNat_eq (by omega))

/-! ## Reset (70_reset_and_hazards.md R150, R151) -/

theorem resetMove_mem_idle {s : State} (hp : s.phase = .idle) : (resetMove s).mem = s.mem := by
  simp [resetMove, State.busy, hp]

theorem resetMove_mem_busy {s : State} (hp : s.phase ≠ .idle) :
    (resetMove s).mem = (s.putFree 0 s.sh.len.toNat).mem := by
  simp [resetMove, State.busy, hp]

/-- Reset keeps every byte outside the destination range of the command it abandons. -/
theorem resetMove_read_outside {s : State} {a : Addr}
    (ha : inBuffer s.sh.dst s.sh.len.toNat a = false) :
    (resetMove s).mem.read a = s.mem.read a := by
  by_cases hp : s.phase = .idle
  · rw [resetMove_mem_idle hp]
  · rw [resetMove_mem_busy hp, putFree_read_outside s s.sh.len.isLt.le ha]

/-- Settles O49: all but memory is as in the state after reset or as it was, and memory is kept at
rest and, during a command, outside its destination range. -/
theorem resetAbandonsTheCommand : Obligations.ResetAbandonsTheCommand := by
  intro s
  exact ⟨resetMove s, rfl, rfl, rfl, rfl, rfl, rfl, rfl, rfl, rfl, rfl, resetMove_mem_idle,
    fun _ => resetMove_read_outside⟩

/-- Settles O50, register by register of the window. -/
theorem resetStateHoldsTheSpecValues : Obligations.ResetStateHoldsTheSpecValues := by
  refine ⟨fun off => ?_, rfl, rfl⟩
  unfold readRegister
  split <;> rfl

/-- Settles O51: an idle state with no outcome and empty memory. -/
theorem resetMeetsTheInvariant : Obligations.ResetMeetsTheInvariant :=
  inv_of_idle rfl nil_wf (by decide) (by decide)

end Sys2Proof.Machine
end
